-- ==== Sys2Proof/Word.lean ====
section
/-! DEFINITION. The word types of DCIS: the unsigned integers u8, u16 and u32 of 00_scope.md R20. -/

namespace Sys2Proof

/-- u8 (00_scope.md R20). -/
abbrev Byte := BitVec 8

/-- u16: coordinates, sizes and colour words (00_scope.md R12, R13, R20). -/
abbrev Half := BitVec 16

/-- u32: delays, the cell count, `seq_idx` and `fail_step` (00_scope.md R20). -/
abbrev Long := BitVec 32

end Sys2Proof
end

