-- ==== Sys2Proof/Config.lean ====
section
/-! DEFINITION. The configuration of one DCIS instance (00_scope.md R11 to R19), the check that refuses an invalid
one, the two reference configurations of 95_test_vectors.md, and the free values of the model. -/

namespace Sys2Proof

/-- `VARIANT` (00_scope.md R2, R16). -/
inductive Variant
  | color
  | mono
  deriving DecidableEq, Repr, Inhabited

/-- `transport` (00_scope.md R4, R16). -/
inductive Transport
  | spiHw
  | spiSw
  | i2cHw
  | i2cSw
  deriving DecidableEq, Repr, Inhabited

/-- Whether the transport frames its units with chip-select and the data/command line (20_memory.md R80, R85). -/
def Transport.isSpi : Transport → Bool
  | .spiHw => true
  | .spiSw => true
  | .i2cHw => false
  | .i2cSw => false

/-- The answer of the bus to one byte write (20_memory.md R88). -/
inductive Answer
  | ok
  | fail
  deriving DecidableEq, Repr, Inhabited

/-- One step of the init table (20_memory.md R71, 30_encoding.md R126). -/
structure CommandEntry where
  cmd     : Byte
  params  : List Byte
  delayMs : Half
  delayUs : Half
  deriving DecidableEq, Repr

/-- The raw configuration record (00_scope.md R16). The pin assignments and `spi_speed` are opaque there and out of
scope (R8); `spi_mode`, `bit_order` and `CMD_CASET` are fixed by the spec, so they are no fields. -/
structure RawCfg where
  variant          : Variant
  transport        : Transport
  width            : Half
  height           : Half
  colorDepth       : Byte
  hasResetPin      : Bool
  i2cAddr          : BitVec 7
  ctrlCmd          : Byte
  ctrlData         : Byte
  initTable        : List CommandEntry
  cmdRaset         : Byte
  cmdRamwr         : Byte
  cmdDispon        : Byte
  disponDelayUs    : Long
  /-- `MONO_PAGE_PREAMBLE`, a function from pages to command bytes, written out as one list for each page (plain data). -/
  monoPagePreamble : List (List Byte)
  tRstLowUs        : Long
  tRstHighUs       : Long
  deriving DecidableEq, Repr

/-- An entry holds at most 255 parameter bytes (00_scope.md R15). -/
def CommandEntry.check (e : CommandEntry) : Bool := decide (e.params.length ≤ 255)

/-- The constraints of the colour variant: 16 bits a pixel (00_scope.md R13), SPI only (92_eei_decisions.md D34). -/
def RawCfg.checkColor (c : RawCfg) : Bool :=
  c.colorDepth == 16 && c.transport.isSpi

/-- The constraints of the monochrome variant: 1 bit a pixel (00_scope.md R13), whole pages (R14), a preamble for each page. -/
def RawCfg.checkMono (c : RawCfg) : Bool :=
  c.colorDepth == 1 && c.height.toNat % 8 == 0 && c.monoPagePreamble.length == c.height.toNat / 8

/-- Every range and constraint of 00_scope.md R12 to R16 (the widths of the fields are their types). -/
def RawCfg.check (c : RawCfg) : Bool :=
  decide (1 ≤ c.width.toNat) && decide (1 ≤ c.height.toNat)
    && (match c.variant with
        | .color => c.checkColor
        | .mono => c.checkMono)
    && decide (c.initTable.length ≤ 65535) && c.initTable.all CommandEntry.check
    && c.ctrlData != c.ctrlCmd
    && decide (10000 ≤ c.tRstLowUs.toNat) && decide (10000 ≤ c.tRstHighUs.toNat)

/-- A valid configuration: the raw record paired with the proof that its check passes (00_scope.md R19). -/
structure Cfg extends RawCfg where
  valid : toRawCfg.check = true
  deriving DecidableEq, Repr

/-- CFG-C of 95_test_vectors.md, with an empty init table. Its command bytes are the general-knowledge defaults of
00_scope.md R16; `i2cAddr` and the control bytes are not used on SPI. -/
def RawCfg.referenceColor : RawCfg where
  variant := .color
  transport := .spiHw
  width := 240
  height := 135
  colorDepth := 16
  hasResetPin := true
  i2cAddr := 0x3C
  ctrlCmd := 0x00
  ctrlData := 0x40
  initTable := []
  cmdRaset := 0x2B
  cmdRamwr := 0x2C
  cmdDispon := 0x29
  disponDelayUs := 0
  monoPagePreamble := []
  tRstLowUs := 10000
  tRstHighUs := 10000

/-- CFG-M of 95_test_vectors.md, with an empty init table and the default preamble `[0xB0 + p, 0x00, 0x10]`. -/
def RawCfg.referenceMono : RawCfg where
  variant := .mono
  transport := .i2cHw
  width := 128
  height := 64
  colorDepth := 1
  hasResetPin := false
  i2cAddr := 0x3C
  ctrlCmd := 0x00
  ctrlData := 0x40
  initTable := []
  cmdRaset := 0x2B
  cmdRamwr := 0x2C
  cmdDispon := 0xAF
  disponDelayUs := 0
  monoPagePreamble := (List.range 8).map fun p => [0xB0 + BitVec.ofNat 8 p, 0x00, 0x10]
  tRstLowUs := 10000
  tRstHighUs := 10000

/-- CFG-C, checked. DESIGN CHOICE (log 1), unsafe: `State.reset` is the reset of this configuration. -/
def Cfg.referenceColor : Cfg := ⟨RawCfg.referenceColor, by decide⟩

/-- CFG-M, checked. -/
def Cfg.referenceMono : Cfg := ⟨RawCfg.referenceMono, by decide⟩

/-- FREE VALUE (log 3): the answer of the bus to the n-th byte write of the machine, where no answer was given as
input (20_memory.md R88: "The bus oracle is an unconstrained sequence of answers"). -/
opaque Config.busAnswer : Nat → Answer

/-- FREE VALUE (log 14): how many of the eight bits of the n-th failed byte took place on the pins or on the I2C wire
(20_memory.md R88, R94: "unspecified"; 93_implementation_defined.md U3). -/
opaque Config.bitsBeforeFail : Nat → Nat

end Sys2Proof
end

