-- ==== Sys2Proof/Syntax.lean ====
section
/-! DEFINITION. The request record of DCIS and the instructions of spec/opcode_table.json, one constructor a row. -/

namespace Sys2Proof

/-- The request the host issues (30_encoding.md R120). -/
structure Request where
  op  : Byte
  op0 : Half
  op1 : Half
  op2 : Half
  op3 : Half
  op4 : Half
  deriving DecidableEq, Repr

/-- The encoded surfaces of DCIS (30_encoding.md, opening; the `format` column of the opcode table). The ROM has two
record forms, an entry (R127) and a table image (R128). -/
inductive Surface
  | request
  | wire
  | romEntry
  | romImage
  deriving DecidableEq, Repr

/-- The instructions: the requests (30_encoding.md R122, R123), the wire commands the block emits (R131, R132, R135,
R136) and the ROM records it replays (R127, R128). Operand slots a row ignores (R125) are no fields. -/
inductive Instr
  | init
  | setWindow (x0 y0 x1 y1 : Half)
  | writeWord (color : Half)
  | putPixel (x y color : Half)
  | fillRect (x0 y0 x1 y1 color : Half)
  | monoSetPixel (x y : Half) (v : BitVec 1)
  | monoGetPixel (x y : Half)
  | monoClear
  | monoFlush
  | lockBuffer
  | unlockBuffer
  | reserved (op : Byte)
  | caset (x0 x1 : Half)
  | raset (y0 y1 : Half)
  | ramwr
  | dispon
  | pagePreamble (page : Nat)
  | tableEntry (e : CommandEntry)
  | tableImage (es : List CommandEntry)
  deriving DecidableEq, Repr

/-- The surface an instruction's words are read from. -/
def Instr.surface : Instr → Surface
  | .init => .request
  | .setWindow _ _ _ _ => .request
  | .writeWord _ => .request
  | .putPixel _ _ _ => .request
  | .fillRect _ _ _ _ _ => .request
  | .monoSetPixel _ _ _ => .request
  | .monoGetPixel _ _ => .request
  | .monoClear => .request
  | .monoFlush => .request
  | .lockBuffer => .request
  | .unlockBuffer => .request
  | .reserved _ => .request
  | .caset _ _ => .wire
  | .raset _ _ => .wire
  | .ramwr => .wire
  | .dispon => .wire
  | .pagePreamble _ => .wire
  | .tableEntry _ => .romEntry
  | .tableImage _ => .romImage

end Sys2Proof
end

