-- ==== Sys2Proof/WellFormed.lean ====
section
/-! DEFINITION. Which instructions have an encoding: the checks on an instruction as syntax. -/

namespace Sys2Proof

/-- The reserved opcodes (30_encoding.md R123): 0x00, 0x06..0x0F, 0x14..0x1F and 0x22..0xFF. -/
def reservedOp (op : Byte) : Bool :=
  op == 0x00 || (decide (0x06 ≤ op) && decide (op ≤ 0x0F)) || (decide (0x14 ≤ op) && decide (op ≤ 0x1F))
    || decide (0x22 ≤ op)

/-- The number of pages of the page buffer: `H / 8` on Mono (20_memory.md R74), none on Color, which has no buffer
(10_state.md R45). -/
def Cfg.pageCount (c : Cfg) : Nat :=
  match c.variant with
  | .color => 0
  | .mono => c.height.toNat / 8

/-- Well-formed instructions of a block of configuration `c`: a reserved opcode is one of R123's, a page exists
(30_encoding.md R135), an entry's and a table's counts fit their fields (30_encoding.md R126, 00_scope.md R15). -/
def Instr.wellFormed (c : Cfg) : Instr → Bool
  | .init => true
  | .setWindow _ _ _ _ => true
  | .writeWord _ => true
  | .putPixel _ _ _ => true
  | .fillRect _ _ _ _ _ => true
  | .monoSetPixel _ _ _ => true
  | .monoGetPixel _ _ => true
  | .monoClear => true
  | .monoFlush => true
  | .lockBuffer => true
  | .unlockBuffer => true
  | .reserved op => reservedOp op
  | .caset _ _ => true
  | .raset _ _ => true
  | .ramwr => true
  | .dispon => true
  | .pagePreamble p => decide (p < c.pageCount)
  | .tableEntry e => e.check
  | .tableImage es => decide (es.length ≤ 65535) && es.all CommandEntry.check

end Sys2Proof
end

