-- ==== Sys2Proof/Decode.lean ====
section
/-! DEFINITION. The decoders of the encoded surfaces (30_encoding.md R120 to R128, R131 to R136), total on any bytes and
rejecting by name, and the encoder, written from the same tables. -/

namespace Sys2Proof

/-- The high byte `v[15:8]` (30_encoding.md R139). -/
def hiByte (v : Half) : Byte := v.extractLsb' 8 8

/-- The low byte `v[7:0]` (30_encoding.md R139). -/
def loByte (v : Half) : Byte := v.extractLsb' 0 8

/-- `{high, low}` as a 16-bit value (00_scope.md R20, 30_encoding.md R139). -/
def joinBytes (hi lo : Byte) : Half := hi ++ lo

/-- `CMD_CASET` is fixed at 0x2A (92_eei_decisions.md D30). -/
def cmdCaset : Byte := 0x2A

/-- `MONO_PAGE_PREAMBLE(p)` (00_scope.md R16). -/
def Cfg.preamble (c : Cfg) (p : Nat) : List Byte := c.monoPagePreamble.getD p []

/-- Why bytes are no word of a surface. -/
inductive DecodeError
  /-- a request is 11 bytes; "a partial request does not exist" (30_encoding.md R120) -/
  | notElevenBytes
  /-- the first byte is no command byte the block emits (30_encoding.md R136) -/
  | noSuchCommand
  /-- a command byte with other than its number of parameter bytes (30_encoding.md R136) -/
  | wrongParameterCount
  /-- a ROM record runs past the end of its bytes (30_encoding.md R128) -/
  | recordTruncated
  /-- bytes are left over after the last record (30_encoding.md R128) -/
  | trailingBytes
  /-- a table image without its two count bytes (30_encoding.md R128) -/
  | imageTruncated
  deriving DecidableEq, Repr

/-- The opcode map (30_encoding.md R122) and the reserved opcodes (R123). Ignored slots and bits are dropped (R125). -/
def decodeRequest (r : Request) : Instr :=
  match r.op.toNat with
  | 0x01 => .init
  | 0x02 => .setWindow r.op0 r.op1 r.op2 r.op3
  | 0x03 => .writeWord r.op0
  | 0x04 => .putPixel r.op0 r.op1 r.op2
  | 0x05 => .fillRect r.op0 r.op1 r.op2 r.op3 r.op4
  | 0x10 => .monoSetPixel r.op0 r.op1 (r.op2.extractLsb' 0 1)
  | 0x11 => .monoGetPixel r.op0 r.op1
  | 0x12 => .monoClear
  | 0x13 => .monoFlush
  | 0x20 => .lockBuffer
  | 0x21 => .unlockBuffer
  | _ => .reserved r.op

/-- A request from its 11 bytes: `op`, then each operand high byte first (30_encoding.md R120). -/
def requestOfBytes : List Byte → Except DecodeError Request
  | [op, a1, a0, b1, b0, c1, c0, d1, d0, e1, e0] =>
    .ok ⟨op, joinBytes a1 a0, joinBytes b1 b0, joinBytes c1 c0, joinBytes d1 d0, joinBytes e1 e0⟩
  | _ => .error .notElevenBytes

/-- One ROM record and the bytes after it (30_encoding.md R127, R128). -/
def decodeRecord : List Byte → Except DecodeError (CommandEntry × List Byte)
  | cmd :: n :: rest =>
    if rest.length < n.toNat then .error .recordTruncated
    else match rest.drop n.toNat with
      | m1 :: m0 :: u1 :: u0 :: after =>
        .ok (⟨cmd, rest.take n.toNat, joinBytes m1 m0, joinBytes u1 u0⟩, after)
      | _ => .error .recordTruncated
  | _ => .error .recordTruncated

/-- `count` records back to back, in table order, and the bytes after them (30_encoding.md R128). -/
def decodeRecords : Nat → List Byte → Except DecodeError (List CommandEntry × List Byte)
  | 0, bs => .ok ([], bs)
  | count + 1, bs =>
    match decodeRecord bs with
    | .error e => .error e
    | .ok (entry, rest) =>
      match decodeRecords count rest with
      | .error e => .error e
      | .ok (entries, after) => .ok (entry :: entries, after)

/-- A single record that must use up its bytes. -/
def decodeEntry (bs : List Byte) : Except DecodeError CommandEntry :=
  match decodeRecord bs with
  | .error e => .error e
  | .ok (entry, []) => .ok entry
  | .ok (_, _ :: _) => .error .trailingBytes

/-- A table image: the entry count, high byte first, then the records; nothing may be left over (30_encoding.md R128). -/
def decodeImage : List Byte → Except DecodeError (List CommandEntry)
  | l1 :: l0 :: bs =>
    match decodeRecords (joinBytes l1 l0).toNat bs with
    | .error e => .error e
    | .ok (entries, []) => .ok entries
    | .ok (_, _ :: _) => .error .trailingBytes
  | _ => .error .imageTruncated

/-- The first page from `p` on, of `n` pages, whose preamble is `bs`. -/
def Cfg.findPage (c : Cfg) (bs : List Byte) : Nat → Nat → Option Nat
  | 0, _ => none
  | n + 1, p => if c.preamble p = bs then some p else c.findPage bs n (p + 1)

/-- The four parameter bytes of a column or row address set, high bytes first (30_encoding.md R131). -/
def rangeOfBytes : List Byte → Except DecodeError (Half × Half)
  | [a1, a0, b1, b0] => .ok (joinBytes a1 a0, joinBytes b1 b0)
  | _ => .error .wrongParameterCount

/-- A wire command from the payload bytes of its units in wire order (30_encoding.md R131, R132, R135, R136). The page
preambles are looked up first. DESIGN CHOICE (log 9): DCIS itself never decodes the wire. -/
def decodeWire (c : Cfg) (bs : List Byte) : Except DecodeError Instr :=
  match c.findPage bs c.pageCount 0 with
  | some p => .ok (.pagePreamble p)
  | none =>
    match bs with
    | [] => .error .noSuchCommand
    | b :: ps =>
      if b = cmdCaset then (rangeOfBytes ps).map fun r => .caset r.1 r.2
      else if b = c.cmdRaset then (rangeOfBytes ps).map fun r => .raset r.1 r.2
      else if b = c.cmdRamwr then if ps = [] then .ok .ramwr else .error .wrongParameterCount
      else if b = c.cmdDispon then if ps = [] then .ok .dispon else .error .wrongParameterCount
      else .error .noSuchCommand

/-- The decoder of every surface. -/
def decode (c : Cfg) (surface : Surface) (bs : List Byte) : Except DecodeError Instr :=
  match surface with
  | .request => (requestOfBytes bs).map decodeRequest
  | .wire => decodeWire c bs
  | .romEntry => (decodeEntry bs).map .tableEntry
  | .romImage => (decodeImage bs).map .tableImage

/-! ### The encoder -/

/-- The 11 bytes of a request (30_encoding.md R120). -/
def bytesOfRequest (r : Request) : List Byte :=
  [r.op, hiByte r.op0, loByte r.op0, hiByte r.op1, loByte r.op1, hiByte r.op2, loByte r.op2,
   hiByte r.op3, loByte r.op3, hiByte r.op4, loByte r.op4]

/-- The bytes of a ROM record (30_encoding.md R127). -/
def bytesOfEntry (e : CommandEntry) : List Byte :=
  e.cmd :: BitVec.ofNat 8 e.params.length ::
    (e.params ++ [hiByte e.delayMs, loByte e.delayMs, hiByte e.delayUs, loByte e.delayUs])

/-- The bytes of a table image (30_encoding.md R128). -/
def bytesOfImage (es : List CommandEntry) : List Byte :=
  hiByte (BitVec.ofNat 16 es.length) :: loByte (BitVec.ofNat 16 es.length) :: es.flatMap bytesOfEntry

/-- Two 16-bit values, each high byte first (30_encoding.md R131). -/
def bytesOfRange (a b : Half) : List Byte := [hiByte a, loByte a, hiByte b, loByte b]

/-- The request record of a request, its ignored slots zero (30_encoding.md R122, R142); `none` for the rows of the
other surfaces. -/
def Instr.request? : Instr → Option Request
  | .init => some ⟨0x01, 0, 0, 0, 0, 0⟩
  | .setWindow x0 y0 x1 y1 => some ⟨0x02, x0, y0, x1, y1, 0⟩
  | .writeWord color => some ⟨0x03, color, 0, 0, 0, 0⟩
  | .putPixel x y color => some ⟨0x04, x, y, color, 0, 0⟩
  | .fillRect x0 y0 x1 y1 color => some ⟨0x05, x0, y0, x1, y1, color⟩
  | .monoSetPixel x y v => some ⟨0x10, x, y, v.setWidth 16, 0, 0⟩
  | .monoGetPixel x y => some ⟨0x11, x, y, 0, 0, 0⟩
  | .monoClear => some ⟨0x12, 0, 0, 0, 0, 0⟩
  | .monoFlush => some ⟨0x13, 0, 0, 0, 0, 0⟩
  | .lockBuffer => some ⟨0x20, 0, 0, 0, 0, 0⟩
  | .unlockBuffer => some ⟨0x21, 0, 0, 0, 0, 0⟩
  | .reserved op => some ⟨op, 0, 0, 0, 0, 0⟩
  | .caset _ _ => none
  | .raset _ _ => none
  | .ramwr => none
  | .dispon => none
  | .pagePreamble _ => none
  | .tableEntry _ => none
  | .tableImage _ => none

/-- The bytes of an instruction on its surface. -/
def encode (c : Cfg) : Instr → List Byte
  | .init => bytesOfRequest ⟨0x01, 0, 0, 0, 0, 0⟩
  | .setWindow x0 y0 x1 y1 => bytesOfRequest ⟨0x02, x0, y0, x1, y1, 0⟩
  | .writeWord color => bytesOfRequest ⟨0x03, color, 0, 0, 0, 0⟩
  | .putPixel x y color => bytesOfRequest ⟨0x04, x, y, color, 0, 0⟩
  | .fillRect x0 y0 x1 y1 color => bytesOfRequest ⟨0x05, x0, y0, x1, y1, color⟩
  | .monoSetPixel x y v => bytesOfRequest ⟨0x10, x, y, v.setWidth 16, 0, 0⟩
  | .monoGetPixel x y => bytesOfRequest ⟨0x11, x, y, 0, 0, 0⟩
  | .monoClear => bytesOfRequest ⟨0x12, 0, 0, 0, 0, 0⟩
  | .monoFlush => bytesOfRequest ⟨0x13, 0, 0, 0, 0, 0⟩
  | .lockBuffer => bytesOfRequest ⟨0x20, 0, 0, 0, 0, 0⟩
  | .unlockBuffer => bytesOfRequest ⟨0x21, 0, 0, 0, 0, 0⟩
  | .reserved op => bytesOfRequest ⟨op, 0, 0, 0, 0, 0⟩
  | .caset x0 x1 => cmdCaset :: bytesOfRange x0 x1
  | .raset y0 y1 => c.cmdRaset :: bytesOfRange y0 y1
  | .ramwr => [c.cmdRamwr]
  | .dispon => [c.cmdDispon]
  | .pagePreamble p => c.preamble p
  | .tableEntry e => bytesOfEntry e
  | .tableImage es => bytesOfImage es

/-- A configuration whose wire words can be told apart: the four command bytes differ, and each page preamble is
non-empty, begins with none of them and is no other page's. The spec does not require it (log 9). -/
def Cfg.wireWordsDistinct (c : Cfg) : Bool :=
  decide ([cmdCaset, c.cmdRaset, c.cmdRamwr, c.cmdDispon].Nodup)
    && decide (((List.range c.pageCount).map c.preamble).Nodup)
    && (List.range c.pageCount).all fun p =>
        match c.preamble p with
        | [] => false
        | b :: _ => !([cmdCaset, c.cmdRaset, c.cmdRamwr, c.cmdDispon].contains b)

/-! ### The opcode table's numbering -/

/-- The first `n` bytes of a word numbered as the opcode table numbers it: byte k is bits 8k+7..8k. -/
def bytesOfWord (n w : Nat) : List Byte :=
  (List.range n).map fun k => BitVec.ofNat 8 (w >>> (8 * k))

/-- The surface of a table word. The table gives four WIRE_CMD rows a byte: CASET 0x2A and RASET 0x2B, with at most four
parameter bytes after it, RAMWR 0x2C and DISPON 0x29 (Color), with none; every other word is a request. DESIGN CHOICE (log
10): as the opcode of a request, each of the four bytes is reserved. -/
def surfaceOfWord (nbits w : Nat) : Surface :=
  if nbits ≤ 40 ∧ (w % 256 = 0x2A ∨ w % 256 = 0x2B) then .wire
  else if nbits ≤ 8 ∧ (w % 256 = 0x2C ∨ w % 256 = 0x29) then .wire
  else .request

/-- The bytes of a table word on its surface, the bits above `nbits` zero. -/
def bytesOfTableWord (nbits w : Nat) : List Byte :=
  match surfaceOfWord nbits w with
  | .wire => bytesOfWord (if w % 256 = 0x2A ∨ w % 256 = 0x2B then 5 else 1) (w % 2 ^ nbits)
  | _ => bytesOfWord 11 (w % 2 ^ nbits)

/-- The instruction the decoder reads from a table word. -/
def decodeTableWord (nbits w : Nat) : Option Instr :=
  match decode Cfg.referenceColor (surfaceOfWord nbits w) (bytesOfTableWord nbits w) with
  | .ok i => some i
  | .error _ => none

end Sys2Proof
end

