-- ==== Sys2Proof/Machine/State.lean ====
section
/-! DEFINITION. The state of a DCIS block (10_state.md R30 to R50, 20_memory.md R80), the reasons a step can stop, and
the block reset (10_state.md R50, 70_reset_and_hazards.md R700). Plain data throughout. -/

namespace Sys2Proof.Machine

/-- `S.state` (10_state.md R34); the encoding 3 is never held (93_implementation_defined.md U11), so it has no name. -/
inductive ControllerState
  | uninitialized
  | ready
  | busy
  deriving DecidableEq, Repr

/-- The completion codes (60_exceptions.md R600); code 7 is never produced (93_implementation_defined.md U12). -/
inductive Code
  | ok
  | transportError
  | initFailed
  | rangeError
  | busyError
  | notReady
  | illegalRequest
  deriving DecidableEq, Repr

/-- Which kind of byte a unit carries: the level of the data/command line, or the I2C control byte (20_memory.md R80). -/
inductive Kind
  | cmd
  | data
  deriving DecidableEq, Repr

/-- The wire events (20_memory.md R80). A level is `false` for 0. -/
inductive Event
  | rst (level : Bool)
  | delay (us : Long)
  | dc (kind : Kind)
  | csAssert
  | csDeassert
  | i2cStart
  | i2cStop
  | byte (b : Byte)
  | fail (b : Byte)
  deriving DecidableEq, Repr

/-- One primitive of a request's pseudocode (00_scope.md R22): `PinRst`, `Wait`, `CmdUnit`, `DataUnit`, and the two
writes of `S.seq_idx` (40_init_sequencer.md R200). A script is a list of these. -/
inductive Act
  | pinRst (level : Bool)
  | wait (us : Long)
  | cmdUnit (b : Byte)
  | dataUnit (bs : List Byte)
  | seqStart
  | seqNext
  deriving DecidableEq, Repr

/-- What the host can do while a request runs (10_state.md R47): issue a request, or read a register. -/
inductive Arrival
  | request (r : Request)
  | read (reg : Byte)
  deriving DecidableEq, Repr

/-- What the host can do between requests: issue a request, read a register (43_control.md R454), poll until the block
is not busy (30_encoding.md R144). `sequence` is the model's own (log 8): a single word of the wire or of the
ROM, or a request given as its bytes (30_encoding.md R120 has a model take the record). -/
inductive HostAct
  | request (r : Request)
  | read (reg : Byte)
  | waitIdle
  | sequence (surface : Surface) (bytes : List Byte)
  deriving DecidableEq, Repr

/-- What the host is told: a response (30_encoding.md R121) or the value of a register read (43_control.md R454). -/
inductive Reply
  | response (code : Code) (value : Byte)
  | value (v : Long)
  deriving DecidableEq, Repr

/-- The page buffer as (address, byte) pairs, addresses rising, no entry equal to what an unlisted address reads as. -/
abbrev Memory := List Host.Cell

/-- The state. Fields from `inbox` on are the environment's inputs and what the host is told; INVENTORY.md lists each
field with its rule and its reset value. -/
structure State where
  /-- the configuration, which no step writes (00_scope.md R11) -/
  cfg        : Cfg
  /-- `S.state` (10_state.md R34) -/
  ctl        : ControllerState
  /-- `S.lock` (10_state.md R36) -/
  lock       : Bool
  /-- `S.init_failed` (10_state.md R37) -/
  initFailed : Bool
  /-- `S.fail_step` (10_state.md R38) -/
  failStep   : Long
  /-- `S.last_result` (10_state.md R39) -/
  lastResult : Code
  /-- `S.rdata` (10_state.md R40) -/
  rdata      : BitVec 1
  /-- the window latch (10_state.md R41) -/
  wx0        : Half
  wy0        : Half
  wx1        : Half
  wy1        : Half
  /-- `S.armed` (10_state.md R42) -/
  armed      : Bool
  /-- the write cursor (10_state.md R43) -/
  curX       : Half
  curY       : Half
  /-- `S.remaining` (10_state.md R44) -/
  remaining  : Long
  /-- `S.seq_idx`, the analogue of a program counter (10_state.md R33) -/
  seqIdx     : Long
  /-- `S.buf` (10_state.md R45) -/
  buf        : Memory
  /-- the reset line (10_state.md R46) -/
  pinRst     : Bool
  /-- chip-select, `true` = asserted (10_state.md R46) -/
  pinCs      : Bool
  /-- data/command select, `false` = command (10_state.md R46) -/
  pinDc      : Bool
  /-- the request latch (10_state.md R32) -/
  latch      : Option Request
  /-- the context of the request in progress: the actions still to perform, the first of them under way (10_state.md R47) -/
  script     : List Act
  /-- the bytes of the unit under way that the bus has not answered yet (10_state.md R47) -/
  unitLeft   : List Byte
  /-- the wire trace, newest event first (20_memory.md R80) -/
  traceRev   : List Event
  /-- what the host was told, newest first -/
  repliesRev : List Reply
  /-- the host's actions to come -/
  inbox      : List HostAct
  /-- the host's actions in the coming gaps between the events of a request, one list for each gap -/
  arrivals   : List (List Arrival)
  /-- the bus answers to come (20_memory.md R88) -/
  answers    : List Answer
  /-- how many byte writes have taken place: the counter of the free bus answers (log 3) -/
  writes     : Nat
  deriving DecidableEq, Repr

/-- The trace in the order of its events (20_memory.md R80). -/
def State.trace (s : State) : List Event := s.traceRev.reverse

/-- What the host was told, in order. -/
def State.replies (s : State) : List Reply := s.repliesRev.reverse

/-- Why the machine stops with a fault. -/
inductive Fault
  /-- Raised by a PAGE_PREAMBLE word that names a page the block has not (page >= H/8, or a Color block): the page buffer
  is not there (20_memory.md R70, R74, R76; 10_state.md R45; the stop is the model's choice, log 16). No request raises it.
  Safe. -/
  | noSuchPage
  /-- Raised by a PAGE_PREAMBLE word on a block that is `Uninitialized`: its buffer may not be read then (10_state.md R51,
  40_init_sequencer.md R208; 93_implementation_defined.md U9, U22: "fault"). No request raises it. Safe. -/
  | bufferUnreadable
  deriving DecidableEq, Repr

/-- Why the machine refuses. -/
inductive Refusal
  /-- Raised by `exec` for an instruction without a meaning; no arm does. Safe. -/
  | notModelled (mnemonic : String)
  /-- Raised by `step` for a sequencer word that is no word of its surface (the model's own input, log 8). Safe. -/
  | undecodable (e : DecodeError)
  /-- Raised by `construct` for a configuration that breaks 00_scope.md R16 (R19). Safe: the spec has no such block. -/
  | invalidConfiguration
  /-- Raised by `constructFromImage` for a table image that is not well formed (30_encoding.md R128). Safe: the same. -/
  | malformedImage (e : DecodeError)
  deriving DecidableEq, Repr

/-- The values the spec leaves unspecified at block reset (10_state.md R50, R51). Statements about reset hold for all. -/
structure Unspecified where
  wx0    : Half
  wy0    : Half
  wx1    : Half
  wy1    : Half
  curX   : Half
  curY   : Half
  seqIdx : Long
  buf    : Memory
  pinRst : Bool
  pinCs  : Bool
  pinDc  : Bool
  deriving DecidableEq, Repr

/-- DESIGN CHOICE (log 2), unsafe: zero, and chip-select deasserted. -/
def Unspecified.zero : Unspecified where
  wx0 := 0
  wy0 := 0
  wx1 := 0
  wy1 := 0
  curX := 0
  curY := 0
  seqIdx := 0
  buf := []
  pinRst := false
  pinCs := false
  pinDc := false

/-- Block reset of an instance of configuration `c` (10_state.md R50, 70_reset_and_hazards.md R700): the values of R50, an
empty trace, no event. `u` gives the fields R50 leaves unspecified; a Color block has no buffer (10_state.md R45). -/
def State.blockReset (c : Cfg) (u : Unspecified) : State where
  cfg := c
  ctl := .uninitialized
  lock := false
  initFailed := false
  failStep := 0xFFFFFFFF
  lastResult := .ok
  rdata := 0
  wx0 := u.wx0
  wy0 := u.wy0
  wx1 := u.wx1
  wy1 := u.wy1
  armed := false
  curX := u.curX
  curY := u.curY
  remaining := 0
  seqIdx := u.seqIdx
  buf := match c.variant with
    | .color => []
    | .mono => u.buf
  pinRst := u.pinRst
  pinCs := u.pinCs
  pinDc := u.pinDc
  latch := none
  script := []
  unitLeft := []
  traceRev := []
  repliesRev := []
  inbox := []
  arrivals := []
  answers := []
  writes := 0

/-- The machine right after reset: the reference configuration CFG-C (log 1), the unspecified fields zero (log 2). -/
def State.reset : State := State.blockReset Cfg.referenceColor Unspecified.zero

end Sys2Proof.Machine
end

