-- ==== Sys2Proof/Machine/Memory.lean ====
section
/-! DEFINITION. The page buffer's bytes (20_memory.md R76), held sparse in one canonical form. -/

namespace Sys2Proof.Machine

/-- What an address with no entry reads as. DESIGN CHOICE (log 12): zero, which a successful INIT writes everywhere
(40_init_sequencer.md R207) and which no request can read before it. -/
def Memory.unlisted : Byte := 0

/-- `Buf[a]` (20_memory.md R76). -/
def Memory.read : Memory → Nat → Byte
  | [], _ => Memory.unlisted
  | (b, w) :: m, a => if a = b then w else Memory.read m a

/-- The entry of value `v` at `a` in front of `m`, left out where `v` is what an unlisted address reads as. -/
def Memory.entry (a : Nat) (v : Byte) (m : Memory) : Memory :=
  if v = Memory.unlisted then m else (a, v) :: m

/-- `Buf[a] <- v` (20_memory.md R76), keeping the canonical form. -/
def Memory.write : Memory → Nat → Byte → Memory
  | [], a, v => Memory.entry a v []
  | (b, w) :: m, a, v =>
    if a < b then Memory.entry a v ((b, w) :: m)
    else if a = b then Memory.entry a v m
    else (b, w) :: Memory.write m a v

/-- Every address of `m` lies above `a`. -/
def Memory.above (a : Nat) (m : Memory) : Bool := m.all fun c => decide (a < c.1)

/-- The canonical form: addresses strictly rising, no entry equal to what an unlisted address reads as. -/
def Memory.wf : Memory → Bool
  | [] => true
  | (a, v) :: m => decide (v ≠ Memory.unlisted) && Memory.above a m && Memory.wf m

/-- Every entry lies in a buffer of `n` bytes (20_memory.md R74). -/
def Memory.within (n : Nat) (m : Memory) : Bool := m.all fun c => decide (c.1 < n)

end Sys2Proof.Machine
end

