-- ==== Sys2Proof/Machine/Operands.lean ====
section
/-! DEFINITION. The operand computations of the requests: window validity and cell count (41_window_write.md R300, R308),
the buffer index and bit of a pixel (20_memory.md R75, R77; 30_encoding.md R141), entry delays (30_encoding.md R129), and
the bytes of words and pages on the wire (20_memory.md R87, 30_encoding.md R131, R135). -/

namespace Sys2Proof.Machine

/-- `valid(x0, y0, x1, y1)` (41_window_write.md R300). -/
def validWindow (c : Cfg) (x0 y0 x1 y1 : Half) : Bool :=
  decide (x0 ≤ x1) && decide (x1 < c.width) && decide (y0 ≤ y1) && decide (y1 < c.height)

/-- The point check of PUT_PIXEL and the MONO requests: `x < W` and `y < H` (41_window_write.md R304, 42_mono_buffer.md R400). -/
def validPoint (c : Cfg) (x y : Half) : Bool :=
  decide (x < c.width) && decide (y < c.height)

/-- `count(x0, y0, x1, y1)`, in u32 (41_window_write.md R308). -/
def cellCount (x0 y0 x1 y1 : Half) : Long :=
  (x1.setWidth 32 - x0.setWidth 32 + 1) * (y1.setWidth 32 - y0.setWidth 32 + 1)

/-- `N_BUF`, the size of the page buffer: `W * H / 8` bytes on Mono (20_memory.md R74), none on Color. -/
def bufferSize (c : Cfg) : Nat :=
  match c.variant with
  | .color => 0
  | .mono => c.width.toNat * c.height.toNat / 8

/-- The buffer index of a pixel: `(y / 8) * W + x` (20_memory.md R75). -/
def pixelIndex (c : Cfg) (x y : Half) : Nat := y.toNat / 8 * c.width.toNat + x.toNat

/-- The bit of a pixel within its byte: `y mod 8` (20_memory.md R77). -/
def pixelBit (y : Half) : Nat := y.toNat % 8

/-- A byte with bit `k` set to `v`: `(b AND NOT (1 << k)) OR (zext_8(v) << k)` (42_mono_buffer.md R401). -/
def setBit (b : Byte) (k : Nat) (v : BitVec 1) : Byte :=
  (b &&& ~~~((1 : Byte) <<< k)) ||| (v.setWidth 8 <<< k)

/-- Bit `k` of a byte, `b[k]` (00_scope.md R20). -/
def getBit (b : Byte) (k : Nat) : BitVec 1 := b.extractLsb' k 1

/-- `delay(e)` in u32 (30_encoding.md R129). -/
def entryDelay (e : CommandEntry) : Long := e.delayMs.setWidth 32 * 1000 + e.delayUs.setWidth 32

/-- `bytes(ws)`: each word high byte first (20_memory.md R87). -/
def bytesOfWords (ws : List Half) : List Byte := ws.flatMap fun w => [hiByte w, loByte w]

/-- The bytes `Buf[p*W] … Buf[p*W + W - 1]` of page `p` (30_encoding.md R135). -/
def pageBytes (c : Cfg) (m : Memory) (p : Nat) : List Byte :=
  (List.range c.width.toNat).map fun col => Memory.read m (p * c.width.toNat + col)

/-- The I2C address byte: the 7-bit address shifted left by 1, bit 0 = 0 for write (30_encoding.md R134). -/
def i2cAddressByte (c : Cfg) : Byte := c.i2cAddr.setWidth 8 <<< 1

end Sys2Proof.Machine
end

