-- ==== Sys2Proof/Machine/Flags.lean ====
section
/-! DEFINITION. The encodings of the status fields, the STATUS register and the register port (10_state.md R34, R48, R49;
60_exceptions.md R600). -/

namespace Sys2Proof.Machine

/-- `STATUS.STATE` (10_state.md R34). -/
def ControllerState.bits : ControllerState → Byte
  | .uninitialized => 0
  | .ready => 1
  | .busy => 2

/-- The completion codes' numbers (60_exceptions.md R600), as in the response's `code` (30_encoding.md R121). -/
def Code.bits : Code → Byte
  | .ok => 0
  | .transportError => 1
  | .initFailed => 2
  | .rangeError => 3
  | .busyError => 4
  | .notReady => 5
  | .illegalRequest => 6

/-- A flag at bit `k` of a byte. -/
def flagAt (k : Nat) (v : Bool) : Byte := (if v then 1 else 0) <<< k

/-- `LOCK`: reads 0 for Color (10_state.md R49). -/
def State.lockBit (s : State) : Bool := s.lock && s.cfg.variant == .mono

/-- `ARMED`: reads 0 for Mono (10_state.md R49). -/
def State.armedBit (s : State) : Bool := s.armed && s.cfg.variant == .color

/-- The STATUS register (10_state.md R49). -/
def State.status (s : State) : Byte :=
  s.ctl.bits ||| flagAt 2 s.lockBit ||| flagAt 3 s.armedBit ||| s.lastResult.bits <<< 4 ||| flagAt 7 s.initFailed

/-- `CFG_KIND` bits 2:1 (10_state.md R48). -/
def transportBits : Transport → Byte
  | .spiHw => 0
  | .spiSw => 1
  | .i2cHw => 2
  | .i2cSw => 3

/-- The CFG_KIND register (10_state.md R48). -/
def cfgKind (c : Cfg) : Byte :=
  flagAt 0 (c.variant == .mono) ||| transportBits c.transport <<< 1 ||| flagAt 3 c.hasResetPin

/-- The value of a register of the port, zero-extended to 32 bits (10_state.md R48): CURSOR reads 0 while unarmed
(90_conflicts.md C12), the reserved numbers 7..255 read 0. -/
def State.readReg (s : State) (reg : Byte) : Long :=
  match reg.toNat with
  | 0 => s.status.setWidth 32
  | 1 => s.failStep
  | 2 => s.remaining
  | 3 => if s.armed then s.curY ++ s.curX else 0
  | 4 => s.rdata.setWidth 32
  | 5 => s.cfg.height ++ s.cfg.width
  | 6 => (cfgKind s.cfg).setWidth 32
  | _ => 0

/-- The register names of 10_state.md R48, for the host syntax of 30_encoding.md R142. -/
inductive RegName
  | status
  | failStep
  | remaining
  | cursor
  | rdata
  | cfgSize
  | cfgKind
  deriving DecidableEq, Repr

/-- The register numbers (10_state.md R48). -/
def RegName.number : RegName → Byte
  | .status => 0
  | .failStep => 1
  | .remaining => 2
  | .cursor => 3
  | .rdata => 4
  | .cfgSize => 5
  | .cfgKind => 6

end Sys2Proof.Machine
end

