-- ==== Sys2Proof/Machine/Ops.lean ====
section
/-! DEFINITION. The shared operations: what the host is told, host actions inside a running request (10_state.md R47,
43_control.md R451), the wire primitives (00_scope.md R22, 20_memory.md R80 to R91), acceptance (60_exceptions.md R611),
completion (00_scope.md R23), and the abort (60_exceptions.md R612) with the failure handlers. -/

namespace Sys2Proof.Machine

/-! ### Replies and host actions inside a request -/

/-- The host is told something. -/
def State.reply (r : Reply) (s : State) : State := { s with repliesRev := r :: s.repliesRev }

/-- `reject(BusyError)`: the code goes to the requester only; nothing else changes (43_control.md R450, R451). -/
def State.rejectBusy (s : State) : State := s.reply (.response .busyError 0)

/-- One host action inside a running request: a request is rejected while the block is busy (43_control.md R451), a read
returns the register's value as it stands (20_memory.md R102 c, 43_control.md R454). A request that arrives while a
sequencer word runs on a block that is not busy waits for its turn (log 8). -/
def State.arrive (s : State) : Arrival → State
  | .request r => if s.ctl = .busy then s.rejectBusy else { s with inbox := s.inbox ++ [.request r] }
  | .read reg => s.reply (.value (s.readReg reg))

/-- One gap between two events: the host actions of the next gap take place (10_state.md R47; where the gaps lie, log 4). -/
def State.gap (s : State) : State :=
  match s.arrivals with
  | [] => s
  | acts :: later => acts.foldl State.arrive { s with arrivals := later }

/-! ### Wire events -/

/-- The pin an event drives (20_memory.md R82, R85, R89, R90). -/
def State.drive (e : Event) (s : State) : State :=
  match e with
  | .rst level => { s with pinRst := level }
  | .dc kind => { s with pinDc := kind == .data }
  | .csAssert => { s with pinCs := true }
  | .csDeassert => { s with pinCs := false }
  | .delay _ => s
  | .i2cStart => s
  | .i2cStop => s
  | .byte _ => s
  | .fail _ => s

/-- Append an event to the trace (20_memory.md R80), after the host actions of the gap before it. -/
def State.emit (e : Event) (s : State) : State :=
  let s := s.gap
  ({ s with traceRev := e :: s.traceRev }).drive e

/-- The bus oracle as the state sees it: the answer to the k-th byte write from now on, counted from 0. -/
def State.answerAt (s : State) (k : Nat) : Answer :=
  match s.answers[k]? with
  | some a => a
  | none => Config.busAnswer (s.writes + k)

/-- One answer is taken from the bus oracle. -/
def State.takeAnswer (s : State) : State := { s with answers := s.answers.tail, writes := s.writes + 1 }

/-- `bw(b)`, the byte write (20_memory.md R88). -/
def byteWrite (b : Byte) (s : State) : State × Answer :=
  match s.answerAt 0 with
  | .ok => ((s.takeAnswer).emit (.byte b), .ok)
  | .fail => ((s.takeAnswer).emit (.fail b), .fail)

/-- The bytes of a unit, in order, stopping at the first failure (20_memory.md R86). -/
def sendBytes : List Byte → State → State × Answer
  | [], s => ({ s with unitLeft := [] }, .ok)
  | b :: bs, s =>
    match byteWrite b { s with unitLeft := b :: bs } with
    | (s, .ok) => sendBytes bs s
    | (s, .fail) => (s, .fail)

/-- The events that open a unit (20_memory.md R85, R86). -/
def openUnit (k : Kind) (s : State) : State :=
  if s.cfg.transport.isSpi then (s.emit (.dc k)).emit .csAssert else s.emit .i2cStart

/-- The event that closes a unit, after a failure too (20_memory.md R85, R86, R89). -/
def closeUnit (s : State) : State :=
  if s.cfg.transport.isSpi then s.emit .csDeassert else s.emit .i2cStop

/-- The I2C control byte of a unit (20_memory.md R91). -/
def controlByte (c : Cfg) : Kind → Byte
  | .cmd => c.ctrlCmd
  | .data => c.ctrlData

/-- The byte writes of a unit: its payload, after the control byte on I2C (20_memory.md R85, R86). -/
def unitBytes (c : Cfg) (k : Kind) (payload : List Byte) : List Byte :=
  if c.transport.isSpi then payload else controlByte c k :: payload

/-- One unit, framed: `CmdUnit` and `DataUnit` (20_memory.md R85, R86). -/
def sendUnit (k : Kind) (payload : List Byte) (s : State) : State × Answer :=
  match sendBytes (unitBytes s.cfg k payload) (openUnit k s) with
  | (s, a) => (closeUnit s, a)

/-- `Wait(n)`: an event for n >= 1 (20_memory.md R83), nothing for 0 (R84). -/
def waitFor (n : Long) (s : State) : State := if n = 0 then s else s.emit (.delay n)

/-- One primitive of a script. -/
def doAct : Act → State → State × Answer
  | .pinRst level, s => (s.emit (.rst level), .ok)
  | .wait n, s => (waitFor n s, .ok)
  | .cmdUnit b, s => sendUnit .cmd [b] s
  | .dataUnit bs, s => sendUnit .data bs s
  | .seqStart, s => ({ s with seqIdx := 0 }, .ok)
  | .seqNext, s => ({ s with seqIdx := s.seqIdx + 1 }, .ok)

/-- A script, in order, stopping at the first unit that fails (00_scope.md R22 "try"). What is left of it is the context
of 10_state.md R47. -/
def perform : List Act → State → State × Answer
  | [], s => ({ s with script := [] }, .ok)
  | a :: as, s =>
    match doAct a { s with script := a :: as } with
    | (s, .ok) => perform as s
    | (s, .fail) => (s, .fail)

/-! ### Scripts shared by the requests -/

/-- `EmitWindow`'s units (41_window_write.md R301, 30_encoding.md R131): column set, row set, memory write. -/
def casetScript (x0 x1 : Half) : List Act := [.cmdUnit cmdCaset, .dataUnit (bytesOfRange x0 x1)]

/-- The row address set of 30_encoding.md R131. -/
def rasetScript (c : Cfg) (y0 y1 : Half) : List Act := [.cmdUnit c.cmdRaset, .dataUnit (bytesOfRange y0 y1)]

/-- The memory write of 30_encoding.md R131, R132. -/
def ramwrScript (c : Cfg) : List Act := [.cmdUnit c.cmdRamwr]

/-- The window command group (30_encoding.md R131). -/
def windowScript (c : Cfg) (x0 y0 x1 y1 : Half) : List Act :=
  casetScript x0 x1 ++ rasetScript c y0 y1 ++ ramwrScript c

/-- `WordsUnit(ws)` (20_memory.md R87). -/
def wordsScript (ws : List Half) : List Act := [.dataUnit (bytesOfWords ws)]

/-- The transmission of a table entry and its delay (40_init_sequencer.md R204, R205). -/
def entryUnits (e : CommandEntry) : List Act :=
  .cmdUnit e.cmd :: ((if e.params = [] then [] else [.dataUnit e.params]) ++ [.wait (entryDelay e)])

/-- An entry in the table phase: `seq_idx` moves on after its delay (40_init_sequencer.md R200, 10_state.md R33). -/
def entryScript (e : CommandEntry) : List Act := entryUnits e ++ [.seqNext]

/-- The table phase (40_init_sequencer.md R200, R203). -/
def tableScript (es : List CommandEntry) : List Act := .seqStart :: es.flatMap entryScript

/-- The reset phase (40_init_sequencer.md R202). -/
def resetScript (c : Cfg) : List Act :=
  if c.hasResetPin then [.pinRst false, .wait c.tRstLowUs, .pinRst true, .wait c.tRstHighUs] else []

/-- The display-on phase (40_init_sequencer.md R206). -/
def disponScript (c : Cfg) : List Act := [.cmdUnit c.cmdDispon, .wait c.disponDelayUs]

/-- A monochrome page on the wire (30_encoding.md R135). -/
def pageScript (c : Cfg) (m : Memory) (p : Nat) : List Act :=
  (c.preamble p).map .cmdUnit ++ [.dataUnit (pageBytes c m p)]

/-! ### Acceptance -/

/-- The variants in which a request's opcode is legal (30_encoding.md R122 to R124). -/
def legalIn (i : Instr) (v : Variant) : Bool :=
  match i with
  | .init => true
  | .setWindow _ _ _ _ => v == .color
  | .writeWord _ => v == .color
  | .putPixel _ _ _ => v == .color
  | .fillRect _ _ _ _ _ => v == .color
  | .monoSetPixel _ _ _ => v == .mono
  | .monoGetPixel _ _ => v == .mono
  | .monoClear => v == .mono
  | .monoFlush => v == .mono
  | .lockBuffer => v == .mono
  | .unlockBuffer => v == .mono
  | .reserved _ => false
  | .caset _ _ => false
  | .raset _ _ => false
  | .ramwr => false
  | .dispon => false
  | .pagePreamble _ => false
  | .tableEntry _ => false
  | .tableImage _ => false

/-- The requests that are accepted while `Uninitialized`: INIT, LOCK_BUFFER, UNLOCK_BUFFER (60_exceptions.md R606). -/
def acceptedUninitialized (i : Instr) : Bool :=
  match i with
  | .init => true
  | .lockBuffer => true
  | .unlockBuffer => true
  | .setWindow _ _ _ _ => false
  | .writeWord _ => false
  | .putPixel _ _ _ => false
  | .fillRect _ _ _ _ _ => false
  | .monoSetPixel _ _ _ => false
  | .monoGetPixel _ _ => false
  | .monoClear => false
  | .monoFlush => false
  | .reserved _ => false
  | .caset _ _ => false
  | .raset _ _ => false
  | .ramwr => false
  | .dispon => false
  | .pagePreamble _ => false
  | .tableEntry _ => false
  | .tableImage _ => false

/-- The range check of a request's operands (60_exceptions.md R603, R611 step 5). -/
def inRange (i : Instr) (c : Cfg) : Bool :=
  match i with
  | .setWindow x0 y0 x1 y1 => validWindow c x0 y0 x1 y1
  | .fillRect x0 y0 x1 y1 _ => validWindow c x0 y0 x1 y1
  | .putPixel x y _ => validPoint c x y
  | .monoSetPixel x y _ => validPoint c x y
  | .monoGetPixel x y => validPoint c x y
  | .init => true
  | .writeWord _ => true
  | .monoClear => true
  | .monoFlush => true
  | .lockBuffer => true
  | .unlockBuffer => true
  | .reserved _ => true
  | .caset _ _ => true
  | .raset _ _ => true
  | .ramwr => true
  | .dispon => true
  | .pagePreamble _ => true
  | .tableEntry _ => true
  | .tableImage _ => true

/-- Whether a request streams into the armed window (60_exceptions.md R611 step 4). -/
def needsArmed (i : Instr) : Bool :=
  match i with
  | .writeWord _ => true
  | .init => false
  | .setWindow _ _ _ _ => false
  | .putPixel _ _ _ => false
  | .fillRect _ _ _ _ _ => false
  | .monoSetPixel _ _ _ => false
  | .monoGetPixel _ _ => false
  | .monoClear => false
  | .monoFlush => false
  | .lockBuffer => false
  | .unlockBuffer => false
  | .reserved _ => false
  | .caset _ _ => false
  | .raset _ _ => false
  | .ramwr => false
  | .dispon => false
  | .pagePreamble _ => false
  | .tableEntry _ => false
  | .tableImage _ => false

/-- Whether a request needs the buffer unlocked (60_exceptions.md R611 step 6). -/
def needsUnlocked (i : Instr) : Bool :=
  match i with
  | .monoFlush => true
  | .init => false
  | .setWindow _ _ _ _ => false
  | .writeWord _ => false
  | .putPixel _ _ _ => false
  | .fillRect _ _ _ _ _ => false
  | .monoSetPixel _ _ _ => false
  | .monoGetPixel _ _ => false
  | .monoClear => false
  | .lockBuffer => false
  | .unlockBuffer => false
  | .reserved _ => false
  | .caset _ _ => false
  | .raset _ _ => false
  | .ramwr => false
  | .dispon => false
  | .pagePreamble _ => false
  | .tableEntry _ => false
  | .tableImage _ => false

/-- What acceptance decides (43_control.md R450). -/
inductive Verdict
  | reject
  | refuse (code : Code)
  | accept
  deriving DecidableEq, Repr

/-- The checks of 60_exceptions.md R611, first to last; the first that fails decides. -/
def acceptance (i : Instr) (s : State) : Verdict :=
  if s.ctl = .busy then .reject
  else if legalIn i s.cfg.variant = false then .refuse .illegalRequest
  else if s.ctl = .uninitialized ∧ acceptedUninitialized i = false then .refuse .notReady
  else if needsArmed i = true ∧ s.armed = false then .refuse .notReady
  else if inRange i s.cfg = false then .refuse .rangeError
  else if needsUnlocked i = true ∧ s.lock = true then .refuse .busyError
  else .accept

/-! ### Completion and abort -/

/-- `complete(code, v)` (00_scope.md R23): `last_result` is written and the response goes to the host (30_encoding.md R121). -/
def State.complete (code : Code) (value : Byte) (s : State) : State :=
  ({ s with lastResult := code }).reply (.response code value)

/-- A request passes acceptance before it is performed (43_control.md R450). -/
def request (i : Instr) (body : State → State) (s : State) : State :=
  match acceptance i s with
  | .reject => s.rejectBusy
  | .refuse code => s.complete code 0
  | .accept => body s

/-- `S.state <- Busy`: exclusive access is taken (43_control.md R455). -/
def State.enterBusy (s : State) : State := { s with ctl := .busy }

/-- `S.armed <- 0; S.remaining <- 0`. -/
def State.disarm (s : State) : State := { s with armed := false, remaining := 0 }

/-- The window latch is written (41_window_write.md R301). -/
def State.latchWindow (x0 y0 x1 y1 : Half) (s : State) : State :=
  { s with wx0 := x0, wy0 := y0, wx1 := x1, wy1 := y1 }

/-- Exclusive access is released and the request completes (43_control.md R455), after the host actions of the last gap.
The context of 10_state.md R47 ends with it. -/
def State.release (next : ControllerState) (code : Code) (s : State) : State :=
  let s := s.gap
  ({ s with ctl := next, script := [], unitLeft := [] }).complete code 0

/-- The failure handlers (60_exceptions.md R612). -/
inductive Handler
  | initFail
  | winFail
  | flushFail
  deriving DecidableEq, Repr

/-- Taking an abort (60_exceptions.md R612): the handler writes its state and completes. INIT_FAIL is 40_init_sequencer.md
R208, WIN_FAIL 41_window_write.md R306, FLUSH_FAIL 42_mono_buffer.md R404. There is no return from it (60_exceptions.md
R613): the handler ends the request. -/
def abort (h : Handler) (s : State) : State :=
  match h with
  | .initFail => ({ s with failStep := s.seqIdx, initFailed := true }).release .uninitialized .initFailed
  | .winFail => (s.disarm).release .ready .transportError
  | .flushFail => s.release .ready .transportError

/-- Perform a script; go on with `done` if every unit succeeds, take the abort `h` otherwise. -/
def tryScript (script : List Act) (h : Handler) (done : State → State) (s : State) : State :=
  match perform script s with
  | (s, .ok) => done s
  | (s, .fail) => abort h s

/-- No context of 10_state.md R47 is left. -/
def State.dropContext (s : State) : State := { s with script := [], unitLeft := [] }

/-- A script by itself, outside any request (log 8): a failed unit ends it and no handler runs, but the transport failure
disarms the window, as any does (10_state.md R42). -/
def performAlone (script : List Act) (s : State) : State :=
  match perform script s with
  | (s, .ok) => s.dropContext
  | (s, .fail) => s.disarm.dropContext

/-- `Advance()` (41_window_write.md R307). -/
def State.advance (s : State) : State :=
  let s := if s.curX = s.wx1 then { s with curX := s.wx0, curY := s.curY + 1 } else { s with curX := s.curX + 1 }
  let s := { s with remaining := s.remaining - 1 }
  if s.remaining = 0 then { s with armed := false } else s

end Sys2Proof.Machine
end

