-- ==== Sys2Proof/Machine/Control.lean ====
section
/-! DEFINITION. LOCK_BUFFER, UNLOCK_BUFFER (43_control.md R452, R453) and the reserved opcodes (30_encoding.md R123). -/

namespace Sys2Proof.Machine

/-- LOCK_BUFFER (43_control.md R452): a plain write, not a test-and-set. -/
def execLockBuffer (s : State) : Host.Outcome State Fault Refusal :=
  .next (request .lockBuffer (fun s => ({ s with lock := true }).complete .ok 0) s)

/-- UNLOCK_BUFFER (43_control.md R453). -/
def execUnlockBuffer (s : State) : Host.Outcome State Fault Refusal :=
  .next (request .unlockBuffer (fun s => ({ s with lock := false }).complete .ok 0) s)

/-- A reserved opcode (30_encoding.md R123, 60_exceptions.md R605): acceptance refuses it with `IllegalRequest`, or rejects
it while busy (43_control.md R451); there is nothing to perform. -/
def execReserved (op : Byte) (s : State) : Host.Outcome State Fault Refusal :=
  .next (request (.reserved op) id s)

end Sys2Proof.Machine
end

