-- ==== Sys2Proof/Machine/Init.lean ====
section
/-! DEFINITION. INIT (40_init_sequencer.md R200 to R215). -/

namespace Sys2Proof.Machine

/-- INIT's actions: the reset, table and display-on phases (40_init_sequencer.md R200). -/
def initScript (c : Cfg) : List Act := resetScript c ++ tableScript c.initTable ++ disponScript c

/-- Success (40_init_sequencer.md R207): the buffer is zeroed on Mono; a Color block has none. -/
def initDone (s : State) : State :=
  ({ s with
      buf := (match s.cfg.variant with
        | .color => s.buf
        | .mono => [])
      initFailed := false
      failStep := 0xFFFFFFFF }).release .ready .ok

/-- INIT after acceptance (40_init_sequencer.md R200, R201). -/
def initBody (s : State) : State :=
  tryScript (initScript s.cfg) .initFail initDone (s.enterBusy.disarm)

/-- INIT (40_init_sequencer.md R200). -/
def execInit (s : State) : Host.Outcome State Fault Refusal := .next (request .init initBody s)

end Sys2Proof.Machine
end

