-- ==== Sys2Proof/Machine/Mono.lean ====
section
/-! DEFINITION. The monochrome buffer requests: MONO_SET_PIXEL, MONO_GET_PIXEL, MONO_CLEAR, MONO_FLUSH
(42_mono_buffer.md). -/

namespace Sys2Proof.Machine

/-- MONO_SET_PIXEL after acceptance (42_mono_buffer.md R401). -/
def monoSetPixelBody (x y : Half) (v : BitVec 1) (s : State) : State :=
  let i := pixelIndex s.cfg x y
  ({ s with buf := Memory.write s.buf i (setBit (Memory.read s.buf i) (pixelBit y) v) }).complete .ok 0

/-- MONO_SET_PIXEL (42_mono_buffer.md R401). -/
def execMonoSetPixel (x y : Half) (v : BitVec 1) (s : State) : Host.Outcome State Fault Refusal :=
  .next (request (.monoSetPixel x y v) (monoSetPixelBody x y v) s)

/-- The pixel `(x, y)` of the buffer (42_mono_buffer.md R402). -/
def State.pixel (s : State) (x y : Half) : BitVec 1 :=
  getBit (Memory.read s.buf (pixelIndex s.cfg x y)) (pixelBit y)

/-- MONO_GET_PIXEL after acceptance (42_mono_buffer.md R402): the response's value is `zext_8(S.rdata)` (30_encoding.md R121). -/
def monoGetPixelBody (x y : Half) (s : State) : State :=
  ({ s with rdata := s.pixel x y }).complete .ok ((s.pixel x y).setWidth 8)

/-- MONO_GET_PIXEL (42_mono_buffer.md R402). -/
def execMonoGetPixel (x y : Half) (s : State) : Host.Outcome State Fault Refusal :=
  .next (request (.monoGetPixel x y) (monoGetPixelBody x y) s)

/-- MONO_CLEAR after acceptance (42_mono_buffer.md R403): every byte 0, which is the empty canonical memory. -/
def monoClearBody (s : State) : State := ({ s with buf := [] }).complete .ok 0

/-- MONO_CLEAR (42_mono_buffer.md R403). -/
def execMonoClear (s : State) : Host.Outcome State Fault Refusal := .next (request .monoClear monoClearBody s)

/-- The pages of the buffer in increasing order (42_mono_buffer.md R404). -/
def flushScript (c : Cfg) (m : Memory) : List Act := (List.range c.pageCount).flatMap (pageScript c m)

/-- MONO_FLUSH after acceptance (42_mono_buffer.md R404). -/
def monoFlushBody (s : State) : State :=
  tryScript (flushScript s.cfg s.buf) .flushFail (fun s => s.release .ready .ok) s.enterBusy

/-- MONO_FLUSH (42_mono_buffer.md R404). -/
def execMonoFlush (s : State) : Host.Outcome State Fault Refusal := .next (request .monoFlush monoFlushBody s)

end Sys2Proof.Machine
end

