-- ==== Sys2Proof/Machine/Rom.lean ====
section
/-! DEFINITION. The ROM records (the ROM_RECORD rows): an entry is transmitted as the table phase transmits it
(40_init_sequencer.md R204, R205), an image as a whole table phase does (R203). Construction of a block from a configuration
and from a table image (00_scope.md R19, 30_encoding.md R128, 70_reset_and_hazards.md R700). -/

namespace Sys2Proof.Machine

/-- TABLE_ENTRY: command unit, parameter unit if any, delay (40_init_sequencer.md R204, R205). `seq_idx` is written only by
INIT (10_state.md R33). -/
def execTableEntry (e : CommandEntry) (s : State) : Host.Outcome State Fault Refusal :=
  .next (performAlone (entryUnits e) s)

/-- TABLE_IMAGE: every entry in order, as the table phase sends them (40_init_sequencer.md R203). -/
def execTableImage (es : List CommandEntry) (s : State) : Host.Outcome State Fault Refusal :=
  .next (performAlone (es.flatMap entryUnits) s)

/-- Construction of a block: an invalid configuration is refused (00_scope.md R19), a valid one is reset (R700). -/
def construct (raw : RawCfg) (u : Unspecified) : Host.Outcome State Fault Refusal :=
  if h : raw.check = true then .next (State.blockReset ⟨raw, h⟩ u) else .refused .invalidConfiguration

/-- Construction of a block whose table is a ROM image; a malformed image is refused (30_encoding.md R128). -/
def constructFromImage (raw : RawCfg) (image : List Byte) (u : Unspecified) : Host.Outcome State Fault Refusal :=
  match decodeImage image with
  | .ok es => construct { raw with initTable := es } u
  | .error e => .refused (.malformedImage e)

end Sys2Proof.Machine
end

