-- ==== Sys2Proof/Machine/Window.lean ====
section
/-! DEFINITION. The window and colour pixel requests: SET_WINDOW, WRITE_WORD, PUT_PIXEL, FILL_RECT (41_window_write.md). -/

namespace Sys2Proof.Machine

/-- The window is programmed and not yet armed: `Busy`, disarmed, the latch written as soon as the window commands are
issued (41_window_write.md R301, R302; 10_state.md R41). -/
def State.openWindow (x0 y0 x1 y1 : Half) (s : State) : State :=
  s.enterBusy.disarm.latchWindow x0 y0 x1 y1

/-- The end of a successful SET_WINDOW: cursor, cell count and `armed` (41_window_write.md R302). -/
def armWindow (x0 y0 x1 y1 : Half) (s : State) : State :=
  ({ s with curX := x0, curY := y0, remaining := cellCount x0 y0 x1 y1, armed := true }).release .ready .ok

/-- SET_WINDOW after acceptance (41_window_write.md R302). -/
def setWindowBody (x0 y0 x1 y1 : Half) (s : State) : State :=
  tryScript (windowScript s.cfg x0 y0 x1 y1) .winFail (armWindow x0 y0 x1 y1) (s.openWindow x0 y0 x1 y1)

/-- SET_WINDOW (41_window_write.md R302). -/
def execSetWindow (x0 y0 x1 y1 : Half) (s : State) : Host.Outcome State Fault Refusal :=
  .next (request (.setWindow x0 y0 x1 y1) (setWindowBody x0 y0 x1 y1) s)

/-- WRITE_WORD after acceptance (41_window_write.md R303). -/
def writeWordBody (color : Half) (s : State) : State :=
  tryScript (wordsScript [color]) .winFail (fun s => s.advance.release .ready .ok) s.enterBusy

/-- WRITE_WORD (41_window_write.md R303). -/
def execWriteWord (color : Half) (s : State) : Host.Outcome State Fault Refusal :=
  .next (request (.writeWord color) (writeWordBody color) s)

/-- PUT_PIXEL after acceptance (41_window_write.md R304): the window sent is `(x, y, x+1, y+1)` (90_conflicts.md C1). -/
def putPixelBody (x y color : Half) (s : State) : State :=
  tryScript (windowScript s.cfg x y (x + 1) (y + 1) ++ wordsScript [color]) .winFail
    (fun s => s.release .ready .ok) (s.openWindow x y (x + 1) (y + 1))

/-- PUT_PIXEL (41_window_write.md R304). -/
def execPutPixel (x y color : Half) (s : State) : Host.Outcome State Fault Refusal :=
  .next (request (.putPixel x y color) (putPixelBody x y color) s)

/-- FILL_RECT after acceptance (41_window_write.md R305): one window group, then one unit of all the words. -/
def fillRectBody (x0 y0 x1 y1 color : Half) (s : State) : State :=
  tryScript
    (windowScript s.cfg x0 y0 x1 y1 ++ wordsScript (List.replicate (cellCount x0 y0 x1 y1).toNat color)) .winFail
    (fun s => s.release .ready .ok) (s.openWindow x0 y0 x1 y1)

/-- FILL_RECT (41_window_write.md R305). -/
def execFillRect (x0 y0 x1 y1 color : Half) (s : State) : Host.Outcome State Fault Refusal :=
  .next (request (.fillRect x0 y0 x1 y1 color) (fillRectBody x0 y0 x1 y1 color) s)

end Sys2Proof.Machine
end

