-- ==== Sys2Proof/Machine/Wire.lean ====
section
/-! DEFINITION. The wire commands by themselves (the WIRE_CMD rows): the units the requests are made of
(30_encoding.md R131, R132, R135; 40_init_sequencer.md R206). That one runs alone is the model's own (log 8). -/

namespace Sys2Proof.Machine

/-- CASET: column address set with its four parameter bytes (30_encoding.md R131). -/
def execCaset (x0 x1 : Half) (s : State) : Host.Outcome State Fault Refusal :=
  .next (performAlone (casetScript x0 x1) s)

/-- RASET: row address set with its four parameter bytes (30_encoding.md R131). -/
def execRaset (y0 y1 : Half) (s : State) : Host.Outcome State Fault Refusal :=
  .next (performAlone (rasetScript s.cfg y0 y1) s)

/-- RAMWR: memory write, no parameter bytes of its own (30_encoding.md R132). -/
def execRamwr (s : State) : Host.Outcome State Fault Refusal :=
  .next (performAlone (ramwrScript s.cfg) s)

/-- DISPON: display on, then its delay (40_init_sequencer.md R206). -/
def execDispon (s : State) : Host.Outcome State Fault Refusal :=
  .next (performAlone (disponScript s.cfg) s)

/-- PAGE_PREAMBLE: the preamble of a page and the data unit that follows it (30_encoding.md R135). A page that is not
there is an access outside the page buffer (20_memory.md R76; log 16), and the buffer of an `Uninitialized` block cannot be
read (40_init_sequencer.md R208, 10_state.md R51). -/
def execPagePreamble (p : Nat) (s : State) : Host.Outcome State Fault Refusal :=
  if s.cfg.pageCount ≤ p then .fault .noSuchPage
  else if s.ctl = .uninitialized then .fault .bufferUnreadable
  else .next (performAlone (pageScript s.cfg s.buf p) s)

end Sys2Proof.Machine
end

