-- ==== Sys2Proof/Machine/Dispatch.lean ====
section
/-! DEFINITION. One arm for each instruction of spec/opcode_table.json. -/

namespace Sys2Proof.Machine

def exec (i : Instr) (s : State) : Host.Outcome State Fault Refusal :=
  match i with
  | .init => Sys2Proof.Machine.execInit s
  | .setWindow x0 y0 x1 y1 => Sys2Proof.Machine.execSetWindow x0 y0 x1 y1 s
  | .writeWord color => Sys2Proof.Machine.execWriteWord color s
  | .putPixel x y color => Sys2Proof.Machine.execPutPixel x y color s
  | .fillRect x0 y0 x1 y1 color => Sys2Proof.Machine.execFillRect x0 y0 x1 y1 color s
  | .monoSetPixel x y v => Sys2Proof.Machine.execMonoSetPixel x y v s
  | .monoGetPixel x y => Sys2Proof.Machine.execMonoGetPixel x y s
  | .monoClear => Sys2Proof.Machine.execMonoClear s
  | .monoFlush => Sys2Proof.Machine.execMonoFlush s
  | .lockBuffer => Sys2Proof.Machine.execLockBuffer s
  | .unlockBuffer => Sys2Proof.Machine.execUnlockBuffer s
  | .reserved op => Sys2Proof.Machine.execReserved op s
  | .caset x0 x1 => Sys2Proof.Machine.execCaset x0 x1 s
  | .raset y0 y1 => Sys2Proof.Machine.execRaset y0 y1 s
  | .ramwr => Sys2Proof.Machine.execRamwr s
  | .dispon => Sys2Proof.Machine.execDispon s
  | .pagePreamble page => Sys2Proof.Machine.execPagePreamble page s
  | .tableEntry e => Sys2Proof.Machine.execTableEntry e s
  | .tableImage es => Sys2Proof.Machine.execTableImage es s

end Sys2Proof.Machine
end

