-- ==== Sys2Proof/Machine/Fetch.lean ====
section
/-! DEFINITION. How a step takes the host's next action (10_state.md R30, R32; 43_control.md R454; 30_encoding.md R144). -/

namespace Sys2Proof.Machine

/-- The host's next action has been taken; `later` are the ones after it. -/
def State.took (later : List HostAct) (s : State) : State := { s with inbox := later }

/-- The host writes the request latch (10_state.md R32). The latch of a running request is not disturbed (43_control.md R451). -/
def State.issue (r : Request) (s : State) : State :=
  if s.ctl = .busy then s else { s with latch := some r }

/-- A word given as bytes. A request's 11 bytes write the latch as its record does: that the model takes a request's bytes too is
its own choice (log 8), where 30_encoding.md R120 says that a model takes the record. -/
def State.issueBytes (surface : Surface) (bytes : List Byte) (s : State) : State :=
  match surface, requestOfBytes bytes with
  | .request, .ok r => s.issue r
  | .request, .error _ => s
  | .wire, _ => s
  | .romEntry, _ => s
  | .romImage, _ => s

/-- READ: the register's value goes to the host; nothing else changes (43_control.md R454). -/
def State.hostRead (reg : Byte) (s : State) : State := s.reply (.value (s.readReg reg))

/-- WAIT_IDLE (30_encoding.md R144): STATUS is read, and read again while its STATE field is 2. -/
def State.hostPoll (later : List HostAct) (s : State) : State :=
  if (s.readReg 0).extractLsb' 0 2 = 2 then s.hostRead 0 else (s.hostRead 0).took later

/-- The host action that carries a word of the opcode table: a request of 11 bytes, or a sequencer word. -/
def tableAct (nbits w : Nat) : HostAct :=
  match surfaceOfWord nbits w, requestOfBytes (bytesOfTableWord nbits w) with
  | .request, .ok r => .request r
  | surface, _ => .sequence surface (bytesOfTableWord nbits w)

end Sys2Proof.Machine
end

