-- ==== Sys2Proof/Machine/Step.lean ====
section
/-! DEFINITION. One step: the host's next action, with the whole effect of the request it issues (10_state.md R47 lets a
request be one transition; host actions inside it are `State.gap`). -/

namespace Sys2Proof.Machine

/-- One step. With no host action waiting the block idles (60_exceptions.md R620, 70_reset_and_hazards.md
R701). A word given as bytes, a request's 11 bytes among them, is the model's own way in (log 8). -/
def step (s : State) : Host.Outcome State Fault Refusal :=
  match s.inbox with
  | [] => .next s
  | .request r :: later => exec (decodeRequest r) ((s.took later).issue r)
  | .read reg :: later => .next ((s.took later).hostRead reg)
  | .waitIdle :: later => .next (s.hostPoll later)
  | .sequence surface bytes :: later =>
    match decode s.cfg surface bytes with
    | .ok i => exec i ((s.took later).issueBytes surface bytes)
    | .error e => .refused (.undecodable e)

/-- The word stands where the next step takes its instruction: at the head of the host's actions (log 6). -/
def State.withFetchWord (s : State) (nbits w : Nat) : State :=
  { s with inbox := tableAct nbits w :: s.inbox }

end Sys2Proof.Machine
end

