-- ==== Sys2Proof/Machine/Assembler.lean ====
section
/-! DEFINITION. The spec's two text syntaxes and its pseudo-instructions (30_encoding.md R142, R143, R144), on lists of
characters. A host program is a list of lines; its actions go to `inbox`. -/

namespace Sys2Proof.Machine

/-- Why a line is no line of the syntax. -/
inductive AsmError
  | unknownMnemonic
  | wrongOperands
  | notANumber
  | outOfRange
  | unknownRegister
  deriving DecidableEq, Repr

/-- The tokens of a line: words, and the punctuation `,` `[` `]`. -/
inductive Token
  | word (w : List Char)
  | comma
  | opening
  | closing
  deriving DecidableEq, Repr

/-- A word that has been read, if it is not empty. -/
def flushWord (wordRev : List Char) (rest : List Token) : List Token :=
  if wordRev = [] then rest else .word wordRev.reverse :: rest

/-- The tokens of a line up to its comment, which `;` starts (30_encoding.md R142). -/
def tokensFrom : List Char → List Char → List Token
  | [], acc => flushWord acc []
  | ch :: chs, acc =>
    if ch = ';' then flushWord acc []
    else if ch = ' ' ∨ ch = '\t' then flushWord acc (tokensFrom chs [])
    else if ch = ',' then flushWord acc (.comma :: tokensFrom chs [])
    else if ch = '[' then flushWord acc (.opening :: tokensFrom chs [])
    else if ch = ']' then flushWord acc (.closing :: tokensFrom chs [])
    else tokensFrom chs (ch :: acc)

/-- The tokens of a line. -/
def tokens (line : List Char) : List Token := tokensFrom line []

/-- A digit's value in the given base. -/
def digitValue (base : Nat) (ch : Char) : Option Nat :=
  let n := ch.toNat
  let v := if 48 ≤ n ∧ n ≤ 57 then n - 48
    else if 65 ≤ n ∧ n ≤ 70 then n - 55
    else if 97 ≤ n ∧ n ≤ 102 then n - 87
    else base
  if v < base then some v else none

/-- The value of a string of digits. -/
def digitsValue (base : Nat) : List Char → Nat → Option Nat
  | [], acc => some acc
  | ch :: chs, acc =>
    match digitValue base ch with
    | some v => digitsValue base chs (acc * base + v)
    | none => none

/-- A number: decimal, or hexadecimal with `0x` (30_encoding.md R142). -/
def numberOf : List Char → Option Nat
  | [] => none
  | '0' :: 'x' :: d :: ds => digitsValue 16 (d :: ds) 0
  | d :: ds => digitsValue 10 (d :: ds) 0

/-- A number of `n` bits. -/
def boundedNumber (n : Nat) (w : List Char) : Except AsmError (BitVec n) :=
  match numberOf w with
  | none => .error .notANumber
  | some v => if v < 2 ^ n then .ok (BitVec.ofNat n v) else .error .outOfRange

/-- The numbers of a comma-separated list, and the tokens after it. A comma stands between two numbers only (30_encoding.md
R142, R143): a list that ends with one is refused. -/
def numberList (n : Nat) : List Token → Except AsmError (List (BitVec n) × List Token)
  | .word w :: .comma :: rest =>
    match boundedNumber n w, numberList n rest with
    | .ok _, .ok ([], _) => .error .wrongOperands
    | .ok v, .ok (vs, after) => .ok (v :: vs, after)
    | .error e, _ => .error e
    | _, .error e => .error e
  | .word w :: rest =>
    match boundedNumber n w with
    | .ok v => .ok ([v], rest)
    | .error e => .error e
  | rest => .ok ([], rest)

/-- A line's operands: a comma-separated list and nothing after it. -/
def operandsOf (ts : List Token) : Except AsmError (List Half) :=
  match numberList 16 ts with
  | .ok (vs, []) => .ok vs
  | .ok (_, _ :: _) => .error .wrongOperands
  | .error e => .error e

/-- The opcode of a request mnemonic and its number of operands (30_encoding.md R122). -/
def requestShape (w : List Char) : Option (Byte × Nat) :=
  if w = ['I', 'N', 'I', 'T'] then some (0x01, 0)
  else if w = ['S', 'E', 'T', '_', 'W', 'I', 'N', 'D', 'O', 'W'] then some (0x02, 4)
  else if w = ['W', 'R', 'I', 'T', 'E', '_', 'W', 'O', 'R', 'D'] then some (0x03, 1)
  else if w = ['P', 'U', 'T', '_', 'P', 'I', 'X', 'E', 'L'] then some (0x04, 3)
  else if w = ['F', 'I', 'L', 'L', '_', 'R', 'E', 'C', 'T'] then some (0x05, 5)
  else if w = ['M', 'O', 'N', 'O', '_', 'S', 'E', 'T', '_', 'P', 'I', 'X', 'E', 'L'] then some (0x10, 3)
  else if w = ['M', 'O', 'N', 'O', '_', 'G', 'E', 'T', '_', 'P', 'I', 'X', 'E', 'L'] then some (0x11, 2)
  else if w = ['M', 'O', 'N', 'O', '_', 'C', 'L', 'E', 'A', 'R'] then some (0x12, 0)
  else if w = ['M', 'O', 'N', 'O', '_', 'F', 'L', 'U', 'S', 'H'] then some (0x13, 0)
  else if w = ['L', 'O', 'C', 'K', '_', 'B', 'U', 'F', 'F', 'E', 'R'] then some (0x20, 0)
  else if w = ['U', 'N', 'L', 'O', 'C', 'K', '_', 'B', 'U', 'F', 'F', 'E', 'R'] then some (0x21, 0)
  else none

/-- The register names of 10_state.md R48. -/
def registerNamed (w : List Char) : Option RegName :=
  if w = ['S', 'T', 'A', 'T', 'U', 'S'] then some .status
  else if w = ['F', 'A', 'I', 'L', '_', 'S', 'T', 'E', 'P'] then some .failStep
  else if w = ['R', 'E', 'M', 'A', 'I', 'N', 'I', 'N', 'G'] then some .remaining
  else if w = ['C', 'U', 'R', 'S', 'O', 'R'] then some .cursor
  else if w = ['R', 'D', 'A', 'T', 'A'] then some .rdata
  else if w = ['C', 'F', 'G', '_', 'S', 'I', 'Z', 'E'] then some .cfgSize
  else if w = ['C', 'F', 'G', '_', 'K', 'I', 'N', 'D'] then some .cfgKind
  else none

/-- The request record of an opcode and its operands, omitted slots 0 (30_encoding.md R142). -/
def requestRecord (op : Byte) (vs : List Half) : Request :=
  ⟨op, vs.getD 0 0, vs.getD 1 0, vs.getD 2 0, vs.getD 3 0, vs.getD 4 0⟩

/-- `FILL_SCREEN c` expands to `FILL_RECT 0, 0, W-1, H-1, c` (30_encoding.md R144). -/
def fillScreen (c : Cfg) (color : Half) : List HostAct :=
  [.request (requestRecord 0x05 [0, 0, c.width - 1, c.height - 1, color])]

/-- `CLEAR` expands to `FILL_RECT 0, 0, W-1, H-1, 0x0000` (30_encoding.md R144). -/
def clearScreen (c : Cfg) : List HostAct := fillScreen c 0x0000

/-- `STREAM` expands to a SET_WINDOW and one WRITE_WORD for each word (30_encoding.md R144). -/
def stream (x0 y0 x1 y1 : Half) (ws : List Half) : List HostAct :=
  .request (requestRecord 0x02 [x0, y0, x1, y1]) :: ws.map fun w => .request (requestRecord 0x03 [w])

/-- A line that begins with a word other than a request's mnemonic. -/
def assembleOther (c : Cfg) (w : List Char) (rest : List Token) : Except AsmError (List HostAct) :=
  if w = ['R', 'E', 'A', 'D'] then
    match rest with
    | [.word name] =>
      match registerNamed name with
      | some r => .ok [.read r.number]
      | none => .error .unknownRegister
    | _ => .error .wrongOperands
  else if w = ['W', 'A', 'I', 'T', '_', 'I', 'D', 'L', 'E'] then
    if rest = [] then .ok [.waitIdle] else .error .wrongOperands
  else if w = ['C', 'L', 'E', 'A', 'R'] then
    if rest = [] then .ok (clearScreen c) else .error .wrongOperands
  else if w = ['F', 'I', 'L', 'L', '_', 'S', 'C', 'R', 'E', 'E', 'N'] then
    match operandsOf rest with
    | .ok [color] => .ok (fillScreen c color)
    | .ok _ => .error .wrongOperands
    | .error e => .error e
  else if w = ['S', 'T', 'R', 'E', 'A', 'M'] then
    match operandsOf rest with
    | .ok (x0 :: y0 :: x1 :: y1 :: ws) => .ok (stream x0 y0 x1 y1 ws)
    | .ok _ => .error .wrongOperands
    | .error e => .error e
  else .error .unknownMnemonic

/-- One line of a host program (30_encoding.md R142, R144). -/
def assembleLine (c : Cfg) (line : List Char) : Except AsmError (List HostAct) :=
  match tokens line with
  | [] => .ok []
  | .word w :: rest =>
    match requestShape w with
    | some (op, arity) =>
      match operandsOf rest with
      | .ok vs => if vs.length = arity then .ok [.request (requestRecord op vs)] else .error .wrongOperands
      | .error e => .error e
    | none => assembleOther c w rest
  | _ => .error .unknownMnemonic

/-- A host program, line by line. -/
def assemble (c : Cfg) : List (List Char) → Except AsmError (List HostAct)
  | [] => .ok []
  | line :: lines =>
    match assembleLine c line, assemble c lines with
    | .ok a, .ok b => .ok (a ++ b)
    | .error e, _ => .error e
    | _, .error e => .error e

/-- One line of an init table: `ENTRY <cmd> [<p0>, <p1>, …] <ms> ms <us> us` (30_encoding.md R143). -/
def assembleEntry (line : List Char) : Except AsmError CommandEntry :=
  match tokens line with
  | .word ['E', 'N', 'T', 'R', 'Y'] :: .word cmd :: .opening :: rest =>
    match numberList 8 rest with
    | .ok (params, [.closing, .word ms, .word ['m', 's'], .word us, .word ['u', 's']]) =>
      match boundedNumber 8 cmd, boundedNumber 16 ms, boundedNumber 16 us with
      | .ok cmd, .ok ms, .ok us => if params.length ≤ 255 then .ok ⟨cmd, params, ms, us⟩ else .error .outOfRange
      | .error e, _, _ => .error e
      | _, .error e, _ => .error e
      | _, _, .error e => .error e
    | .ok _ => .error .wrongOperands
    | .error e => .error e
  | _ => .error .unknownMnemonic

/-- A hexadecimal digit. -/
def hexDigit (v : Nat) : Char := Char.ofNat (if v < 10 then v + 48 else v + 55)

/-- A value as `n` hexadecimal digits. -/
def hexText : Nat → Nat → List Char
  | 0, _ => []
  | n + 1, v => hexText n (v / 16) ++ [hexDigit (v % 16)]

/-- A request record written `op:OP0,OP1,OP2,OP3,OP4` (30_encoding.md R142). -/
def requestText (r : Request) : List Char :=
  hexText 2 r.op.toNat ++ ':' :: hexText 4 r.op0.toNat ++ ',' :: hexText 4 r.op1.toNat ++ ',' :: hexText 4 r.op2.toNat
    ++ ',' :: hexText 4 r.op3.toNat ++ ',' :: hexText 4 r.op4.toNat

end Sys2Proof.Machine
end

