-- ==== Sys2Proof/Machine/Observer.lean ====
section
/-! DEFINITION. The observers of the attached panel's memory (20_memory.md R107, R108, R109): functions of the trace, for
claims and tests only, no state of DCIS (10_state.md R31). -/

namespace Sys2Proof.Machine

/-- What the spec leaves open about the attached panel, or the model chose where it is silent (log 15). An observer records
each occurrence: of what the panel holds after one, nothing may be concluded for the cells it affects. -/
inductive OpenCase
  /-- a word after the window is exhausted (20_memory.md R108 a) -/
  | pastWindow
  /-- a word for a cell outside the panel (R108 b) -/
  | outsidePanel
  /-- a failed byte: any change (R108 c, R88); on Mono, any value from the failing page on (42_mono_buffer.md R405,
  93_implementation_defined.md U23) -/
  | failedByte
  /-- a table command: any effect on pixel memory (R108 d) -/
  | tableCommand
  /-- a word that has no cell, a range not being set yet (the model's: R107 does not say) -/
  | unplacedWord
  /-- a Mono data unit after no page's preamble (the model's: R109 does not say) -/
  | unplacedData
  /-- bytes of a Mono data unit past the W-th (the model's: R109 speaks of W bytes) -/
  | pastPage
  deriving DecidableEq, Repr

/-! ### The colour observer (20_memory.md R107) -/

/-- What the colour observer keeps. What the rule leaves undefined at first is `none`. -/
structure ColorObserver where
  /-- the kind of the unit under way, from the last `Dc` event -/
  kind    : Kind
  /-- the current command `oc` -/
  oc      : Option Byte
  /-- the parameter buffer `op` -/
  params  : List Byte
  /-- the column range `[ox0, ox1]` -/
  cols    : Option (Half × Half)
  /-- the row range `[oy0, oy1]` -/
  rows    : Option (Half × Half)
  /-- the write pointer `(px, py)` -/
  pointer : Option (Nat × Nat)
  /-- the first byte of a word under way -/
  pend    : List Byte
  /-- pixel memory `G`, the newest write first -/
  cells   : List ((Nat × Nat) × Half)
  /-- the open cases that occurred, newest first (20_memory.md R108) -/
  leftOpen : List OpenCase
  deriving DecidableEq, Repr

/-- Before the first event. -/
def ColorObserver.start : ColorObserver where
  kind := .cmd
  oc := none
  params := []
  cols := none
  rows := none
  pointer := none
  pend := []
  cells := []
  leftOpen := []

/-- The newest value of a cell in a list of writes. -/
def cellValue : List ((Nat × Nat) × Half) → Nat × Nat → Option Half
  | [], _ => none
  | (p, v) :: cells, q => if p = q then some v else cellValue cells q

/-- `G(x, y)`: the value of a cell, `none` where it is not defined. -/
def ColorObserver.pixel (o : ColorObserver) (x y : Nat) : Option Half := cellValue o.cells (x, y)

/-- The first cell of the window, if both ranges are set. -/
def windowStart : Option (Half × Half) → Option (Half × Half) → Option (Nat × Nat)
  | some c, some r => some (c.1.toNat, r.1.toNat)
  | _, _ => none

/-- Whether a command byte is one of the window group; every other one is a table command (20_memory.md R107, R108 d). -/
def isWindowCommand (c : Cfg) (b : Byte) : Bool := b == cmdCaset || b == c.cmdRaset || b == c.cmdRamwr

/-- A command byte. A table command may have any effect on pixel memory (20_memory.md R108 d): it is recorded, and the
observer goes on with the cells it has. -/
def ColorObserver.command (c : Cfg) (b : Byte) (o : ColorObserver) : ColorObserver :=
  let o := { o with
    oc := some b
    params := []
    leftOpen := if isWindowCommand c b then o.leftOpen else .tableCommand :: o.leftOpen }
  if b = c.cmdRamwr then { o with pointer := windowStart o.cols o.rows, pend := [] } else o

/-- The two coordinates of four parameter bytes. -/
def rangeOf : List Byte → Option (Half × Half)
  | [a1, a0, b1, b0] => some (joinBytes a1 a0, joinBytes b1 b0)
  | _ => none

/-- The next cell in row-major order (20_memory.md R107). DESIGN CHOICE (log 15): R107 does not say whether the pointer wraps at
16 bits; here it does not, so column 65535, which lies outside every panel (00_scope.md R12, 20_memory.md R108 b), ends its row. -/
def nextCell (cols : Half × Half) (p : Nat × Nat) : Nat × Nat :=
  if cols.2.toNat < p.1 + 1 then (cols.1.toNat, p.2 + 1) else (p.1 + 1, p.2)

/-- The open cases of a word for the cell `p` (20_memory.md R108 a, b). -/
def wordCases (c : Cfg) (rows : Half × Half) (p : Nat × Nat) : List OpenCase :=
  (if rows.2.toNat < p.2 then [.pastWindow] else [])
    ++ (if c.width.toNat ≤ p.1 ∨ c.height.toNat ≤ p.2 then [.outsidePanel] else [])

/-- A whole pixel word. DESIGN CHOICE (log 15): before both ranges are set it has no cell, and is recorded and dropped. -/
def ColorObserver.word (c : Cfg) (w : Half) (o : ColorObserver) : ColorObserver :=
  match o.pointer, o.cols, o.rows with
  | some p, some cols, some rows =>
    { o with
        cells := (p, w) :: o.cells
        pend := []
        pointer := some (nextCell cols p)
        leftOpen := wordCases c rows p ++ o.leftOpen }
  | _, _, _ => { o with pend := [], leftOpen := .unplacedWord :: o.leftOpen }

/-- A data byte: a column parameter, a row parameter, half a pixel word, or a table command's parameter. -/
def ColorObserver.dataByte (c : Cfg) (b : Byte) (o : ColorObserver) : ColorObserver :=
  let o := if o.oc = some cmdCaset then
      let o := { o with params := o.params ++ [b] }
      match rangeOf o.params with
      | some r => { o with cols := some r }
      | none => o
    else o
  let o := if o.oc = some c.cmdRaset then
      let o := { o with params := o.params ++ [b] }
      match rangeOf o.params with
      | some r => { o with rows := some r }
      | none => o
    else o
  if o.oc = some c.cmdRamwr then
    match o.pend with
    | [] => { o with pend := [b] }
    | hi :: _ => o.word c (joinBytes hi b)
  else o

/-- One event. -/
def ColorObserver.see (c : Cfg) (o : ColorObserver) (e : Event) : ColorObserver :=
  match e with
  | .dc kind => { o with kind := kind }
  | .byte b =>
    match o.kind with
    | .cmd => o.command c b
    | .data => o.dataByte c b
  | .fail _ => { o with leftOpen := .failedByte :: o.leftOpen }
  | .rst _ => o
  | .delay _ => o
  | .csAssert => o
  | .csDeassert => o
  | .i2cStart => o
  | .i2cStop => o

/-- The observer after a trace. -/
def observe (c : Cfg) (trace : List Event) : ColorObserver := trace.foldl (ColorObserver.see c) ColorObserver.start

/-! ### The monochrome observer (20_memory.md R109) -/

/-- A unit on the wire: its kind, the payload bytes that were answered ok, and whether a byte of it failed. -/
structure WireUnit where
  kind   : Kind
  bytes  : List Byte
  failed : Bool
  deriving DecidableEq, Repr

/-- What the unit reader keeps: the SPI data/command level, the unit under way (on I2C its kind is known only after the
control byte), and the units so far, newest first. -/
structure UnitReader where
  dc      : Kind
  kind    : Option Kind
  bytes   : List Byte
  failed  : Bool
  doneRev : List WireUnit
  deriving DecidableEq, Repr

/-- Before the first event. -/
def UnitReader.start : UnitReader := ⟨.cmd, none, [], false, []⟩

/-- The kind of an I2C unit from its control byte (20_memory.md R91). -/
def kindOfControl (c : Cfg) (b : Byte) : Kind := if b = c.ctrlData then .data else .cmd

/-- A unit begins; on I2C its kind is not known yet. -/
def UnitReader.begin (kind : Option Kind) (u : UnitReader) : UnitReader :=
  { u with kind := kind, bytes := [], failed := false }

/-- A unit ends. One whose control byte failed carried no payload and counts as a command unit (DESIGN CHOICE, log 15). -/
def UnitReader.finish (u : UnitReader) : UnitReader :=
  { u with doneRev := ⟨u.kind.getD .cmd, u.bytes, u.failed⟩ :: u.doneRev }

/-- One event of the unit reader. DESIGN CHOICE (log 15): a reset-line event is no part of a unit, so the Mono observer keeps the
panel's bytes and the command bytes through the reset pulse and records no open case; 20_memory.md R109 and
70_reset_and_hazards.md R717 do not say what the pulse does to the panel. -/
def UnitReader.see (c : Cfg) (u : UnitReader) (e : Event) : UnitReader :=
  match e with
  | .dc kind => { u with dc := kind }
  | .csAssert => u.begin (some u.dc)
  | .i2cStart => u.begin none
  | .byte b =>
    match u.kind with
    | some _ => { u with bytes := u.bytes ++ [b] }
    | none => { u with kind := some (kindOfControl c b) }
  | .fail _ => { u with failed := true }
  | .csDeassert => u.finish
  | .i2cStop => u.finish
  | .rst _ => u
  | .delay _ => u

/-- The units of a trace, in order. -/
def unitsOf (c : Cfg) (trace : List Event) : List WireUnit :=
  (trace.foldl (UnitReader.see c) UnitReader.start).doneRev.reverse

/-- The page that the last command bytes position the controller at: the first page whose preamble ends them. DESIGN CHOICE
(log 15). -/
def positionedAt (c : Cfg) (cmds : List Byte) : Option Nat :=
  (List.range c.pageCount).find? fun p => (c.preamble p).isSuffixOf cmds

/-- The bytes of a data unit stored from a panel address on. -/
def storeFrom (panel : Memory) (a : Nat) : List Byte → Memory
  | [] => panel
  | b :: bs => storeFrom (Memory.write panel a b) (a + 1) bs

/-- What the monochrome observer keeps: the command bytes since the last data unit, the panel's bytes (page p, column col at
p*W + col), and the open cases that occurred, newest first. -/
structure MonoObserver where
  cmds     : List Byte
  panel    : Memory
  leftOpen : List OpenCase
  deriving DecidableEq, Repr

/-- DESIGN CHOICE (log 15): an all-zero panel. -/
def MonoObserver.start : MonoObserver := ⟨[], [], []⟩

/-- The data of a unit, under the parameter obligation of 20_memory.md R109: after `MONO_PAGE_PREAMBLE(p)` its first W bytes
go to page p from column 0 on. DESIGN CHOICE (log 15): bytes past the W-th, and data after any other command, are recorded
and change nothing. -/
def MonoObserver.data (c : Cfg) (bytes : List Byte) (o : MonoObserver) : MonoObserver :=
  match positionedAt c o.cmds with
  | some p =>
    { cmds := []
      panel := storeFrom o.panel (p * c.width.toNat) (bytes.take c.width.toNat)
      leftOpen := if c.width.toNat < bytes.length then .pastPage :: o.leftOpen else o.leftOpen }
  | none => { o with cmds := [], leftOpen := .unplacedData :: o.leftOpen }

/-- One unit. DESIGN CHOICE (log 15): where a byte of it failed, that is recorded (from the failing page on the panel may
hold any value, 93_implementation_defined.md U23), and the observer goes on with the bytes answered ok. -/
def MonoObserver.see (c : Cfg) (o : MonoObserver) (u : WireUnit) : MonoObserver :=
  let o := if u.failed then { o with leftOpen := .failedByte :: o.leftOpen } else o
  match u.kind with
  | .cmd => { o with cmds := o.cmds ++ u.bytes }
  | .data => o.data c u.bytes

/-- The monochrome observer after a trace. -/
def observeMono (c : Cfg) (trace : List Event) : MonoObserver :=
  (unitsOf c trace).foldl (MonoObserver.see c) MonoObserver.start

end Sys2Proof.Machine
end

