-- ==== Sys2Proof/Machine/Pins.lean ====
section
/-! DEFINITION. The pins under the events: the software-SPI bit sequence (20_memory.md R93, R94, R95) and the bytes of an
I2C unit with its address byte (30_encoding.md R134). Functions of the trace, not state. -/

namespace Sys2Proof.Machine

/-- One step on an SPI pin or on the reset line. -/
inductive PinStep
  | mosi (level : Bool)
  | sclk (level : Bool)
  | dc (level : Bool)
  | cs (asserted : Bool)
  | rst (level : Bool)
  deriving DecidableEq, Repr

/-- The bits of a byte, most significant first (20_memory.md R93). -/
def bitsMsbFirst (b : Byte) : List Bool := [7, 6, 5, 4, 3, 2, 1, 0].map b.getLsbD

/-- One bit: data line driven, then the clock pulsed high, then low (20_memory.md R94). -/
def bitStep (v : Bool) : List PinStep := [.mosi v, .sclk true, .sclk false]

/-- One byte on the pins (20_memory.md R94). -/
def byteSteps (b : Byte) : List PinStep := (bitsMsbFirst b).flatMap bitStep

/-- One event on the SPI pins; of a failed byte, the first `done` bit-steps took place (20_memory.md R94). -/
def eventSteps (done : Nat) : Event → List PinStep
  | .rst level => [.rst level]
  | .delay _ => []
  | .dc kind => [.dc (kind == .data)]
  | .csAssert => [.cs true]
  | .csDeassert => [.cs false]
  | .i2cStart => []
  | .i2cStop => []
  | .byte b => byteSteps b
  | .fail b => ((bitsMsbFirst b).take done).flatMap bitStep

/-- A trace on the SPI pins; `n` failed bytes came before it, and each failed byte's bit-steps are a free value (log 14). -/
def pinSteps : Nat → List Event → List PinStep
  | _, [] => []
  | n, .fail b :: es => eventSteps (Config.bitsBeforeFail n) (.fail b) ++ pinSteps (n + 1) es
  | n, e :: es => eventSteps 0 e ++ pinSteps n es

/-- The pin sequence of a block on SPI, hardware or software alike (20_memory.md R95). The bit level of I2C is not given
(93_implementation_defined.md U25): `none`. -/
def State.pinTrace (s : State) : Option (List PinStep) :=
  if s.cfg.transport.isSpi then some (pinSteps 0 s.trace) else none

/-- A trace as the bytes on the I2C wire: START carries the address byte (30_encoding.md R134). `n` failed bytes came before
it. How much of a failed byte reached the wire is open (20_memory.md R88; 93_implementation_defined.md U3): it stands here as
a whole byte where the free value says that all its bits took place (log 14). -/
def i2cBytes (c : Cfg) : Nat → List Event → List Byte
  | _, [] => []
  | n, .i2cStart :: es => i2cAddressByte c :: i2cBytes c n es
  | n, .byte b :: es => b :: i2cBytes c n es
  | n, .fail b :: es => (if 8 ≤ Config.bitsBeforeFail n then [b] else []) ++ i2cBytes c (n + 1) es
  | n, .i2cStop :: es => i2cBytes c n es
  | n, .rst _ :: es => i2cBytes c n es
  | n, .delay _ :: es => i2cBytes c n es
  | n, .dc _ :: es => i2cBytes c n es
  | n, .csAssert :: es => i2cBytes c n es
  | n, .csDeassert :: es => i2cBytes c n es

/-- The bytes a block on I2C put on the wire, hardware or software alike (20_memory.md R95); `none` on SPI. -/
def State.i2cTrace (s : State) : Option (List Byte) :=
  if s.cfg.transport.isSpi then none else some (i2cBytes s.cfg 0 s.trace)

end Sys2Proof.Machine
end

