-- ==== Sys2Proof/Safety.lean ====
section
/-! DEFINITION. The terms claims are stated in: the bus premises, the registers of a state, the wire events the spec gives
to a unit and to a script, the framing of a trace, and the invariant of every step. -/

namespace Sys2Proof.Machine

/-! ### The bus -/

/-- The next `n` byte writes are answered ok: the all-ok oracle of 20_memory.md R88, for as long as a request needs it. -/
def State.busOk (s : State) (n : Nat) : Prop := ∀ k, k < n → s.answerAt k = .ok

/-- The next `k` byte writes are answered ok and the one after them fails ("fail@k+1" of 95_test_vectors.md). -/
def State.busFailsAt (s : State) (k : Nat) : Prop := s.busOk k ∧ s.answerAt k = .fail

/-! ### The registers -/

/-- The block's registers, its buffer, the reset line, the latch and the configuration: everything but the wire side (the
trace, the chip-select and data/command pins, the request's context) and the environment (replies, inputs). Two states
with the same `registers` agree in every register; `t.registers = { s with … }.registers` says what `t` changes and that
it changes nothing else. -/
def State.registers (s : State) : State :=
  { s with
      pinCs := false
      pinDc := false
      script := []
      unitLeft := []
      traceRev := []
      repliesRev := []
      inbox := []
      arrivals := []
      answers := []
      writes := 0 }

/-! ### The events of units (20_memory.md R83 to R91), apart from the machine -/

/-- The events that open a unit: the data/command line and chip-select, or START. -/
def openEvents (c : Cfg) (k : Kind) : List Event :=
  if c.transport.isSpi then [.dc k, .csAssert] else [.i2cStart]

/-- The event that closes a unit. -/
def closeEvents (c : Cfg) : List Event :=
  if c.transport.isSpi then [.csDeassert] else [.i2cStop]

/-- A unit whose every byte is answered ok. -/
def unitEvents (c : Cfg) (k : Kind) (payload : List Byte) : List Event :=
  openEvents c k ++ (unitBytes c k payload).map .byte ++ closeEvents c

/-- A unit whose byte write number `j` (from 0) fails: no byte after it is attempted, and the unit is closed. -/
def unitFailEvents (c : Cfg) (k : Kind) (payload : List Byte) (j : Nat) : List Event :=
  openEvents c k ++ ((unitBytes c k payload).take j).map .byte
    ++ ((unitBytes c k payload)[j]?.toList.map .fail) ++ closeEvents c

/-- The event of a wait: none for 0. -/
def waitEvents (n : Long) : List Event := if n = 0 then [] else [.delay n]

/-- The events of a list of units, every byte answered ok. -/
def unitsEvents (c : Cfg) (us : List (Kind × List Byte)) : List Event := us.flatMap fun u => unitEvents c u.1 u.2

/-- The byte writes of a list of units. -/
def unitsWrites (c : Cfg) (us : List (Kind × List Byte)) : Nat := (us.map fun u => (unitBytes c u.1 u.2).length).sum

/-- The events of a list of units whose byte write number `j` fails: the units before it, the failing unit closed, no unit
after it (60_exceptions.md R612). -/
def unitsFailEvents (c : Cfg) : Nat → List (Kind × List Byte) → List Event
  | _, [] => []
  | j, u :: us =>
    if j < (unitBytes c u.1 u.2).length then unitFailEvents c u.1 u.2 j
    else unitEvents c u.1 u.2 ++ unitsFailEvents c (j - (unitBytes c u.1 u.2).length) us

/-! ### INIT, from 40_init_sequencer.md -/

/-- The events of the reset phase (R202). -/
def resetEvents (c : Cfg) : List Event :=
  if c.hasResetPin then [.rst false, .delay c.tRstLowUs, .rst true, .delay c.tRstHighUs] else []

/-- The events of one entry (R204, R205): its command unit, its parameters in one data unit if it has any, its delay. -/
def entryEvents (c : Cfg) (e : CommandEntry) : List Event :=
  unitEvents c .cmd [e.cmd] ++ (if e.params = [] then [] else unitEvents c .data e.params) ++ waitEvents (entryDelay e)

/-- The byte writes of one entry. -/
def entryWrites (c : Cfg) (e : CommandEntry) : Nat :=
  (unitBytes c .cmd [e.cmd]).length + (if e.params = [] then 0 else (unitBytes c .data e.params).length)

/-- The events of a successful INIT (R200, R202, R203, R206). -/
def initEvents (c : Cfg) : List Event :=
  resetEvents c ++ c.initTable.flatMap (entryEvents c) ++ unitEvents c .cmd [c.cmdDispon] ++ waitEvents c.disponDelayUs

/-- The byte writes of a successful INIT. -/
def initWrites (c : Cfg) : Nat :=
  (c.initTable.map (entryWrites c)).sum + (unitBytes c .cmd [c.cmdDispon]).length

/-- The index of the entry that byte write number `j` belongs to, the table's length for the display-on command
(10_state.md R38). -/
def entryOfWrite (c : Cfg) : Nat → List CommandEntry → Nat
  | _, [] => 0
  | j, e :: es => if j < entryWrites c e then 0 else entryOfWrite c (j - entryWrites c e) es + 1

/-- The events from the table phase on when byte write number `j` fails (R208): the entries before it whole, the failing
unit closed, and then nothing, the failing entry's delay included. -/
def tableFailEvents (c : Cfg) : Nat → List CommandEntry → List Event
  | j, [] => unitFailEvents c .cmd [c.cmdDispon] j
  | j, e :: es =>
    if j < (unitBytes c .cmd [e.cmd]).length then unitFailEvents c .cmd [e.cmd] j
    else if j < entryWrites c e then
      unitEvents c .cmd [e.cmd] ++ unitFailEvents c .data e.params (j - (unitBytes c .cmd [e.cmd]).length)
    else entryEvents c e ++ tableFailEvents c (j - entryWrites c e) es

/-- The events of an INIT whose byte write number `j` fails (R208). -/
def initFailEvents (c : Cfg) (j : Nat) : List Event := resetEvents c ++ tableFailEvents c j c.initTable

/-- The reset line after INIT (R202). -/
def pinRstAfterInit (s : State) : Bool := if s.cfg.hasResetPin then true else s.pinRst

/-- The buffer after a successful INIT (R207): zeroed on Mono; a Color block has none and keeps what it has. -/
def bufAfterInit (s : State) : Memory :=
  match s.cfg.variant with
  | .color => s.buf
  | .mono => []

/-! ### The units of the other requests -/

/-- The window command group (30_encoding.md R131). -/
def windowUnits (c : Cfg) (x0 y0 x1 y1 : Half) : List (Kind × List Byte) :=
  [(.cmd, [0x2A]), (.data, [hiByte x0, loByte x0, hiByte x1, loByte x1]), (.cmd, [c.cmdRaset]),
   (.data, [hiByte y0, loByte y0, hiByte y1, loByte y1]), (.cmd, [c.cmdRamwr])]

/-- A unit of pixel words, each high byte first (20_memory.md R87). -/
def wordsUnit (ws : List Half) : Kind × List Byte := (.data, ws.flatMap fun w => [hiByte w, loByte w])

/-- The units of PUT_PIXEL (41_window_write.md R304). -/
def putPixelUnits (c : Cfg) (x y color : Half) : List (Kind × List Byte) :=
  windowUnits c x y (x + 1) (y + 1) ++ [wordsUnit [color]]

/-- The units of FILL_RECT: the window group once, then one data unit of `n` words (41_window_write.md R305). -/
def fillRectUnits (c : Cfg) (x0 y0 x1 y1 color : Half) (n : Nat) : List (Kind × List Byte) :=
  windowUnits c x0 y0 x1 y1 ++ [wordsUnit (List.replicate n color)]

/-- The units of a page (30_encoding.md R135). -/
def pageUnits (c : Cfg) (m : Memory) (p : Nat) : List (Kind × List Byte) :=
  (c.preamble p).map (fun b => (.cmd, [b])) ++ [(.data, pageBytes c m p)]

/-- The units of a whole flush, pages in increasing order (42_mono_buffer.md R404). -/
def flushUnits (c : Cfg) (m : Memory) : List (Kind × List Byte) := (List.range c.pageCount).flatMap (pageUnits c m)

/-! ### The pins of a unit (20_memory.md R85, R86, R90) -/

/-- One event on the chip-select and data/command levels. -/
def pinsEvent (p : Bool × Bool) (e : Event) : Bool × Bool :=
  match e with
  | .csAssert => (true, p.2)
  | .csDeassert => (false, p.2)
  | .dc k => (p.1, k == .data)
  | _ => p

/-- The chip-select and data/command levels after events that began at the levels `p`. -/
def pinsAfter (evs : List Event) (p : Bool × Bool) : Bool × Bool := evs.foldl pinsEvent p

/-! ### How a request ends -/

/-- What the host can be told in a gap of a running request: a rejection (43_control.md R451) or a register's value (R454). -/
def Reply.inGap : Reply → Prop
  | .response code v => code = .busyError ∧ v = 0
  | .value _ => True

/-- From `s` to `t` the host was told only what a gap can tell it, and nothing where no host action was to land. -/
def GapReplies (s t : State) : Prop :=
  ∃ l : List Reply, (∀ r ∈ l, r.inGap) ∧ t.repliesRev = l ++ s.repliesRev ∧ (s.arrivals = [] → l = [] ∧ t.arrivals = [])

/-- What the host is told of its action in a gap where the block's registers are those of `q`: a request of a busy block is
rejected, a read gets the register's value (43_control.md R451, R454). -/
def gapReply (q : State) : Arrival → List Reply
  | .request _ => if q.ctl = .busy then [.response .busyError 0] else []
  | .read reg => [.value (q.readReg reg)]

/-- What an action in a gap adds to the host's actions to come: a request of a block that is not busy (log 8). -/
def gapRequest (q : State) : Arrival → List HostAct
  | .request r => if q.ctl = .busy then [] else [.request r]
  | .read _ => []

/-- `t` is `s` after a request that appended the events `evs`, took `n` bus answers and told the host `code` and `value`
last. Replies to host actions inside it may stand before (10_state.md R47); the host's actions to come are untouched; the
pins are where the events left them; no context is left. -/
structure Ended (s t : State) (evs : List Event) (n : Nat) (code : Code) (value : Byte) : Prop where
  trace  : t.trace = s.trace ++ evs
  oracle : ∀ k, t.answerAt k = s.answerAt (n + k)
  told   : ∃ l : List Reply, (∀ r ∈ l, r.inGap) ∧ t.repliesRev = .response code value :: (l ++ s.repliesRev) ∧
    (s.arrivals = [] → l = [] ∧ t.arrivals = [])
  inbox  : t.inbox = s.inbox
  pins   : (t.pinCs, t.pinDc) = pinsAfter evs (s.pinCs, s.pinDc)
  quiet  : t.script = [] ∧ t.unitLeft = []

/-- `t` is `s` after a word of the sequencer run by itself, which appended the events `evs` and took `n` bus answers. -/
structure Emitted (s t : State) (evs : List Event) (n : Nat) : Prop where
  trace  : t.trace = s.trace ++ evs
  oracle : ∀ k, t.answerAt k = s.answerAt (n + k)
  told   : GapReplies s t
  inbox  : s.arrivals = [] → t.inbox = s.inbox
  pins   : (t.pinCs, t.pinDc) = pinsAfter evs (s.pinCs, s.pinDc)
  quiet  : t.script = [] ∧ t.unitLeft = []

/-- The colour observer stands where the block's cursor does: in the pixel stream of the armed window, its write pointer on
the cursor, between two words (20_memory.md R107, 10_state.md R43). -/
structure State.Follows (s : State) (o : ColorObserver) : Prop where
  command : o.oc = some s.cfg.cmdRamwr
  columns : o.cols = some (s.wx0, s.wx1)
  rows    : o.rows = some (s.wy0, s.wy1)
  pointer : o.pointer = some (s.curX.toNat, s.curY.toNat)
  pend    : o.pend = []

/-! ### The requests by variant (30_encoding.md R122) -/

/-- The requests of the Color variant only. -/
def colorOnly : Instr → Prop
  | .init => False
  | .setWindow _ _ _ _ => True
  | .writeWord _ => True
  | .putPixel _ _ _ => True
  | .fillRect _ _ _ _ _ => True
  | .monoSetPixel _ _ _ => False
  | .monoGetPixel _ _ => False
  | .monoClear => False
  | .monoFlush => False
  | .lockBuffer => False
  | .unlockBuffer => False
  | .reserved _ => False
  | .caset _ _ => False
  | .raset _ _ => False
  | .ramwr => False
  | .dispon => False
  | .pagePreamble _ => False
  | .tableEntry _ => False
  | .tableImage _ => False

/-- The requests of the Mono variant only. -/
def monoOnly : Instr → Prop
  | .init => False
  | .setWindow _ _ _ _ => False
  | .writeWord _ => False
  | .putPixel _ _ _ => False
  | .fillRect _ _ _ _ _ => False
  | .monoSetPixel _ _ _ => True
  | .monoGetPixel _ _ => True
  | .monoClear => True
  | .monoFlush => True
  | .lockBuffer => True
  | .unlockBuffer => True
  | .reserved _ => False
  | .caset _ _ => False
  | .raset _ _ => False
  | .ramwr => False
  | .dispon => False
  | .pagePreamble _ => False
  | .tableEntry _ => False
  | .tableImage _ => False

/-- A reserved opcode, or an opcode of the other variant (60_exceptions.md R605). -/
def illegalFor (c : Cfg) (i : Instr) : Prop :=
  (∃ op, i = .reserved op) ∨ (colorOnly i ∧ c.variant = .mono) ∨ (monoOnly i ∧ c.variant = .color)

/-- A coordinate or window out of range (60_exceptions.md R603). -/
def outOfRange (c : Cfg) : Instr → Prop
  | .setWindow x0 y0 x1 y1 => x1 < x0 ∨ c.width ≤ x1 ∨ y1 < y0 ∨ c.height ≤ y1
  | .fillRect x0 y0 x1 y1 _ => x1 < x0 ∨ c.width ≤ x1 ∨ y1 < y0 ∨ c.height ≤ y1
  | .putPixel x y _ => c.width ≤ x ∨ c.height ≤ y
  | .monoSetPixel x y _ => c.width ≤ x ∨ c.height ≤ y
  | .monoGetPixel x y => c.width ≤ x ∨ c.height ≤ y
  | .init => False
  | .writeWord _ => False
  | .monoClear => False
  | .monoFlush => False
  | .lockBuffer => False
  | .unlockBuffer => False
  | .reserved _ => False
  | .caset _ _ => False
  | .raset _ _ => False
  | .ramwr => False
  | .dispon => False
  | .pagePreamble _ => False
  | .tableEntry _ => False
  | .tableImage _ => False

/-- A request other than INIT, LOCK_BUFFER and UNLOCK_BUFFER (60_exceptions.md R606). -/
def needsInit : Instr → Prop
  | .init => False
  | .lockBuffer => False
  | .unlockBuffer => False
  | .setWindow _ _ _ _ => True
  | .writeWord _ => True
  | .putPixel _ _ _ => True
  | .fillRect _ _ _ _ _ => True
  | .monoSetPixel _ _ _ => True
  | .monoGetPixel _ _ => True
  | .monoClear => True
  | .monoFlush => True
  | .reserved _ => True
  | .caset _ _ => True
  | .raset _ _ => True
  | .ramwr => True
  | .dispon => True
  | .pagePreamble _ => True
  | .tableEntry _ => True
  | .tableImage _ => True

/-- A completion at acceptance: `last_result` is written, the host is told, and nothing else changes (43_control.md R450). -/
def refusedWith (code : Code) (s : State) : State :=
  { s with lastResult := code, repliesRev := .response code 0 :: s.repliesRev }

/-- A rejection: the host is told, and nothing changes (43_control.md R450, R451). -/
def rejectedBusy (s : State) : State := { s with repliesRev := .response .busyError 0 :: s.repliesRev }

/-! ### Framing (20_memory.md R89, R90) -/

/-- Where a trace stands: between units, after the data/command line was driven, inside a unit, after a failed byte. -/
inductive Framing
  | idle
  | selected
  | inside
  | failed
  deriving DecidableEq, Repr

/-- One event of a framed trace; `none` where the event may not stand there. -/
def Framing.next (spi : Bool) (f : Framing) (e : Event) : Option Framing :=
  match f, e with
  | .idle, .rst _ => some .idle
  | .idle, .delay _ => some .idle
  | .idle, .dc _ => if spi then some .selected else none
  | .selected, .csAssert => some .inside
  | .idle, .i2cStart => if spi then none else some .inside
  | .inside, .byte _ => some .inside
  | .inside, .fail _ => some .failed
  | .inside, .csDeassert => if spi then some .idle else none
  | .failed, .csDeassert => if spi then some .idle else none
  | .inside, .i2cStop => if spi then none else some .idle
  | .failed, .i2cStop => if spi then none else some .idle
  | _, _ => none

/-- The framing after a trace that begins at `f`. -/
def framingAfter (spi : Bool) : List Event → Framing → Option Framing
  | [], f => some f
  | e :: es, f =>
    match f.next spi e with
    | some f => framingAfter spi es f
    | none => none

/-- Every unit of the trace is framed and closed, the data/command line moves only between units, and the event after a
failed byte is the unit's closing event. -/
def State.wellFramed (s : State) : Prop :=
  framingAfter s.cfg.transport.isSpi s.trace .idle = some .idle

/-! ### The invariant -/

/-- The cells of the window from the cursor on, in row-major order. -/
def State.cellsLeft (s : State) : Nat :=
  (s.wy1.toNat - s.curY.toNat) * (s.wx1.toNat - s.wx0.toNat + 1) + (s.wx1.toNat - s.curX.toNat + 1)

/-- An armed window (10_state.md R42 to R44, R53 a): the block is initialised, the window is inside the panel, the cursor
inside the window, and `remaining` counts the cells from the cursor on. -/
structure State.WindowOk (s : State) : Prop where
  initialised : s.ctl ≠ .uninitialized
  columns     : s.wx0 ≤ s.curX ∧ s.curX ≤ s.wx1 ∧ s.wx1 < s.cfg.width
  rows        : s.wy0 ≤ s.curY ∧ s.curY ≤ s.wy1 ∧ s.wy1 < s.cfg.height
  cells       : s.remaining.toNat = s.cellsLeft

/-- What holds in every reachable state (10_state.md R53), with what else the spec keeps: the buffer's canonical form and
size, the fields a variant does not have. -/
structure State.Inv (s : State) : Prop where
  /-- 10_state.md R53 (a) -/
  armed      : s.armed = true → s.WindowOk
  /-- 10_state.md R53 (b) -/
  unarmed    : s.armed = false → s.remaining = 0
  /-- 10_state.md R53 (c): Ready means that the last INIT succeeded -/
  ready      : s.ctl = .ready → s.initFailed = false ∧ s.failStep = 0xFFFFFFFF
  /-- 10_state.md R53 (d) -/
  failedInit : s.initFailed = true → s.ctl = .uninitialized ∨ s.ctl = .busy
  /-- 10_state.md R38: a failed INIT leaves the index of the entry, or the table's length -/
  failStep   : s.failStep = 0xFFFFFFFF ∨ s.failStep.toNat ≤ s.cfg.initTable.length
  /-- the buffer's canonical form, inside its size (20_memory.md R74) -/
  buffer     : s.buf.wf = true ∧ s.buf.within (bufferSize s.cfg) = true
  /-- 10_state.md R36: a Color block's lock is never set -/
  colorLock  : s.cfg.variant = .color → s.lock = false
  /-- 00_scope.md R17: a Mono block has no window -/
  monoWindow : s.cfg.variant = .mono → s.armed = false

/-- No request is in progress and none of its context is left (10_state.md R47, R50). -/
def State.Quiet (s : State) : Prop := s.ctl ≠ .busy ∧ s.script = [] ∧ s.unitLeft = []

end Sys2Proof.Machine
end

