-- ==== Sys2Proof/Certificates/Slice0/Obligations.lean ====
section
/-! DEFINITION. The statements for the provers, in the order of OBLIGATIONS.json. -/

open Sys2Proof Sys2Proof.Machine

/-! ### Construction and reset -/

/-- A configuration that breaks any range or constraint of 00_scope.md R12 to R16 is refused, and no other is (R19). A
valid one gives a block with every reset value of 10_state.md R50 and an empty trace (70_reset_and_hazards.md R700). Two
clauses are the model's own: a Mono configuration lists one preamble for each page, the list standing for R16's function of
pages (log 1), and the fields R50 leaves unspecified hold the argument `u`, any value whatever (log 2). -/
def Obligations.ConstructionIsBlockReset : Prop :=
  (∀ (raw : RawCfg) (u : Unspecified), construct raw u = .refused .invalidConfiguration ↔
    ¬ (1 ≤ raw.width.toNat ∧ 1 ≤ raw.height.toNat ∧
      (raw.variant = .color → raw.colorDepth = 16 ∧ (raw.transport = .spiHw ∨ raw.transport = .spiSw)) ∧
      (raw.variant = .mono → raw.colorDepth = 1 ∧ raw.height.toNat % 8 = 0 ∧
        raw.monoPagePreamble.length = raw.height.toNat / 8) ∧
      raw.initTable.length ≤ 65535 ∧ (∀ e ∈ raw.initTable, e.params.length ≤ 255) ∧
      raw.ctrlData ≠ raw.ctrlCmd ∧ 10000 ≤ raw.tRstLowUs.toNat ∧ 10000 ≤ raw.tRstHighUs.toNat)) ∧
  ∀ (c : Cfg) (u : Unspecified), ∃ t : State, construct c.toRawCfg u = .next t ∧ t.cfg = c ∧
    t.ctl = .uninitialized ∧ t.lock = false ∧ t.initFailed = false ∧ t.failStep = 0xFFFFFFFF ∧ t.lastResult = .ok ∧
    t.rdata = 0 ∧ t.armed = false ∧ t.remaining = 0 ∧ t.latch = none ∧ t.trace = [] ∧ t.script = [] ∧ t.unitLeft = [] ∧
    (t.wx0, t.wy0, t.wx1, t.wy1) = (u.wx0, u.wy0, u.wx1, u.wy1) ∧ (t.curX, t.curY) = (u.curX, u.curY) ∧
    t.seqIdx = u.seqIdx ∧ (c.variant = .mono → t.buf = u.buf) ∧
    (t.pinRst, t.pinCs, t.pinDc) = (u.pinRst, u.pinCs, u.pinDc)

/-- A table's image is its length in two bytes, high byte first, and its records in order; it constructs a block with that
table, and bytes that are the image of no table are refused (30_encoding.md R128). -/
def Obligations.ImageConstruction : Prop :=
  (∀ es : List CommandEntry, bytesOfImage es =
    BitVec.ofNat 8 (es.length / 256) :: BitVec.ofNat 8 (es.length % 256) :: es.flatMap bytesOfEntry) ∧
  (∀ (raw : RawCfg) (es : List CommandEntry) (u : Unspecified), es.length ≤ 65535 → (∀ e ∈ es, e.params.length ≤ 255) →
    constructFromImage raw (bytesOfImage es) u = construct { raw with initTable := es } u) ∧
  ∀ (raw : RawCfg) (bs : List Byte) (u : Unspecified),
    (∀ es : List CommandEntry, es.length ≤ 65535 → (∀ e ∈ es, e.params.length ≤ 255) → bs ≠ bytesOfImage es) →
    ∃ e : DecodeError, constructFromImage raw bs u = .refused (.malformedImage e)

/-! ### The register port -/

/-- The fields of STATUS and their values (10_state.md R49, R34, 60_exceptions.md R600). -/
def Obligations.StatusFields : Prop :=
  ∀ s : State,
    (s.status.extractLsb' 0 2).toNat =
      (match s.ctl with | .uninitialized => 0 | .ready => 1 | .busy => 2) ∧
    (s.status.getLsbD 2 = true ↔ s.cfg.variant = .mono ∧ s.lock = true) ∧
    (s.status.getLsbD 3 = true ↔ s.cfg.variant = .color ∧ s.armed = true) ∧
    (s.status.extractLsb' 4 3).toNat =
      (match s.lastResult with
        | .ok => 0 | .transportError => 1 | .initFailed => 2 | .rangeError => 3 | .busyError => 4
        | .notReady => 5 | .illegalRequest => 6) ∧
    (s.status.getLsbD 7 = true ↔ s.initFailed = true)

/-- The registers of the port by number (10_state.md R48), the reserved numbers 7 to 255 reading 0. -/
def Obligations.RegisterPort : Prop :=
  ∀ s : State,
    (s.readReg 0).toNat = s.status.toNat ∧ s.readReg 1 = s.failStep ∧ s.readReg 2 = s.remaining ∧
    (s.readReg 3).toNat = (if s.armed = true then s.curY.toNat * 65536 + s.curX.toNat else 0) ∧
    (s.readReg 4).toNat = s.rdata.toNat ∧
    (s.readReg 5).toNat = s.cfg.height.toNat * 65536 + s.cfg.width.toNat ∧
    (s.readReg 6).toNat =
      (match s.cfg.variant with | .color => 0 | .mono => 1) +
      2 * (match s.cfg.transport with | .spiHw => 0 | .spiSw => 1 | .i2cHw => 2 | .i2cSw => 3) +
      8 * (if s.cfg.hasResetPin = true then 1 else 0) ∧
    ∀ reg : Byte, 7 ≤ reg.toNat → s.readReg reg = 0

/-- READ returns the register's value in every state, `Busy` included, and changes and emits nothing, between requests and
inside one (43_control.md R454). -/
def Obligations.ReadChangesNothing : Prop :=
  ∀ (s : State) (reg : Byte),
    (∀ later, s.inbox = .read reg :: later →
      step s = .next { s with inbox := later, repliesRev := .value (s.readReg reg) :: s.repliesRev }) ∧
    s.arrive (.read reg) = { s with repliesRev := .value (s.readReg reg) :: s.repliesRev } ∧
    (7 ≤ reg.toNat → s.readReg reg = 0)

/-! ### Encodings -/

/-- Words written out from the spec's encodings decode to the instructions they stand for (a sanity statement). That the two
wire words (CASET, and the preamble of page 1) are decoded at all is the model's own, DCIS never decoding the wire (log 9);
the preamble's bytes are the general-knowledge default of the reference configuration (log 1, PRESUMED). -/
def Obligations.DecodesSpecWords : Prop :=
  decode Cfg.referenceColor .request [0x01, 0, 0, 0, 0, 0, 0, 0, 0, 0, 0] = .ok .init ∧
  decode Cfg.referenceColor .request [0x02, 0, 0, 0, 0, 0, 0xEF, 0, 0x86, 0, 0] = .ok (.setWindow 0 0 239 134) ∧
  decode Cfg.referenceColor .request [0x04, 0, 0x0A, 0, 0x14, 0x07, 0xE0, 0, 0, 0, 0] = .ok (.putPixel 10 20 0x07E0) ∧
  decode Cfg.referenceMono .request [0x10, 0, 3, 0, 9, 0xFF, 0xFE, 0, 0, 0, 0] = .ok (.monoSetPixel 3 9 0) ∧
  decode Cfg.referenceMono .request [0x20, 0, 0, 0, 0, 0, 0, 0, 0, 0, 0] = .ok .lockBuffer ∧
  decode Cfg.referenceColor .request [0x14, 0, 0, 0, 0, 0, 0, 0, 0, 0, 0] = .ok (.reserved 0x14) ∧
  decode Cfg.referenceColor .wire [0x2A, 0, 0, 0, 0xEF] = .ok (.caset 0 239) ∧
  decode Cfg.referenceMono .wire [0xB1, 0x00, 0x10] = .ok (.pagePreamble 1) ∧
  decode Cfg.referenceColor .romEntry [0x3A, 0x01, 0x55, 0x00, 0x0A, 0x00, 0x00] = .ok (.tableEntry ⟨0x3A, [0x55], 10, 0⟩)

/-- The opcode map, for every value of every operand slot, the ignored ones too (30_encoding.md R122, R125), and the
reserved opcodes (R123). -/
def Obligations.OpcodeMap : Prop :=
  ∀ a b c d e : Half,
    decodeRequest ⟨0x01, a, b, c, d, e⟩ = .init ∧
    decodeRequest ⟨0x02, a, b, c, d, e⟩ = .setWindow a b c d ∧
    decodeRequest ⟨0x03, a, b, c, d, e⟩ = .writeWord a ∧
    decodeRequest ⟨0x04, a, b, c, d, e⟩ = .putPixel a b c ∧
    decodeRequest ⟨0x05, a, b, c, d, e⟩ = .fillRect a b c d e ∧
    decodeRequest ⟨0x10, a, b, c, d, e⟩ = .monoSetPixel a b (BitVec.ofNat 1 c.toNat) ∧
    decodeRequest ⟨0x11, a, b, c, d, e⟩ = .monoGetPixel a b ∧
    decodeRequest ⟨0x12, a, b, c, d, e⟩ = .monoClear ∧
    decodeRequest ⟨0x13, a, b, c, d, e⟩ = .monoFlush ∧
    decodeRequest ⟨0x20, a, b, c, d, e⟩ = .lockBuffer ∧
    decodeRequest ⟨0x21, a, b, c, d, e⟩ = .unlockBuffer ∧
    ∀ op : Byte, (op = 0x00 ∨ (0x06 ≤ op ∧ op ≤ 0x0F) ∨ (0x14 ≤ op ∧ op ≤ 0x1F) ∨ 0x22 ≤ op) →
      decodeRequest ⟨op, a, b, c, d, e⟩ = .reserved op

/-- A request is 11 bytes: `op`, then each operand high byte first, and no other bytes are a request (30_encoding.md R120,
R139). -/
def Obligations.RequestBytes : Prop :=
  ∀ (bs : List Byte) (r : Request), requestOfBytes bs = .ok r ↔
    ∃ a b c d e : Byte × Byte,
      bs = [r.op, a.1, a.2, b.1, b.2, c.1, c.2, d.1, d.2, e.1, e.2] ∧
      r.op0.toNat = a.1.toNat * 256 + a.2.toNat ∧ r.op1.toNat = b.1.toNat * 256 + b.2.toNat ∧
      r.op2.toNat = c.1.toNat * 256 + c.2.toNat ∧ r.op3.toNat = d.1.toNat * 256 + d.2.toNat ∧
      r.op4.toNat = e.1.toNat * 256 + e.2.toNat

/-- A ROM record: its bytes are laid out as 30_encoding.md R127 says, it is `6 + N` bytes long, and the decoder reads it
back with whatever stands after it left over. -/
def Obligations.RecordLayout : Prop :=
  ∀ (e : CommandEntry) (rest : List Byte), e.params.length ≤ 255 →
    (bytesOfEntry e).length = 6 + e.params.length ∧
    bytesOfEntry e = e.cmd :: BitVec.ofNat 8 e.params.length :: (e.params ++
      [BitVec.ofNat 8 (e.delayMs.toNat / 256), BitVec.ofNat 8 (e.delayMs.toNat % 256),
       BitVec.ofNat 8 (e.delayUs.toNat / 256), BitVec.ofNat 8 (e.delayUs.toNat % 256)]) ∧
    decodeRecord (bytesOfEntry e ++ rest) = .ok (e, rest)

/-- Decode of encode is the instruction, for every well-formed instruction of every surface, in every configuration whose
wire words can be told apart (a premise of the model's own, log 9: DCIS itself never decodes the wire). -/
def Obligations.DecodeEncode : Prop :=
  ∀ (c : Cfg) (i : Instr), c.wireWordsDistinct = true → i.wellFormed c = true →
    decode c i.surface (encode c i) = .ok i

/-- A table image decodes to a table exactly when it is that table's image: no image that is cut short and none with bytes
left over is accepted (30_encoding.md R128). -/
def Obligations.ImageExact : Prop :=
  ∀ (bs : List Byte) (es : List CommandEntry),
    decodeImage bs = .ok es ↔ es.length ≤ 65535 ∧ (∀ e ∈ es, e.params.length ≤ 255) ∧ bs = bytesOfImage es

/-- The delay of an entry is `delay_ms * 1000 + delay_us` exactly: u32 does not overflow (30_encoding.md R129). -/
def Obligations.EntryDelayExact : Prop :=
  ∀ e : CommandEntry, (entryDelay e).toNat = e.delayMs.toNat * 1000 + e.delayUs.toNat ∧ (entryDelay e).toNat ≤ 65600535

/-- The cell count of a valid window is its exact product, at least 1 and below 2^32 (41_window_write.md R308). -/
def Obligations.CellCountExact : Prop :=
  ∀ (c : Cfg) (x0 y0 x1 y1 : Half), x0 ≤ x1 → x1 < c.width → y0 ≤ y1 → y1 < c.height →
    (cellCount x0 y0 x1 y1).toNat = (x1.toNat - x0.toNat + 1) * (y1.toNat - y0.toNat + 1) ∧
    1 ≤ (cellCount x0 y0 x1 y1).toNat ∧ (cellCount x0 y0 x1 y1).toNat ≤ 4294836225

/-! ### Steps -/

/-- A step runs the request the host issued: `exec` of what it decodes to, put into the latch (10_state.md R30, R32). That
the host's actions are a list and a step takes the one at its head is the model's own (log 5). While the block is busy the
request is rejected with no state change (43_control.md R450, R451), and so the latch keeps its holder (log 7). -/
def Obligations.StepRunsRequest : Prop :=
  ∀ (s : State) (r : Request) (later : List HostAct), s.inbox = .request r :: later →
    step s = exec (decodeRequest r) { s with inbox := later, latch := if s.ctl = .busy then s.latch else some r }

/-- A step runs a word of any surface as the instruction it decodes to, and refuses bytes that are no word: the model's own
path for the wire and ROM rows (log 8). A request's 11 bytes run as its record does, the request latch written; that the model
takes them beside the record is its own too (log 8; 30_encoding.md R120 has a model take the record). -/
def Obligations.StepRunsSequencerWord : Prop :=
  ∀ (s : State) (surface : Surface) (bytes : List Byte) (later : List HostAct),
    s.inbox = .sequence surface bytes :: later →
    (∀ i, surface ≠ .request → decode s.cfg surface bytes = .ok i → step s = exec i { s with inbox := later }) ∧
    (∀ r, surface = .request → requestOfBytes bytes = .ok r → decode s.cfg surface bytes = .ok (decodeRequest r) ∧
      step s = exec (decodeRequest r) { s with inbox := later, latch := if s.ctl = .busy then s.latch else some r } ∧
      step s = step { s with inbox := .request r :: later }) ∧
    (∀ e, decode s.cfg surface bytes = .error e → step s = .refused (.undecodable e))

/-- A word of the opcode table placed for the next step runs as the instruction the decoder reads from it (log 6): a
request in every configuration, CASET in every colour configuration, and the wire commands whose bytes are parameters in
those that give them the table's defaults (log 10). -/
def Obligations.FetchedWordRuns : Prop :=
  ∀ (s : State) (nbits w : Nat) (i : Instr), decodeTableWord nbits w = some i →
    (i.surface = .request ∨
      (s.cfg.variant = .color ∧ ((∃ x0 x1, i = .caset x0 x1) ∨
        (s.cfg.cmdRaset = 0x2B ∧ s.cfg.cmdRamwr = 0x2C ∧ s.cfg.cmdDispon = 0x29)))) →
    ∃ l : Option Request, (l = s.latch ∨ ∃ r, l = some r ∧ decodeRequest r = i) ∧
      step (s.withFetchWord nbits w) = exec i { s with latch := l }

/-- With no host action waiting the block idles and its state survives (60_exceptions.md R620). WAIT_IDLE reads STATUS and
ends when the block is not busy (30_encoding.md R144). -/
def Obligations.IdleAndPoll : Prop :=
  ∀ s : State, (s.inbox = [] → step s = .next s) ∧
    ∀ later, s.inbox = .waitIdle :: later → step s = .next
      { s with
          repliesRev := .value (s.readReg 0) :: s.repliesRev
          inbox := if s.ctl = .busy then .waitIdle :: later else later }

/-! ### Acceptance -/

/-- `BusyError`: every request to a busy block is rejected and nothing changes, whether it is the host's next action or an
arrival (that a running request answers its arrivals so is `Obligations.ArrivalsDoNotDisturb`), and MONO_FLUSH under lock
completes with it (60_exceptions.md R604). -/
def Obligations.BusyErrorRule : Prop :=
  (∀ (r : Request) (s : State), s.ctl = .busy →
    exec (decodeRequest r) s = .next (rejectedBusy s) ∧ s.arrive (.request r) = rejectedBusy s) ∧
  ∀ s : State, s.ctl = .ready → s.cfg.variant = .mono → s.lock = true →
    exec .monoFlush s = .next (refusedWith .busyError s)

/-- `IllegalRequest`: a reserved opcode or an opcode of the other variant, whatever its operands (60_exceptions.md R605,
30_encoding.md R124); INIT completes with it in no variant. -/
def Obligations.IllegalRequestRule : Prop :=
  (∀ (r : Request) (s : State), s.ctl ≠ .busy → illegalFor s.cfg (decodeRequest r) →
    exec (decodeRequest r) s = .next (refusedWith .illegalRequest s)) ∧
  ∀ s : State, s.ctl ≠ .busy → ∃ t : State, exec .init s = .next t ∧ t.lastResult ≠ .illegalRequest

/-- A reserved opcode completes with `IllegalRequest`; no state is written except `last_result` and no wire event is
emitted (30_encoding.md R123). -/
def Obligations.ReservedOpcode : Prop :=
  ∀ (op : Byte) (a b c d e : Half), (op = 0x00 ∨ (0x06 ≤ op ∧ op ≤ 0x0F) ∨ (0x14 ≤ op ∧ op ≤ 0x1F) ∨ 0x22 ≤ op) →
    decodeRequest ⟨op, a, b, c, d, e⟩ = .reserved op ∧
    ∀ s : State, s.ctl ≠ .busy →
      exec (.reserved op) s =
        .next { s with lastResult := .illegalRequest, repliesRev := .response .illegalRequest 0 :: s.repliesRev }

/-- `NotReady`: any legal request but INIT, LOCK_BUFFER and UNLOCK_BUFFER while uninitialized, and WRITE_WORD while no
window is armed (60_exceptions.md R606). -/
def Obligations.NotReadyRule : Prop :=
  (∀ (r : Request) (s : State), s.ctl = .uninitialized → ¬ illegalFor s.cfg (decodeRequest r) →
    needsInit (decodeRequest r) → exec (decodeRequest r) s = .next (refusedWith .notReady s)) ∧
  ∀ (color : Half) (s : State), s.ctl ≠ .busy → s.cfg.variant = .color → s.armed = false →
    exec (.writeWord color) s = .next (refusedWith .notReady s)

/-- `RangeError`: a window that is not valid, a point outside the panel; only `last_result` is written and nothing is
emitted (60_exceptions.md R603). -/
def Obligations.RangeErrorRule : Prop :=
  ∀ (r : Request) (s : State), s.ctl = .ready → ¬ illegalFor s.cfg (decodeRequest r) →
    outOfRange s.cfg (decodeRequest r) → exec (decodeRequest r) s = .next (refusedWith .rangeError s)

/-- The check order: the first check that fails decides, and a request that passes all of them executes: it ends with `Ok`
when no byte of its segment failed, else with `InitFailed` (INIT) or `TransportError` (others) (60_exceptions.md R611). -/
def Obligations.AcceptanceOrder : Prop :=
  ∀ (r : Request) (s : State),
    (s.ctl = .busy → exec (decodeRequest r) s = .next (rejectedBusy s)) ∧
    (s.ctl ≠ .busy → illegalFor s.cfg (decodeRequest r) →
      exec (decodeRequest r) s = .next (refusedWith .illegalRequest s)) ∧
    (s.ctl ≠ .busy → ¬ illegalFor s.cfg (decodeRequest r) →
      (s.ctl = .uninitialized ∧ needsInit (decodeRequest r)) ∨ (s.armed = false ∧ ∃ color, decodeRequest r = .writeWord color) →
      exec (decodeRequest r) s = .next (refusedWith .notReady s)) ∧
    (s.ctl ≠ .busy → ¬ illegalFor s.cfg (decodeRequest r) →
      ¬ ((s.ctl = .uninitialized ∧ needsInit (decodeRequest r)) ∨ (s.armed = false ∧ ∃ color, decodeRequest r = .writeWord color)) →
      (outOfRange s.cfg (decodeRequest r) → exec (decodeRequest r) s = .next (refusedWith .rangeError s)) ∧
      (s.lock = true → decodeRequest r = .monoFlush → exec (decodeRequest r) s = .next (refusedWith .busyError s)) ∧
      (¬ outOfRange s.cfg (decodeRequest r) → ¬ (s.lock = true ∧ decodeRequest r = .monoFlush) →
        ∃ (t : State) (code : Code) (v : Byte) (l : List Reply) (evs : List Event), exec (decodeRequest r) s = .next t ∧
          t.repliesRev = .response code v :: (l ++ s.repliesRev) ∧ t.lastResult = code ∧ t.trace = s.trace ++ evs ∧
          ((code = .ok ∧ ∀ b, Event.fail b ∉ evs) ∨
            (code = (if decodeRequest r = .init then .initFailed else .transportError) ∧ ∃ b, Event.fail b ∈ evs))))

/-! ### INIT -/

/-- INIT on a bus that answers ok, from `Uninitialized` and from `Ready` alike: its events are the reset pulse, each entry
and its delay, the display-on unit and its delay; it ends `Ready`, the failure record cleared, any window disarmed, the
buffer zeroed on Mono, and it writes no other register (40_init_sequencer.md R200 to R209, R215). -/
def Obligations.InitSucceeds : Prop :=
  ∀ s : State, s.ctl ≠ .busy → s.busOk (initWrites s.cfg) →
    ∃ t : State, exec .init s = .next t ∧
      t.registers = ({ s with
        ctl := .ready, initFailed := false, failStep := 0xFFFFFFFF, lastResult := .ok, armed := false, remaining := 0,
        seqIdx := BitVec.ofNat 32 s.cfg.initTable.length, buf := bufAfterInit s, pinRst := pinRstAfterInit s } : State).registers ∧
      Ended s t (initEvents s.cfg) (initWrites s.cfg) .ok 0

/-- INIT whose byte write number `k` fails: the failing unit is closed and nothing follows it; `fail_step` is the failing
entry, or the table's length for the display-on command; the block is `Uninitialized` and the code `InitFailed`; the buffer
keeps its contents (40_init_sequencer.md R208, 60_exceptions.md R602). -/
def Obligations.InitFails : Prop :=
  ∀ (s : State) (k : Nat), s.ctl ≠ .busy → k < initWrites s.cfg → s.busFailsAt k →
    ∃ t : State, exec .init s = .next t ∧
      t.registers = ({ s with
        ctl := .uninitialized, initFailed := true, failStep := BitVec.ofNat 32 (entryOfWrite s.cfg k s.cfg.initTable),
        lastResult := .initFailed, armed := false, remaining := 0,
        seqIdx := BitVec.ofNat 32 (entryOfWrite s.cfg k s.cfg.initTable), pinRst := pinRstAfterInit s } : State).registers ∧
      entryOfWrite s.cfg k s.cfg.initTable ≤ s.cfg.initTable.length ∧
      Ended s t (initFailEvents s.cfg k) (k + 1) .initFailed 0

/-! ### The colour requests -/

/-- SET_WINDOW of a valid window arms it: cursor at its first cell, `remaining` its cell count (41_window_write.md R302;
10_state.md R41 to R44). -/
def Obligations.SetWindowArms : Prop :=
  ∀ (x0 y0 x1 y1 : Half) (s : State), s.ctl = .ready → s.cfg.variant = .color →
    x0 ≤ x1 → x1 < s.cfg.width → y0 ≤ y1 → y1 < s.cfg.height → s.busOk (unitsWrites s.cfg (windowUnits s.cfg x0 y0 x1 y1)) →
    ∃ t : State, exec (.setWindow x0 y0 x1 y1) s = .next t ∧
      t.registers = ({ s with
        lastResult := .ok, wx0 := x0, wy0 := y0, wx1 := x1, wy1 := y1, armed := true, curX := x0, curY := y0,
        remaining := BitVec.ofNat 32 ((x1.toNat - x0.toNat + 1) * (y1.toNat - y0.toNat + 1)) } : State).registers ∧
      Ended s t (unitsEvents s.cfg (windowUnits s.cfg x0 y0 x1 y1)) (unitsWrites s.cfg (windowUnits s.cfg x0 y0 x1 y1)) .ok 0

/-- SET_WINDOW's segment, event by event (41_window_write.md R309). -/
def Obligations.SetWindowSegment : Prop :=
  ∀ (x0 y0 x1 y1 : Half) (s : State), s.ctl = .ready → s.cfg.variant = .color →
    x0 ≤ x1 → x1 < s.cfg.width → y0 ≤ y1 → y1 < s.cfg.height → s.busOk 11 →
    ∃ t : State, exec (.setWindow x0 y0 x1 y1) s = .next t ∧ t.trace = s.trace ++
      [.dc .cmd, .csAssert, .byte 0x2A, .csDeassert,
       .dc .data, .csAssert, .byte (x0.extractLsb' 8 8), .byte (x0.extractLsb' 0 8), .byte (x1.extractLsb' 8 8),
       .byte (x1.extractLsb' 0 8), .csDeassert,
       .dc .cmd, .csAssert, .byte s.cfg.cmdRaset, .csDeassert,
       .dc .data, .csAssert, .byte (y0.extractLsb' 8 8), .byte (y0.extractLsb' 0 8), .byte (y1.extractLsb' 8 8),
       .byte (y1.extractLsb' 0 8), .csDeassert,
       .dc .cmd, .csAssert, .byte s.cfg.cmdRamwr, .csDeassert]

/-- WRITE_WORD sends one word, high byte first, and advances the cursor in row-major order; the last word of the window
disarms it and leaves `cur_y` one below the window's last row (41_window_write.md R303, R307). -/
def Obligations.WriteWordAdvances : Prop :=
  ∀ (color : Half) (s : State), s.ctl = .ready → s.cfg.variant = .color → s.armed = true → s.busOk 2 →
    (∃ t : State, exec (.writeWord color) s = .next t ∧
      t.registers = ({ s with
        lastResult := .ok
        curX := if s.curX = s.wx1 then s.wx0 else s.curX + 1
        curY := if s.curX = s.wx1 then s.curY + 1 else s.curY
        remaining := s.remaining - 1
        armed := if s.remaining = 1 then false else true } : State).registers ∧
      Ended s t [.dc .data, .csAssert, .byte (color.extractLsb' 8 8), .byte (color.extractLsb' 0 8), .csDeassert] 2 .ok 0) ∧
    (s.WindowOk → s.remaining = 1 → s.curX = s.wx1 ∧ s.curY = s.wy1) ∧
    (s.WindowOk → (s.curY + 1).toNat = s.curY.toNat + 1)

/-- PUT_PIXEL sends the window `(x, y, x+1, y+1)` and one word, also at the last column and row (41_window_write.md R304,
90_conflicts.md C1, 70_reset_and_hazards.md R714). -/
def Obligations.PutPixelWrites : Prop :=
  ∀ (x y color : Half) (s : State), s.ctl = .ready → s.cfg.variant = .color → x < s.cfg.width → y < s.cfg.height →
    s.busOk (unitsWrites s.cfg (putPixelUnits s.cfg x y color)) →
    ∃ t : State, exec (.putPixel x y color) s = .next t ∧
      t.registers = ({ s with
        lastResult := .ok, wx0 := x, wy0 := y, wx1 := x + 1, wy1 := y + 1, armed := false, remaining := 0 } : State).registers ∧
      (x + 1).toNat = x.toNat + 1 ∧ (y + 1).toNat = y.toNat + 1 ∧
      Ended s t (unitsEvents s.cfg (putPixelUnits s.cfg x y color)) (unitsWrites s.cfg (putPixelUnits s.cfg x y color)) .ok 0

/-- FILL_RECT sends the window once and then one data unit of one word for each cell (41_window_write.md R305). -/
def Obligations.FillRectWrites : Prop :=
  ∀ (x0 y0 x1 y1 color : Half) (s : State), s.ctl = .ready → s.cfg.variant = .color →
    x0 ≤ x1 → x1 < s.cfg.width → y0 ≤ y1 → y1 < s.cfg.height →
    s.busOk (11 + 2 * ((x1.toNat - x0.toNat + 1) * (y1.toNat - y0.toNat + 1))) →
    ∃ t : State, exec (.fillRect x0 y0 x1 y1 color) s = .next t ∧
      t.registers = ({ s with
        lastResult := .ok, wx0 := x0, wy0 := y0, wx1 := x1, wy1 := y1, armed := false, remaining := 0 } : State).registers ∧
      Ended s t
        (unitsEvents s.cfg (fillRectUnits s.cfg x0 y0 x1 y1 color ((x1.toNat - x0.toNat + 1) * (y1.toNat - y0.toNat + 1))))
        (11 + 2 * ((x1.toNat - x0.toNat + 1) * (y1.toNat - y0.toNat + 1))) .ok 0

/-- WIN_FAIL: a colour request whose byte write number `k` fails closes the failing unit, sends no later one, disarms the
window, returns to `Ready` and completes with `TransportError`; the window latch written before the failure stays written
(41_window_write.md R306, 60_exceptions.md R612). -/
def Obligations.WindowRequestFails : Prop :=
  ∀ (s : State) (k : Nat), s.ctl = .ready → s.cfg.variant = .color → s.busFailsAt k →
    (∀ x0 y0 x1 y1 : Half, x0 ≤ x1 → x1 < s.cfg.width → y0 ≤ y1 → y1 < s.cfg.height →
      (k < unitsWrites s.cfg (windowUnits s.cfg x0 y0 x1 y1) →
        ∃ t : State, exec (.setWindow x0 y0 x1 y1) s = .next t ∧
          t.registers = ({ s with
            lastResult := .transportError, wx0 := x0, wy0 := y0, wx1 := x1, wy1 := y1, armed := false,
            remaining := 0 } : State).registers ∧
          Ended s t (unitsFailEvents s.cfg k (windowUnits s.cfg x0 y0 x1 y1)) (k + 1) .transportError 0) ∧
      (∀ color : Half, k < 11 + 2 * ((x1.toNat - x0.toNat + 1) * (y1.toNat - y0.toNat + 1)) →
        ∃ t : State, exec (.fillRect x0 y0 x1 y1 color) s = .next t ∧
          t.registers = ({ s with
            lastResult := .transportError, wx0 := x0, wy0 := y0, wx1 := x1, wy1 := y1, armed := false,
            remaining := 0 } : State).registers ∧
          Ended s t (unitsFailEvents s.cfg k
            (fillRectUnits s.cfg x0 y0 x1 y1 color ((x1.toNat - x0.toNat + 1) * (y1.toNat - y0.toNat + 1)))) (k + 1)
            .transportError 0)) ∧
    (∀ x y color : Half, x < s.cfg.width → y < s.cfg.height → k < unitsWrites s.cfg (putPixelUnits s.cfg x y color) →
      ∃ t : State, exec (.putPixel x y color) s = .next t ∧
        t.registers = ({ s with
          lastResult := .transportError, wx0 := x, wy0 := y, wx1 := x + 1, wy1 := y + 1, armed := false,
          remaining := 0 } : State).registers ∧
        Ended s t (unitsFailEvents s.cfg k (putPixelUnits s.cfg x y color)) (k + 1) .transportError 0) ∧
    (∀ color : Half, s.armed = true → k < 2 →
      ∃ t : State, exec (.writeWord color) s = .next t ∧
        t.registers = ({ s with lastResult := .transportError, armed := false, remaining := 0 } : State).registers ∧
        Ended s t (unitsFailEvents s.cfg k [wordsUnit [color]]) (k + 1) .transportError 0)

/-! ### The monochrome requests -/

/-- MONO_SET_PIXEL writes one bit of one byte of the buffer to `v` and nothing else but `last_result`; it emits no event
and is accepted under lock (42_mono_buffer.md R401). -/
def Obligations.MonoSetPixelWrites : Prop :=
  ∀ (x y : Half) (v : BitVec 1) (s : State), s.ctl = .ready → s.cfg.variant = .mono → x < s.cfg.width →
    y < s.cfg.height → s.buf.wf = true →
    ∃ m : Memory, exec (.monoSetPixel x y v) s =
        .next { s with buf := m, lastResult := .ok, repliesRev := .response .ok 0 :: s.repliesRev } ∧
      ∀ a : Nat, Memory.read m a =
        if a = y.toNat / 8 * s.cfg.width.toNat + x.toNat then
          (Memory.read s.buf a &&& ~~~((1 : Byte) <<< (y.toNat % 8))) ||| (v.setWidth 8 <<< (y.toNat % 8))
        else Memory.read s.buf a

/-- MONO_GET_PIXEL reads one bit into `rdata` and returns it; the buffer is unchanged (42_mono_buffer.md R402,
30_encoding.md R121). -/
def Obligations.MonoGetPixelReads : Prop :=
  ∀ (x y : Half) (s : State), s.ctl = .ready → s.cfg.variant = .mono → x < s.cfg.width → y < s.cfg.height →
    ∃ v : BitVec 1,
      (v = 1 ↔ (Memory.read s.buf (y.toNat / 8 * s.cfg.width.toNat + x.toNat)).getLsbD (y.toNat % 8) = true) ∧
      exec (.monoGetPixel x y) s =
        .next { s with rdata := v, lastResult := .ok, repliesRev := .response .ok (BitVec.ofNat 8 v.toNat) :: s.repliesRev }

/-- MONO_CLEAR zeroes every byte of the buffer, under lock too, and sends nothing (42_mono_buffer.md R403). -/
def Obligations.MonoClearZeroes : Prop :=
  ∀ s : State, s.ctl = .ready → s.cfg.variant = .mono →
    ∃ m : Memory, exec .monoClear s =
        .next { s with buf := m, lastResult := .ok, repliesRev := .response .ok 0 :: s.repliesRev } ∧
      ∀ a : Nat, Memory.read m a = 0

/-- MONO_FLUSH of an unlocked buffer sends every page in increasing order, its preamble as command units and its bytes as
one data unit, and changes no register but `last_result` (42_mono_buffer.md R404, 30_encoding.md R135). -/
def Obligations.MonoFlushStreams : Prop :=
  ∀ s : State, s.ctl = .ready → s.cfg.variant = .mono → s.lock = false →
    s.busOk (unitsWrites s.cfg (flushUnits s.cfg s.buf)) →
    ∃ t : State, exec .monoFlush s = .next t ∧
      t.registers = ({ s with lastResult := .ok } : State).registers ∧
      Ended s t (unitsEvents s.cfg (flushUnits s.cfg s.buf)) (unitsWrites s.cfg (flushUnits s.cfg s.buf)) .ok 0

/-- A failed MONO_FLUSH returns to `Ready`, not to `Uninitialized`, with `TransportError`, the buffer intact and no later
byte or page sent (42_mono_buffer.md R405). -/
def Obligations.MonoFlushFails : Prop :=
  ∀ (s : State) (k : Nat), s.ctl = .ready → s.cfg.variant = .mono → s.lock = false →
    k < unitsWrites s.cfg (flushUnits s.cfg s.buf) → s.busFailsAt k →
    ∃ t : State, exec .monoFlush s = .next t ∧
      t.registers = ({ s with lastResult := .transportError } : State).registers ∧
      Ended s t (unitsFailEvents s.cfg k (flushUnits s.cfg s.buf)) (k + 1) .transportError 0

/-- LOCK_BUFFER and UNLOCK_BUFFER write the flag whatever it held, in `Uninitialized` and in `Ready`; a busy block rejects
them, a Color block completes with `IllegalRequest` (43_control.md R452, R453). -/
def Obligations.LockAndUnlock : Prop :=
  ∀ s : State,
    (s.ctl ≠ .busy → s.cfg.variant = .mono →
      exec .lockBuffer s = .next { s with lock := true, lastResult := .ok, repliesRev := .response .ok 0 :: s.repliesRev } ∧
      exec .unlockBuffer s =
        .next { s with lock := false, lastResult := .ok, repliesRev := .response .ok 0 :: s.repliesRev }) ∧
    (s.ctl = .busy → exec .lockBuffer s = .next (rejectedBusy s) ∧ exec .unlockBuffer s = .next (rejectedBusy s)) ∧
    (s.ctl ≠ .busy → s.cfg.variant = .color →
      exec .lockBuffer s = .next (refusedWith .illegalRequest s) ∧
      exec .unlockBuffer s = .next (refusedWith .illegalRequest s))

/-- Setting a pixel and then getting it returns the value set (42_mono_buffer.md R406 a). -/
def Obligations.PixelRoundTrip : Prop :=
  ∀ (x y : Half) (v : BitVec 1) (s t u : State), s.buf.wf = true →
    s.ctl = .ready → s.cfg.variant = .mono → x < s.cfg.width → y < s.cfg.height →
    exec (.monoSetPixel x y v) s = .next t → exec (.monoGetPixel x y) t = .next u →
    u.rdata = v ∧ u.repliesRev.head? = some (.response .ok (BitVec.ofNat 8 v.toNat))

/-- MONO_SET_PIXEL changes what MONO_GET_PIXEL returns for no other point of the panel (42_mono_buffer.md R407). -/
def Obligations.PixelIndependence : Prop :=
  ∀ (x y x' y' : Half) (v : BitVec 1) (s t u w : State), s.buf.wf = true →
    s.ctl = .ready → s.cfg.variant = .mono → x < s.cfg.width → y < s.cfg.height → x' < s.cfg.width → y' < s.cfg.height →
    (x', y') ≠ (x, y) → exec (.monoSetPixel x y v) s = .next t →
    exec (.monoGetPixel x' y') t = .next u → exec (.monoGetPixel x' y') s = .next w → u.rdata = w.rdata

/-- Flushing twice sends the same segment twice (42_mono_buffer.md R406 b). -/
def Obligations.FlushIdempotent : Prop :=
  ∀ s : State, s.ctl = .ready → s.cfg.variant = .mono → s.lock = false →
    s.busOk (2 * unitsWrites s.cfg (flushUnits s.cfg s.buf)) →
    ∃ (t u : State) (segment : List Event), exec .monoFlush s = .next t ∧ exec .monoFlush t = .next u ∧
      t.trace = s.trace ++ segment ∧ u.trace = t.trace ++ segment ∧ t.lastResult = .ok ∧ u.lastResult = .ok

/-! ### Words of the wire and of the ROM run by themselves (log 8) -/

/-- The wire commands run by themselves: each sends its units as 30_encoding.md R131, R132, R135 and 40_init_sequencer.md
R206 lay them out and writes no register, and a failed byte closes its unit, ends the word and disarms the window (10_state.md
R42). A page word stops for a page the block's buffer does not have, which is the model's choice (log 16), and on an
`Uninitialized` block, whose buffer may not be read (40_init_sequencer.md R208, 10_state.md R51). That a word runs alone is
the model's own (log 8). -/
def Obligations.WireWordsSend : Prop :=
  ∀ (s : State) (i : Instr) (us : List (Kind × List Byte)),
    ((∃ x0 x1 : Half, i = .caset x0 x1 ∧
        us = [(.cmd, [0x2A]), (.data, [x0.extractLsb' 8 8, x0.extractLsb' 0 8, x1.extractLsb' 8 8, x1.extractLsb' 0 8])]) ∨
      (∃ y0 y1 : Half, i = .raset y0 y1 ∧
        us = [(.cmd, [s.cfg.cmdRaset]), (.data, [y0.extractLsb' 8 8, y0.extractLsb' 0 8, y1.extractLsb' 8 8, y1.extractLsb' 0 8])]) ∨
      (i = .ramwr ∧ us = [(.cmd, [s.cfg.cmdRamwr])]) ∨
      (i = .dispon ∧ us = [(.cmd, [s.cfg.cmdDispon])]) ∨
      (∃ p, p < s.cfg.pageCount ∧ s.ctl ≠ .uninitialized ∧ i = .pagePreamble p ∧ us = pageUnits s.cfg s.buf p)) →
    (s.busOk (unitsWrites s.cfg us) →
      ∃ t : State, exec i s = .next t ∧ t.registers = s.registers ∧
        Emitted s t (unitsEvents s.cfg us ++ if i = .dispon then waitEvents s.cfg.disponDelayUs else [])
          (unitsWrites s.cfg us)) ∧
    (∀ k, k < unitsWrites s.cfg us → s.busFailsAt k →
      ∃ t : State, exec i s = .next t ∧ t.registers = ({ s with armed := false, remaining := 0 } : State).registers ∧
        Emitted s t (unitsFailEvents s.cfg k us) (k + 1)) ∧
    ∀ p, (exec (.pagePreamble p) s = .fault .noSuchPage ↔ s.cfg.variant = .color ∨ s.cfg.height.toNat / 8 ≤ p) ∧
      (exec (.pagePreamble p) s = .fault .bufferUnreadable ↔
        s.cfg.variant = .mono ∧ p < s.cfg.height.toNat / 8 ∧ s.ctl = .uninitialized)

/-- The ROM records run by themselves: an entry sends its units and its delay, an image does so for every entry in order,
and neither writes a register, `seq_idx` being INIT's alone (10_state.md R33); a failed byte closes its unit, ends the word
and disarms the window (R42). That a record runs alone is the model's own (log 8); what it sends is 40_init_sequencer.md
R203 to R205. -/
def Obligations.RomWordsReplay : Prop :=
  ∀ (s : State) (e : CommandEntry) (es : List CommandEntry),
    (s.busOk (entryWrites s.cfg e) →
      ∃ t : State, exec (.tableEntry e) s = .next t ∧ t.registers = s.registers ∧
        Emitted s t (entryEvents s.cfg e) (entryWrites s.cfg e)) ∧
    (s.busOk (es.map (entryWrites s.cfg)).sum →
      ∃ t : State, exec (.tableImage es) s = .next t ∧ t.registers = s.registers ∧
        Emitted s t (es.flatMap (entryEvents s.cfg)) (es.map (entryWrites s.cfg)).sum) ∧
    (∀ k, k < entryWrites s.cfg e → s.busFailsAt k →
      ∃ t : State, exec (.tableEntry e) s = .next t ∧
        t.registers = ({ s with armed := false, remaining := 0 } : State).registers ∧
        Emitted s t (tableFailEvents s.cfg k [e]) (k + 1)) ∧
    (∀ k, k < (es.map (entryWrites s.cfg)).sum → s.busFailsAt k →
      ∃ t : State, exec (.tableImage es) s = .next t ∧
        t.registers = ({ s with armed := false, remaining := 0 } : State).registers ∧
        Emitted s t (tableFailEvents s.cfg k es) (k + 1))

/-! ### The wire primitives -/

/-- `PinRst` appends one event and drives the reset line (20_memory.md R82); `Wait(0)` does nothing (R84) and `Wait(n)`
appends one delay (R83); none of them can fail. With no host action in the gaps. -/
def Obligations.PinAndWait : Prop :=
  ∀ (s : State) (level : Bool) (n : Long), s.arrivals = [] →
    doAct (.pinRst level) s = ({ s with pinRst := level, traceRev := .rst level :: s.traceRev }, .ok) ∧
    doAct (.wait 0) s = (s, .ok) ∧
    (n ≠ 0 → doAct (.wait n) s = ({ s with traceRev := .delay n :: s.traceRev }, .ok))

/-- A unit, framed on SPI by the data/command line and chip-select and on I2C by START, its control byte and STOP: whole
when every byte is answered ok, and otherwise closed after its first failed byte, with no byte after that attempted
(20_memory.md R85, R86). -/
def Obligations.UnitFraming : Prop :=
  ∀ (s : State) (k : Kind) (payload : List Byte),
    (s.cfg.transport.isSpi = true →
      (s.busOk payload.length → ∃ t : State, sendUnit k payload s = (t, .ok) ∧ t.registers = s.registers ∧
        t.trace = s.trace ++ (Event.dc k :: Event.csAssert :: (payload.map Event.byte ++ [Event.csDeassert])) ∧
        t.pinCs = false ∧ t.pinDc = (k == .data)) ∧
      (∀ (before after : List Byte) (b : Byte), payload = before ++ b :: after → s.busFailsAt before.length →
        ∃ t : State, sendUnit k payload s = (t, .fail) ∧ t.registers = s.registers ∧
          t.trace = s.trace ++
            (Event.dc k :: Event.csAssert :: (before.map Event.byte ++ [Event.fail b, Event.csDeassert])) ∧
          t.pinCs = false ∧ t.pinDc = (k == .data))) ∧
    (s.cfg.transport.isSpi = false → ∀ control : Byte,
      control = (match k with | .cmd => s.cfg.ctrlCmd | .data => s.cfg.ctrlData) →
      (s.busOk (payload.length + 1) → ∃ t : State, sendUnit k payload s = (t, .ok) ∧ t.registers = s.registers ∧
        t.trace = s.trace ++ (Event.i2cStart :: Event.byte control :: (payload.map Event.byte ++ [Event.i2cStop]))) ∧
      (s.busFailsAt 0 → ∃ t : State, sendUnit k payload s = (t, .fail) ∧ t.registers = s.registers ∧
        t.trace = s.trace ++ [Event.i2cStart, Event.fail control, Event.i2cStop]) ∧
      (∀ (before after : List Byte) (b : Byte), payload = before ++ b :: after → s.busFailsAt (before.length + 1) →
        ∃ t : State, sendUnit k payload s = (t, .fail) ∧ t.registers = s.registers ∧
          t.trace = s.trace ++
            (Event.i2cStart :: Event.byte control :: (before.map Event.byte ++ [Event.fail b, Event.i2cStop]))))

/-- The wire under the trace. On SPI a byte is, for bits 7 down to 0, data line driven, clock high, clock low (20_memory.md R93,
R94), and the pin sequence follows the trace event by event; of a failed byte some first bit-steps take place, how many being
open (R94, log 14). On I2C, START puts the address byte on the wire and each byte itself (30_encoding.md R134); a failed byte
stands there or not (log 14). So a unit whose every byte is answered ok is on SPI its select line, its bytes between the
chip-select edges, and on I2C the address byte, the control byte, the payload. That the one sequence is given on SPI only and
the other on I2C only is the model's choice (log 18). -/
def Obligations.BitBangedByte : Prop :=
  (∀ b : Byte, byteSteps b =
    [.mosi (b.getLsbD 7), .sclk true, .sclk false, .mosi (b.getLsbD 6), .sclk true, .sclk false,
     .mosi (b.getLsbD 5), .sclk true, .sclk false, .mosi (b.getLsbD 4), .sclk true, .sclk false,
     .mosi (b.getLsbD 3), .sclk true, .sclk false, .mosi (b.getLsbD 2), .sclk true, .sclk false,
     .mosi (b.getLsbD 1), .sclk true, .sclk false, .mosi (b.getLsbD 0), .sclk true, .sclk false]) ∧
  (∀ s : State, s.cfg.transport.isSpi = true → s.i2cTrace = none ∧ ∃ pins : List PinStep, s.pinTrace = some pins ∧
    (s.trace = [] → pins = []) ∧
    (∀ (t : State) (e : Event), t.cfg = s.cfg → t.trace = s.trace ++ [e] →
      match e with
      | .rst level => t.pinTrace = some (pins ++ [.rst level])
      | .delay _ => t.pinTrace = some pins
      | .dc k => t.pinTrace = some (pins ++ [.dc (k == .data)])
      | .csAssert => t.pinTrace = some (pins ++ [.cs true])
      | .csDeassert => t.pinTrace = some (pins ++ [.cs false])
      | .i2cStart => t.pinTrace = some pins
      | .i2cStop => t.pinTrace = some pins
      | .byte b => t.pinTrace = some (pins ++ byteSteps b)
      | .fail b => ∃ done, done ≤ 8 ∧ t.pinTrace = some (pins ++ (byteSteps b).take (3 * done))) ∧
    ∀ (k : Kind) (payload : List Byte), s.busOk payload.length → ∃ t : State, sendUnit k payload s = (t, .ok) ∧
      t.pinTrace = some (pins ++ .dc (k == .data) :: .cs true :: (payload.flatMap byteSteps ++ [.cs false]))) ∧
  ∀ s : State, s.cfg.transport.isSpi = false → s.pinTrace = none ∧ ∃ wire : List Byte, s.i2cTrace = some wire ∧
    (s.trace = [] → wire = []) ∧
    (∀ (t : State) (e : Event), t.cfg = s.cfg → t.trace = s.trace ++ [e] →
      match e with
      | .i2cStart => t.i2cTrace = some (wire ++ [BitVec.ofNat 8 (2 * s.cfg.i2cAddr.toNat)])
      | .byte b => t.i2cTrace = some (wire ++ [b])
      | .fail b => t.i2cTrace = some (wire ++ [b]) ∨ t.i2cTrace = some wire
      | .i2cStop => t.i2cTrace = some wire
      | .rst _ => t.i2cTrace = some wire
      | .delay _ => t.i2cTrace = some wire
      | .dc _ => t.i2cTrace = some wire
      | .csAssert => t.i2cTrace = some wire
      | .csDeassert => t.i2cTrace = some wire) ∧
    ∀ (k : Kind) (payload : List Byte), s.busOk (payload.length + 1) → ∃ t : State, sendUnit k payload s = (t, .ok) ∧
      t.i2cTrace = some (wire ++ BitVec.ofNat 8 (2 * s.cfg.i2cAddr.toNat) ::
        (match k with | .cmd => s.cfg.ctrlCmd | .data => s.cfg.ctrlData) :: payload)

/-! ### Rules of the whole machine -/

/-- The invariant holds after block reset whatever the unspecified fields hold, and at `State.reset` (10_state.md R50, R53). -/
def Obligations.InvAtReset : Prop :=
  (∀ (c : Cfg) (u : Unspecified), u.buf.wf = true → u.buf.within (bufferSize c) = true → (State.blockReset c u).Inv) ∧
  State.reset.Inv

/-- Every step keeps the invariant: 10_state.md R53 (a) to (d), the range of `fail_step`, the buffer's canonical form and
size, and the fields a variant does not have. -/
def Obligations.StepKeepsInv : Prop :=
  ∀ s t : State, s.Inv → step s = .next t → t.Inv

/-- No step writes the configuration, the init table included (00_scope.md R11, 20_memory.md R73). -/
def Obligations.ConfigurationFixed : Prop :=
  ∀ s t : State, step s = .next t → t.cfg = s.cfg

/-- Every step keeps the framing of the trace: each unit is opened and closed, failed or not, the data/command line moves
only between units, the event after a failed byte is the closing event (20_memory.md R89, R90, 43_control.md R456), whatever level
chip-select had; and a released chip-select is released after the step. -/
def Obligations.StepKeepsFraming : Prop :=
  ∀ s t : State, step s = .next t → (s.wellFramed → t.wellFramed) ∧ (s.pinCs = false → t.pinCs = false)

/-- A step from a block that is not busy ends in a block that is not busy, with no context left: exclusive access is
released on every path (43_control.md R455, 10_state.md R47). -/
def Obligations.StepKeepsQuiet : Prop :=
  ∀ s t : State, s.Quiet → step s = .next t → t.Quiet

/-- The controller state after an instruction is the one before it, but after INIT: `Ready` with `Ok`, `Uninitialized` with
`InitFailed` (10_state.md R35, whose passage through `Busy` lies inside the step). -/
def Obligations.StateTransitions : Prop :=
  ∀ (i : Instr) (s t : State), exec i s = .next t →
    t.ctl = s.ctl ∨
    (i = .init ∧ s.ctl ≠ .busy ∧
      ((t.ctl = .ready ∧ t.lastResult = .ok) ∨ (t.ctl = .uninitialized ∧ t.lastResult = .initFailed)))

/-- Which instruction writes which state (10_state.md R52, with R33, R42 and R46). A word of the wire or of the ROM run by
itself (log 8) writes no register, but for the window that its failed byte disarms. -/
def Obligations.WhoWritesWhat : Prop :=
  ∀ (i : Instr) (s t : State), exec i s = .next t →
    (t.lock ≠ s.lock → i = .lockBuffer ∨ i = .unlockBuffer) ∧
    (t.initFailed ≠ s.initFailed ∨ t.failStep ≠ s.failStep ∨ t.pinRst ≠ s.pinRst → i = .init) ∧
    (t.rdata ≠ s.rdata → ∃ x y, i = .monoGetPixel x y) ∧
    (t.buf ≠ s.buf → i = .init ∨ i = .monoClear ∨ ∃ x y v, i = .monoSetPixel x y v) ∧
    (t.armed ≠ s.armed ∨ t.remaining ≠ s.remaining → i = .init ∨ colorOnly i ∨
      (i.surface ≠ .request ∧ t.armed = false ∧ t.remaining = 0 ∧ ∃ evs b, t.trace = s.trace ++ evs ∧ Event.fail b ∈ evs)) ∧
    ((t.wx0, t.wy0, t.wx1, t.wy1) ≠ (s.wx0, s.wy0, s.wx1, s.wy1) →
      (∃ x0 y0 x1 y1, i = .setWindow x0 y0 x1 y1) ∨ (∃ x y color, i = .putPixel x y color) ∨
        ∃ x0 y0 x1 y1 color, i = .fillRect x0 y0 x1 y1 color) ∧
    ((t.curX, t.curY) ≠ (s.curX, s.curY) →
      (∃ x0 y0 x1 y1, i = .setWindow x0 y0 x1 y1) ∨ ∃ color, i = .writeWord color) ∧
    (t.seqIdx ≠ s.seqIdx → i = .init) ∧
    (t.lastResult ≠ s.lastResult → i.surface = .request) ∧
    t.cfg = s.cfg ∧ t.latch = s.latch

/-- Exactly one completion code results from a request, the last thing the host is told, and unless the request was
rejected it is also `last_result`; whatever else the host was told meanwhile are rejections and register values of the
gaps (60_exceptions.md R610, 10_state.md R39). -/
def Obligations.OneCompletion : Prop :=
  ∀ (r : Request) (s : State), ∃ (t : State) (code : Code) (v : Byte) (l : List Reply),
    exec (decodeRequest r) s = .next t ∧ t.repliesRev = .response code v :: (l ++ s.repliesRev) ∧
    (∀ reply ∈ l, reply.inGap) ∧ (s.arrivals = [] → l = []) ∧
    (s.ctl ≠ .busy → t.lastResult = code) ∧ (s.ctl = .busy → code = .busyError ∧ t.lastResult = s.lastResult)

/-- An instruction attempts no byte after a failed one: what it appends to the trace has no `Fail`, or ends with one `Fail`
and the closing event of its unit. A request whose segment has a `Fail` ends with `TransportError` or `InitFailed`, and one
whose segment has none ends with neither (60_exceptions.md R601, R607, R612; 43_control.md R457). -/
def Obligations.OneFailAtMost : Prop :=
  ∀ (i : Instr) (s t : State), exec i s = .next t → ∃ evs : List Event, t.trace = s.trace ++ evs ∧
    (((∀ b, Event.fail b ∉ evs) ∧
        (i.surface = .request → s.ctl ≠ .busy → t.lastResult ≠ .transportError ∧ t.lastResult ≠ .initFailed)) ∨
      (∃ (before : List Event) (b : Byte), evs = before ++ .fail b :: closeEvents s.cfg ∧ (∀ b', Event.fail b' ∉ before) ∧
        (i.surface = .request → t.lastResult = if i = .init then .initFailed else .transportError)))

/-- A request is not disturbed by what arrives while it runs, and what arrives is answered. The registers, the trace, the pins,
the bus, the waiting requests and the request's own response are exactly those of the same request with nothing arriving
(43_control.md R451). In a gap a request is answered `BusyError` and a read the register's value as it stands (10_state.md R47,
20_memory.md R102 c, 43_control.md R451, R454). Where the gaps lie and what stands in them are the model's choices. A request
whose segment is `evs` takes `evs.length + 1` of the gaps' lists, one before each event and one before Busy is left, and one
that emits nothing takes none (log 4). State writes with no event between them happen in one instant (log 17, DEDUCED): the gaps
before the events show the opening writes made, `Busy` and any window disarmed but by WRITE_WORD and MONO_FLUSH; the last gap
shows the closing writes made, the registers as the request leaves them, with `Busy` and the old result still standing. A word
of the wire or of the ROM takes the gaps before its events, and a request that arrives while the block is not busy waits its
turn (log 8). -/
def Obligations.ArrivalsDoNotDisturb : Prop :=
  (∀ (r : Request) (s t u : State), exec (decodeRequest r) s = .next t →
    exec (decodeRequest r) { s with arrivals := [] } = .next u →
    t.registers = u.registers ∧ t.trace = u.trace ∧ (t.pinCs, t.pinDc) = (u.pinCs, u.pinDc) ∧
    (∀ k, t.answerAt k = u.answerAt k) ∧ t.inbox = u.inbox ∧ t.script = u.script ∧ t.unitLeft = u.unitLeft ∧
    ∃ (code : Code) (v : Byte) (l : List Reply), (∀ reply ∈ l, reply.inGap) ∧
      u.repliesRev = .response code v :: s.repliesRev ∧ t.repliesRev = .response code v :: (l ++ s.repliesRev)) ∧
  (∀ (r : Request) (s t q : State), exec (decodeRequest r) s = .next t →
    ((decodeRequest r = .monoFlush ∨ ∃ color, decodeRequest r = .writeWord color) → q = { s with ctl := .busy }) →
    (¬ (decodeRequest r = .monoFlush ∨ ∃ color, decodeRequest r = .writeWord color) →
      q = { s with ctl := .busy, armed := false, remaining := 0 }) →
    ∃ (evs : List Event) (code : Code) (v : Byte), t.trace = s.trace ++ evs ∧
      (evs = [] → t.arrivals = s.arrivals ∧ t.replies = s.replies ++ [.response code v]) ∧
      (evs ≠ [] → t.arrivals = s.arrivals.drop (evs.length + 1) ∧
        t.replies = s.replies ++ (s.arrivals.take evs.length).flatten.flatMap (gapReply q) ++
          (s.arrivals.getD evs.length []).flatMap (gapReply { t with ctl := .busy, lastResult := s.lastResult }) ++
          [.response code v])) ∧
  ∀ (i : Instr) (s t : State), i.surface ≠ .request → exec i s = .next t → ∃ evs : List Event, t.trace = s.trace ++ evs ∧
    t.arrivals = s.arrivals.drop evs.length ∧
    t.replies = s.replies ++ (s.arrivals.take evs.length).flatten.flatMap (gapReply s) ∧
    t.inbox = s.inbox ++ (s.arrivals.take evs.length).flatten.flatMap (gapRequest s)

/-- Hardware and software transport agree: with the transport exchanged for the other one of its bus, every instruction
gives the same outcome, so the same trace, the same pins on SPI and the same bytes on the I2C wire (20_memory.md R95). Nothing
arrives in the gaps: a read of CFG_KIND would tell the two apart (10_state.md R48). -/
def Obligations.TransportsAgree : Prop :=
  ∀ (i : Instr) (s : State) (c : Cfg), s.arrivals = [] → c.transport.isSpi = s.cfg.transport.isSpi →
    c.toRawCfg = { s.cfg.toRawCfg with transport := c.transport } →
    match exec i s with
    | .next t => exec i { s with cfg := c } = .next { t with cfg := c } ∧ ({ t with cfg := c } : State).pinTrace = t.pinTrace ∧
        ({ t with cfg := c } : State).i2cTrace = t.i2cTrace
    | .fault f => exec i { s with cfg := c } = .fault f
    | .refused r => exec i { s with cfg := c } = .refused r

/-! ### The attached panel, through the observers of 20_memory.md -/

/-- After PUT_PIXEL the observer's pixel `(x, y)` holds the colour and every other pixel what it held, and no case of
20_memory.md R108 occurred (41_window_write.md R310), for command bytes that can be told apart. At the last column or row the
window sent ends one past the panel, and of a real panel nothing may be concluded there (93_implementation_defined.md U6). -/
def Obligations.PanelAfterPutPixel : Prop :=
  ∀ (x y color : Half) (s : State), s.ctl = .ready → s.cfg.variant = .color → x < s.cfg.width → y < s.cfg.height →
    [cmdCaset, s.cfg.cmdRaset, s.cfg.cmdRamwr].Nodup → s.busOk (unitsWrites s.cfg (putPixelUnits s.cfg x y color)) →
    ∃ t : State, exec (.putPixel x y color) s = .next t ∧
      (observe s.cfg t.trace).leftOpen = (observe s.cfg s.trace).leftOpen ∧
      ∀ i j : Nat, (observe s.cfg t.trace).pixel i j =
        if (i, j) = (x.toNat, y.toNat) then some color else (observe s.cfg s.trace).pixel i j

/-- After FILL_RECT every pixel of the rectangle holds the colour and every other pixel what it held, and no case of
20_memory.md R108 occurred, no word outside the window or the panel (41_window_write.md R310). -/
def Obligations.PanelAfterFillRect : Prop :=
  ∀ (x0 y0 x1 y1 color : Half) (s : State), s.ctl = .ready → s.cfg.variant = .color →
    x0 ≤ x1 → x1 < s.cfg.width → y0 ≤ y1 → y1 < s.cfg.height → [cmdCaset, s.cfg.cmdRaset, s.cfg.cmdRamwr].Nodup →
    s.busOk (11 + 2 * ((x1.toNat - x0.toNat + 1) * (y1.toNat - y0.toNat + 1))) →
    ∃ t : State, exec (.fillRect x0 y0 x1 y1 color) s = .next t ∧
      (observe s.cfg t.trace).leftOpen = (observe s.cfg s.trace).leftOpen ∧
      ∀ i j : Nat, (observe s.cfg t.trace).pixel i j =
        if (x0.toNat ≤ i ∧ i ≤ x1.toNat) ∧ y0.toNat ≤ j ∧ j ≤ y1.toNat then some color
        else (observe s.cfg s.trace).pixel i j

/-- Streaming: SET_WINDOW puts the observer's write pointer on the window's first cell, and each WRITE_WORD that finds the
pointer on the cursor writes its word there and leaves the pointer on the next cursor (41_window_write.md R310, R307). -/
def Obligations.PanelFollowsCursor : Prop :=
  ∀ s : State, s.ctl = .ready → s.cfg.variant = .color → [cmdCaset, s.cfg.cmdRaset, s.cfg.cmdRamwr].Nodup →
    (∀ x0 y0 x1 y1 : Half, x0 ≤ x1 → x1 < s.cfg.width → y0 ≤ y1 → y1 < s.cfg.height → s.busOk 11 →
      ∃ t : State, exec (.setWindow x0 y0 x1 y1) s = .next t ∧ t.Follows (observe t.cfg t.trace) ∧
        (observe t.cfg t.trace).cells = (observe s.cfg s.trace).cells) ∧
    (∀ color : Half, s.armed = true → s.WindowOk → s.Follows (observe s.cfg s.trace) → s.busOk 2 →
      ∃ t : State, exec (.writeWord color) s = .next t ∧ (t.armed = true → t.Follows (observe t.cfg t.trace)) ∧
        (observe t.cfg t.trace).leftOpen = (observe s.cfg s.trace).leftOpen ∧
        ∀ i j : Nat, (observe t.cfg t.trace).pixel i j =
          if (i, j) = (s.curX.toNat, s.curY.toNat) then some color else (observe s.cfg s.trace).pixel i j)

/-- A flush on a bus that answers ok leaves the buffer's bytes in the panel, under the parameter obligation that each page's
preamble positions the panel at that page (20_memory.md R109). How a preamble is found in the command bytes (`positionedAt`)
and what the observer does otherwise (`observeMono`) are the model's choices (log 15); no open case occurred in the flush. -/
def Obligations.PanelAfterFlush : Prop :=
  ∀ s : State, s.ctl = .ready → s.cfg.variant = .mono → s.lock = false →
    s.busOk (unitsWrites s.cfg (flushUnits s.cfg s.buf)) →
    (∀ p, p < s.cfg.pageCount → ∀ cmds : List Byte, positionedAt s.cfg (cmds ++ s.cfg.preamble p) = some p) →
    ∃ t : State, exec .monoFlush s = .next t ∧
      (observeMono s.cfg t.trace).leftOpen = (observeMono s.cfg s.trace).leftOpen ∧
      ∀ p col : Nat, p < s.cfg.pageCount → col < s.cfg.width.toNat →
        Memory.read (observeMono s.cfg t.trace).panel (p * s.cfg.width.toNat + col) =
          Memory.read s.buf (p * s.cfg.width.toNat + col)
end

