-- ==== Sys2Proof/Laws/Memory.lean ====
section
/-! SUPPORT. What reading and writing the page buffer do: a read after a write, and the canonical form. -/

namespace Sys2Proof.Machine

theorem Memory.read_above {m : Memory} {a : Nat} (h : m.above a = true) : Memory.read m a = Memory.unlisted := by
  induction m with
  | nil => rfl
  | cons c m ih =>
    simp only [Memory.above, List.all_cons, Bool.and_eq_true, decide_eq_true_eq] at h
    have hne : a ≠ c.1 := by omega
    simp only [Memory.read, hne, if_false]
    exact ih h.2

theorem Memory.above_mono {m : Memory} {a b : Nat} (hab : a ≤ b) (h : m.above b = true) : m.above a = true := by
  simp only [Memory.above, List.all_eq_true, decide_eq_true_eq] at h ⊢
  intro c hc
  have := h c hc
  omega

theorem Memory.above_entry {m : Memory} {a b : Nat} {v : Byte} (hab : b < a) (h : m.above b = true) :
    (Memory.entry a v m).above b = true := by
  unfold Memory.entry
  split
  · exact h
  · simpa [Memory.above, hab] using h

theorem Memory.above_write {m : Memory} {a b : Nat} {v : Byte} (hab : b < a) (h : m.above b = true) :
    (Memory.write m a v).above b = true := by
  induction m with
  | nil => exact Memory.above_entry hab h
  | cons c m ih =>
    have h' : b < c.1 ∧ Memory.above b m = true := by simpa [Memory.above] using h
    unfold Memory.write
    split
    · exact Memory.above_entry hab h
    split
    · exact Memory.above_entry hab h'.2
    · simpa [Memory.above, h'.1] using ih h'.2

theorem Memory.wf_entry {m : Memory} {a : Nat} {v : Byte} (hm : m.wf = true) (h : m.above a = true) :
    (Memory.entry a v m).wf = true := by
  unfold Memory.entry
  split
  · exact hm
  · rename_i hv
    simp [Memory.wf, hv, h, hm]

/-- A write keeps the canonical form. -/
theorem Memory.wf_write {m : Memory} {a : Nat} {v : Byte} (h : m.wf = true) : (Memory.write m a v).wf = true := by
  induction m with
  | nil => exact Memory.wf_entry rfl rfl
  | cons c m ih =>
    obtain ⟨b, w⟩ := c
    have h' := h
    simp only [Memory.wf, Bool.and_eq_true, decide_eq_true_eq] at h'
    unfold Memory.write
    split
    · rename_i hab
      refine Memory.wf_entry h ?_
      simpa [Memory.above, hab] using Memory.above_mono (Nat.le_of_lt hab) h'.1.2
    split
    · rename_i _ hab
      subst hab
      exact Memory.wf_entry h'.2 h'.1.2
    · have hba : b < a := by omega
      simp [Memory.wf, h'.1.1, Memory.above_write hba h'.1.2, ih h'.2]

theorem Memory.read_entry {m : Memory} {a b : Nat} {v : Byte} (h : m.above a = true) :
    Memory.read (Memory.entry a v m) b = if b = a then v else Memory.read m b := by
  unfold Memory.entry
  split
  · rename_i hv
    split
    · rename_i hb
      subst hb
      rw [Memory.read_above h, hv]
    · rfl
  · rfl

/-- A read after a write: the value written at its address, the old byte everywhere else. -/
theorem Memory.read_write {m : Memory} {a b : Nat} {v : Byte} (h : m.wf = true) :
    Memory.read (Memory.write m a v) b = if b = a then v else Memory.read m b := by
  induction m with
  | nil => exact Memory.read_entry rfl
  | cons c m ih =>
    obtain ⟨d, w⟩ := c
    have h' := h
    simp only [Memory.wf, Bool.and_eq_true, decide_eq_true_eq] at h'
    unfold Memory.write
    split
    · rename_i had
      refine Memory.read_entry ?_
      simpa [Memory.above, had] using Memory.above_mono (Nat.le_of_lt had) h'.1.2
    split
    · rename_i _ had
      subst had
      rw [Memory.read_entry h'.1.2]
      by_cases hb : b = a <;> simp [Memory.read, hb]
    · rename_i hlt hne
      simp only [Memory.read]
      by_cases hb : b = d
      · subst hb
        have : b ≠ a := by omega
        simp [this]
      · simp [hb, ih h'.2]

theorem Memory.within_entry {m : Memory} {n a : Nat} {v : Byte} (ha : a < n) (h : m.within n = true) :
    (Memory.entry a v m).within n = true := by
  unfold Memory.entry
  split
  · exact h
  · simpa [Memory.within, ha] using h

/-- A write inside a buffer keeps it inside. -/
theorem Memory.within_write {m : Memory} {n a : Nat} {v : Byte} (ha : a < n) (h : m.within n = true) :
    (Memory.write m a v).within n = true := by
  induction m with
  | nil => exact Memory.within_entry ha h
  | cons c m ih =>
    have h' : c.1 < n ∧ Memory.within n m = true := by simpa [Memory.within] using h
    unfold Memory.write
    split
    · exact Memory.within_entry ha h
    split
    · exact Memory.within_entry ha h'.2
    · simpa [Memory.within, h'.1] using ih h'.2

/-- The empty memory, which is the cleared buffer, reads 0 everywhere. -/
theorem Memory.read_nil (a : Nat) : Memory.read [] a = 0 := rfl

end Sys2Proof.Machine
end

