-- ==== Sys2Proof/Laws/State.lean ====
section
/-! SUPPORT. One lemma for each field of each record update, so that no proof unfolds one. -/

namespace Sys2Proof.Machine

/-! ### `State.reply` -/

@[simp] theorem State.reply_cfg (r : Reply) (s : State) : (s.reply r).cfg = s.cfg := rfl
@[simp] theorem State.reply_ctl (r : Reply) (s : State) : (s.reply r).ctl = s.ctl := rfl
@[simp] theorem State.reply_lock (r : Reply) (s : State) : (s.reply r).lock = s.lock := rfl
@[simp] theorem State.reply_initFailed (r : Reply) (s : State) : (s.reply r).initFailed = s.initFailed := rfl
@[simp] theorem State.reply_failStep (r : Reply) (s : State) : (s.reply r).failStep = s.failStep := rfl
@[simp] theorem State.reply_lastResult (r : Reply) (s : State) : (s.reply r).lastResult = s.lastResult := rfl
@[simp] theorem State.reply_rdata (r : Reply) (s : State) : (s.reply r).rdata = s.rdata := rfl
@[simp] theorem State.reply_wx0 (r : Reply) (s : State) : (s.reply r).wx0 = s.wx0 := rfl
@[simp] theorem State.reply_wy0 (r : Reply) (s : State) : (s.reply r).wy0 = s.wy0 := rfl
@[simp] theorem State.reply_wx1 (r : Reply) (s : State) : (s.reply r).wx1 = s.wx1 := rfl
@[simp] theorem State.reply_wy1 (r : Reply) (s : State) : (s.reply r).wy1 = s.wy1 := rfl
@[simp] theorem State.reply_armed (r : Reply) (s : State) : (s.reply r).armed = s.armed := rfl
@[simp] theorem State.reply_curX (r : Reply) (s : State) : (s.reply r).curX = s.curX := rfl
@[simp] theorem State.reply_curY (r : Reply) (s : State) : (s.reply r).curY = s.curY := rfl
@[simp] theorem State.reply_remaining (r : Reply) (s : State) : (s.reply r).remaining = s.remaining := rfl
@[simp] theorem State.reply_seqIdx (r : Reply) (s : State) : (s.reply r).seqIdx = s.seqIdx := rfl
@[simp] theorem State.reply_buf (r : Reply) (s : State) : (s.reply r).buf = s.buf := rfl
@[simp] theorem State.reply_pinRst (r : Reply) (s : State) : (s.reply r).pinRst = s.pinRst := rfl
@[simp] theorem State.reply_pinCs (r : Reply) (s : State) : (s.reply r).pinCs = s.pinCs := rfl
@[simp] theorem State.reply_pinDc (r : Reply) (s : State) : (s.reply r).pinDc = s.pinDc := rfl
@[simp] theorem State.reply_latch (r : Reply) (s : State) : (s.reply r).latch = s.latch := rfl
@[simp] theorem State.reply_script (r : Reply) (s : State) : (s.reply r).script = s.script := rfl
@[simp] theorem State.reply_unitLeft (r : Reply) (s : State) : (s.reply r).unitLeft = s.unitLeft := rfl
@[simp] theorem State.reply_traceRev (r : Reply) (s : State) : (s.reply r).traceRev = s.traceRev := rfl
@[simp] theorem State.reply_repliesRev (r : Reply) (s : State) : (s.reply r).repliesRev = r :: s.repliesRev := rfl
@[simp] theorem State.reply_inbox (r : Reply) (s : State) : (s.reply r).inbox = s.inbox := rfl
@[simp] theorem State.reply_arrivals (r : Reply) (s : State) : (s.reply r).arrivals = s.arrivals := rfl
@[simp] theorem State.reply_answers (r : Reply) (s : State) : (s.reply r).answers = s.answers := rfl
@[simp] theorem State.reply_writes (r : Reply) (s : State) : (s.reply r).writes = s.writes := rfl

/-! ### `State.took` -/

@[simp] theorem State.took_cfg (later : List HostAct) (s : State) : (s.took later).cfg = s.cfg := rfl
@[simp] theorem State.took_ctl (later : List HostAct) (s : State) : (s.took later).ctl = s.ctl := rfl
@[simp] theorem State.took_lock (later : List HostAct) (s : State) : (s.took later).lock = s.lock := rfl
@[simp] theorem State.took_initFailed (later : List HostAct) (s : State) : (s.took later).initFailed = s.initFailed := rfl
@[simp] theorem State.took_failStep (later : List HostAct) (s : State) : (s.took later).failStep = s.failStep := rfl
@[simp] theorem State.took_lastResult (later : List HostAct) (s : State) : (s.took later).lastResult = s.lastResult := rfl
@[simp] theorem State.took_rdata (later : List HostAct) (s : State) : (s.took later).rdata = s.rdata := rfl
@[simp] theorem State.took_wx0 (later : List HostAct) (s : State) : (s.took later).wx0 = s.wx0 := rfl
@[simp] theorem State.took_wy0 (later : List HostAct) (s : State) : (s.took later).wy0 = s.wy0 := rfl
@[simp] theorem State.took_wx1 (later : List HostAct) (s : State) : (s.took later).wx1 = s.wx1 := rfl
@[simp] theorem State.took_wy1 (later : List HostAct) (s : State) : (s.took later).wy1 = s.wy1 := rfl
@[simp] theorem State.took_armed (later : List HostAct) (s : State) : (s.took later).armed = s.armed := rfl
@[simp] theorem State.took_curX (later : List HostAct) (s : State) : (s.took later).curX = s.curX := rfl
@[simp] theorem State.took_curY (later : List HostAct) (s : State) : (s.took later).curY = s.curY := rfl
@[simp] theorem State.took_remaining (later : List HostAct) (s : State) : (s.took later).remaining = s.remaining := rfl
@[simp] theorem State.took_seqIdx (later : List HostAct) (s : State) : (s.took later).seqIdx = s.seqIdx := rfl
@[simp] theorem State.took_buf (later : List HostAct) (s : State) : (s.took later).buf = s.buf := rfl
@[simp] theorem State.took_pinRst (later : List HostAct) (s : State) : (s.took later).pinRst = s.pinRst := rfl
@[simp] theorem State.took_pinCs (later : List HostAct) (s : State) : (s.took later).pinCs = s.pinCs := rfl
@[simp] theorem State.took_pinDc (later : List HostAct) (s : State) : (s.took later).pinDc = s.pinDc := rfl
@[simp] theorem State.took_latch (later : List HostAct) (s : State) : (s.took later).latch = s.latch := rfl
@[simp] theorem State.took_script (later : List HostAct) (s : State) : (s.took later).script = s.script := rfl
@[simp] theorem State.took_unitLeft (later : List HostAct) (s : State) : (s.took later).unitLeft = s.unitLeft := rfl
@[simp] theorem State.took_traceRev (later : List HostAct) (s : State) : (s.took later).traceRev = s.traceRev := rfl
@[simp] theorem State.took_repliesRev (later : List HostAct) (s : State) : (s.took later).repliesRev = s.repliesRev := rfl
@[simp] theorem State.took_inbox (later : List HostAct) (s : State) : (s.took later).inbox = later := rfl
@[simp] theorem State.took_arrivals (later : List HostAct) (s : State) : (s.took later).arrivals = s.arrivals := rfl
@[simp] theorem State.took_answers (later : List HostAct) (s : State) : (s.took later).answers = s.answers := rfl
@[simp] theorem State.took_writes (later : List HostAct) (s : State) : (s.took later).writes = s.writes := rfl

/-! ### `State.takeAnswer` -/

@[simp] theorem State.takeAnswer_cfg (s : State) : s.takeAnswer.cfg = s.cfg := rfl
@[simp] theorem State.takeAnswer_ctl (s : State) : s.takeAnswer.ctl = s.ctl := rfl
@[simp] theorem State.takeAnswer_lock (s : State) : s.takeAnswer.lock = s.lock := rfl
@[simp] theorem State.takeAnswer_initFailed (s : State) : s.takeAnswer.initFailed = s.initFailed := rfl
@[simp] theorem State.takeAnswer_failStep (s : State) : s.takeAnswer.failStep = s.failStep := rfl
@[simp] theorem State.takeAnswer_lastResult (s : State) : s.takeAnswer.lastResult = s.lastResult := rfl
@[simp] theorem State.takeAnswer_rdata (s : State) : s.takeAnswer.rdata = s.rdata := rfl
@[simp] theorem State.takeAnswer_wx0 (s : State) : s.takeAnswer.wx0 = s.wx0 := rfl
@[simp] theorem State.takeAnswer_wy0 (s : State) : s.takeAnswer.wy0 = s.wy0 := rfl
@[simp] theorem State.takeAnswer_wx1 (s : State) : s.takeAnswer.wx1 = s.wx1 := rfl
@[simp] theorem State.takeAnswer_wy1 (s : State) : s.takeAnswer.wy1 = s.wy1 := rfl
@[simp] theorem State.takeAnswer_armed (s : State) : s.takeAnswer.armed = s.armed := rfl
@[simp] theorem State.takeAnswer_curX (s : State) : s.takeAnswer.curX = s.curX := rfl
@[simp] theorem State.takeAnswer_curY (s : State) : s.takeAnswer.curY = s.curY := rfl
@[simp] theorem State.takeAnswer_remaining (s : State) : s.takeAnswer.remaining = s.remaining := rfl
@[simp] theorem State.takeAnswer_seqIdx (s : State) : s.takeAnswer.seqIdx = s.seqIdx := rfl
@[simp] theorem State.takeAnswer_buf (s : State) : s.takeAnswer.buf = s.buf := rfl
@[simp] theorem State.takeAnswer_pinRst (s : State) : s.takeAnswer.pinRst = s.pinRst := rfl
@[simp] theorem State.takeAnswer_pinCs (s : State) : s.takeAnswer.pinCs = s.pinCs := rfl
@[simp] theorem State.takeAnswer_pinDc (s : State) : s.takeAnswer.pinDc = s.pinDc := rfl
@[simp] theorem State.takeAnswer_latch (s : State) : s.takeAnswer.latch = s.latch := rfl
@[simp] theorem State.takeAnswer_script (s : State) : s.takeAnswer.script = s.script := rfl
@[simp] theorem State.takeAnswer_unitLeft (s : State) : s.takeAnswer.unitLeft = s.unitLeft := rfl
@[simp] theorem State.takeAnswer_traceRev (s : State) : s.takeAnswer.traceRev = s.traceRev := rfl
@[simp] theorem State.takeAnswer_repliesRev (s : State) : s.takeAnswer.repliesRev = s.repliesRev := rfl
@[simp] theorem State.takeAnswer_inbox (s : State) : s.takeAnswer.inbox = s.inbox := rfl
@[simp] theorem State.takeAnswer_arrivals (s : State) : s.takeAnswer.arrivals = s.arrivals := rfl
@[simp] theorem State.takeAnswer_answers (s : State) : s.takeAnswer.answers = s.answers.tail := rfl
@[simp] theorem State.takeAnswer_writes (s : State) : s.takeAnswer.writes = s.writes + 1 := rfl

/-! ### `State.complete` -/

@[simp] theorem State.complete_cfg (code : Code) (v : Byte) (s : State) : (s.complete code v).cfg = s.cfg := rfl
@[simp] theorem State.complete_ctl (code : Code) (v : Byte) (s : State) : (s.complete code v).ctl = s.ctl := rfl
@[simp] theorem State.complete_lock (code : Code) (v : Byte) (s : State) : (s.complete code v).lock = s.lock := rfl
@[simp] theorem State.complete_initFailed (code : Code) (v : Byte) (s : State) : (s.complete code v).initFailed = s.initFailed := rfl
@[simp] theorem State.complete_failStep (code : Code) (v : Byte) (s : State) : (s.complete code v).failStep = s.failStep := rfl
@[simp] theorem State.complete_lastResult (code : Code) (v : Byte) (s : State) : (s.complete code v).lastResult = code := rfl
@[simp] theorem State.complete_rdata (code : Code) (v : Byte) (s : State) : (s.complete code v).rdata = s.rdata := rfl
@[simp] theorem State.complete_wx0 (code : Code) (v : Byte) (s : State) : (s.complete code v).wx0 = s.wx0 := rfl
@[simp] theorem State.complete_wy0 (code : Code) (v : Byte) (s : State) : (s.complete code v).wy0 = s.wy0 := rfl
@[simp] theorem State.complete_wx1 (code : Code) (v : Byte) (s : State) : (s.complete code v).wx1 = s.wx1 := rfl
@[simp] theorem State.complete_wy1 (code : Code) (v : Byte) (s : State) : (s.complete code v).wy1 = s.wy1 := rfl
@[simp] theorem State.complete_armed (code : Code) (v : Byte) (s : State) : (s.complete code v).armed = s.armed := rfl
@[simp] theorem State.complete_curX (code : Code) (v : Byte) (s : State) : (s.complete code v).curX = s.curX := rfl
@[simp] theorem State.complete_curY (code : Code) (v : Byte) (s : State) : (s.complete code v).curY = s.curY := rfl
@[simp] theorem State.complete_remaining (code : Code) (v : Byte) (s : State) : (s.complete code v).remaining = s.remaining := rfl
@[simp] theorem State.complete_seqIdx (code : Code) (v : Byte) (s : State) : (s.complete code v).seqIdx = s.seqIdx := rfl
@[simp] theorem State.complete_buf (code : Code) (v : Byte) (s : State) : (s.complete code v).buf = s.buf := rfl
@[simp] theorem State.complete_pinRst (code : Code) (v : Byte) (s : State) : (s.complete code v).pinRst = s.pinRst := rfl
@[simp] theorem State.complete_pinCs (code : Code) (v : Byte) (s : State) : (s.complete code v).pinCs = s.pinCs := rfl
@[simp] theorem State.complete_pinDc (code : Code) (v : Byte) (s : State) : (s.complete code v).pinDc = s.pinDc := rfl
@[simp] theorem State.complete_latch (code : Code) (v : Byte) (s : State) : (s.complete code v).latch = s.latch := rfl
@[simp] theorem State.complete_script (code : Code) (v : Byte) (s : State) : (s.complete code v).script = s.script := rfl
@[simp] theorem State.complete_unitLeft (code : Code) (v : Byte) (s : State) : (s.complete code v).unitLeft = s.unitLeft := rfl
@[simp] theorem State.complete_traceRev (code : Code) (v : Byte) (s : State) : (s.complete code v).traceRev = s.traceRev := rfl
@[simp] theorem State.complete_repliesRev (code : Code) (v : Byte) (s : State) : (s.complete code v).repliesRev = .response code v :: s.repliesRev := rfl
@[simp] theorem State.complete_inbox (code : Code) (v : Byte) (s : State) : (s.complete code v).inbox = s.inbox := rfl
@[simp] theorem State.complete_arrivals (code : Code) (v : Byte) (s : State) : (s.complete code v).arrivals = s.arrivals := rfl
@[simp] theorem State.complete_answers (code : Code) (v : Byte) (s : State) : (s.complete code v).answers = s.answers := rfl
@[simp] theorem State.complete_writes (code : Code) (v : Byte) (s : State) : (s.complete code v).writes = s.writes := rfl

/-! ### `State.enterBusy` -/

@[simp] theorem State.enterBusy_cfg (s : State) : s.enterBusy.cfg = s.cfg := rfl
@[simp] theorem State.enterBusy_ctl (s : State) : s.enterBusy.ctl = .busy := rfl
@[simp] theorem State.enterBusy_lock (s : State) : s.enterBusy.lock = s.lock := rfl
@[simp] theorem State.enterBusy_initFailed (s : State) : s.enterBusy.initFailed = s.initFailed := rfl
@[simp] theorem State.enterBusy_failStep (s : State) : s.enterBusy.failStep = s.failStep := rfl
@[simp] theorem State.enterBusy_lastResult (s : State) : s.enterBusy.lastResult = s.lastResult := rfl
@[simp] theorem State.enterBusy_rdata (s : State) : s.enterBusy.rdata = s.rdata := rfl
@[simp] theorem State.enterBusy_wx0 (s : State) : s.enterBusy.wx0 = s.wx0 := rfl
@[simp] theorem State.enterBusy_wy0 (s : State) : s.enterBusy.wy0 = s.wy0 := rfl
@[simp] theorem State.enterBusy_wx1 (s : State) : s.enterBusy.wx1 = s.wx1 := rfl
@[simp] theorem State.enterBusy_wy1 (s : State) : s.enterBusy.wy1 = s.wy1 := rfl
@[simp] theorem State.enterBusy_armed (s : State) : s.enterBusy.armed = s.armed := rfl
@[simp] theorem State.enterBusy_curX (s : State) : s.enterBusy.curX = s.curX := rfl
@[simp] theorem State.enterBusy_curY (s : State) : s.enterBusy.curY = s.curY := rfl
@[simp] theorem State.enterBusy_remaining (s : State) : s.enterBusy.remaining = s.remaining := rfl
@[simp] theorem State.enterBusy_seqIdx (s : State) : s.enterBusy.seqIdx = s.seqIdx := rfl
@[simp] theorem State.enterBusy_buf (s : State) : s.enterBusy.buf = s.buf := rfl
@[simp] theorem State.enterBusy_pinRst (s : State) : s.enterBusy.pinRst = s.pinRst := rfl
@[simp] theorem State.enterBusy_pinCs (s : State) : s.enterBusy.pinCs = s.pinCs := rfl
@[simp] theorem State.enterBusy_pinDc (s : State) : s.enterBusy.pinDc = s.pinDc := rfl
@[simp] theorem State.enterBusy_latch (s : State) : s.enterBusy.latch = s.latch := rfl
@[simp] theorem State.enterBusy_script (s : State) : s.enterBusy.script = s.script := rfl
@[simp] theorem State.enterBusy_unitLeft (s : State) : s.enterBusy.unitLeft = s.unitLeft := rfl
@[simp] theorem State.enterBusy_traceRev (s : State) : s.enterBusy.traceRev = s.traceRev := rfl
@[simp] theorem State.enterBusy_repliesRev (s : State) : s.enterBusy.repliesRev = s.repliesRev := rfl
@[simp] theorem State.enterBusy_inbox (s : State) : s.enterBusy.inbox = s.inbox := rfl
@[simp] theorem State.enterBusy_arrivals (s : State) : s.enterBusy.arrivals = s.arrivals := rfl
@[simp] theorem State.enterBusy_answers (s : State) : s.enterBusy.answers = s.answers := rfl
@[simp] theorem State.enterBusy_writes (s : State) : s.enterBusy.writes = s.writes := rfl

/-! ### `State.disarm` -/

@[simp] theorem State.disarm_cfg (s : State) : s.disarm.cfg = s.cfg := rfl
@[simp] theorem State.disarm_ctl (s : State) : s.disarm.ctl = s.ctl := rfl
@[simp] theorem State.disarm_lock (s : State) : s.disarm.lock = s.lock := rfl
@[simp] theorem State.disarm_initFailed (s : State) : s.disarm.initFailed = s.initFailed := rfl
@[simp] theorem State.disarm_failStep (s : State) : s.disarm.failStep = s.failStep := rfl
@[simp] theorem State.disarm_lastResult (s : State) : s.disarm.lastResult = s.lastResult := rfl
@[simp] theorem State.disarm_rdata (s : State) : s.disarm.rdata = s.rdata := rfl
@[simp] theorem State.disarm_wx0 (s : State) : s.disarm.wx0 = s.wx0 := rfl
@[simp] theorem State.disarm_wy0 (s : State) : s.disarm.wy0 = s.wy0 := rfl
@[simp] theorem State.disarm_wx1 (s : State) : s.disarm.wx1 = s.wx1 := rfl
@[simp] theorem State.disarm_wy1 (s : State) : s.disarm.wy1 = s.wy1 := rfl
@[simp] theorem State.disarm_armed (s : State) : s.disarm.armed = false := rfl
@[simp] theorem State.disarm_curX (s : State) : s.disarm.curX = s.curX := rfl
@[simp] theorem State.disarm_curY (s : State) : s.disarm.curY = s.curY := rfl
@[simp] theorem State.disarm_remaining (s : State) : s.disarm.remaining = 0 := rfl
@[simp] theorem State.disarm_seqIdx (s : State) : s.disarm.seqIdx = s.seqIdx := rfl
@[simp] theorem State.disarm_buf (s : State) : s.disarm.buf = s.buf := rfl
@[simp] theorem State.disarm_pinRst (s : State) : s.disarm.pinRst = s.pinRst := rfl
@[simp] theorem State.disarm_pinCs (s : State) : s.disarm.pinCs = s.pinCs := rfl
@[simp] theorem State.disarm_pinDc (s : State) : s.disarm.pinDc = s.pinDc := rfl
@[simp] theorem State.disarm_latch (s : State) : s.disarm.latch = s.latch := rfl
@[simp] theorem State.disarm_script (s : State) : s.disarm.script = s.script := rfl
@[simp] theorem State.disarm_unitLeft (s : State) : s.disarm.unitLeft = s.unitLeft := rfl
@[simp] theorem State.disarm_traceRev (s : State) : s.disarm.traceRev = s.traceRev := rfl
@[simp] theorem State.disarm_repliesRev (s : State) : s.disarm.repliesRev = s.repliesRev := rfl
@[simp] theorem State.disarm_inbox (s : State) : s.disarm.inbox = s.inbox := rfl
@[simp] theorem State.disarm_arrivals (s : State) : s.disarm.arrivals = s.arrivals := rfl
@[simp] theorem State.disarm_answers (s : State) : s.disarm.answers = s.answers := rfl
@[simp] theorem State.disarm_writes (s : State) : s.disarm.writes = s.writes := rfl

/-! ### `State.latchWindow` -/

@[simp] theorem State.latchWindow_cfg (x0 y0 x1 y1 : Half) (s : State) : (s.latchWindow x0 y0 x1 y1).cfg = s.cfg := rfl
@[simp] theorem State.latchWindow_ctl (x0 y0 x1 y1 : Half) (s : State) : (s.latchWindow x0 y0 x1 y1).ctl = s.ctl := rfl
@[simp] theorem State.latchWindow_lock (x0 y0 x1 y1 : Half) (s : State) : (s.latchWindow x0 y0 x1 y1).lock = s.lock := rfl
@[simp] theorem State.latchWindow_initFailed (x0 y0 x1 y1 : Half) (s : State) : (s.latchWindow x0 y0 x1 y1).initFailed = s.initFailed := rfl
@[simp] theorem State.latchWindow_failStep (x0 y0 x1 y1 : Half) (s : State) : (s.latchWindow x0 y0 x1 y1).failStep = s.failStep := rfl
@[simp] theorem State.latchWindow_lastResult (x0 y0 x1 y1 : Half) (s : State) : (s.latchWindow x0 y0 x1 y1).lastResult = s.lastResult := rfl
@[simp] theorem State.latchWindow_rdata (x0 y0 x1 y1 : Half) (s : State) : (s.latchWindow x0 y0 x1 y1).rdata = s.rdata := rfl
@[simp] theorem State.latchWindow_wx0 (x0 y0 x1 y1 : Half) (s : State) : (s.latchWindow x0 y0 x1 y1).wx0 = x0 := rfl
@[simp] theorem State.latchWindow_wy0 (x0 y0 x1 y1 : Half) (s : State) : (s.latchWindow x0 y0 x1 y1).wy0 = y0 := rfl
@[simp] theorem State.latchWindow_wx1 (x0 y0 x1 y1 : Half) (s : State) : (s.latchWindow x0 y0 x1 y1).wx1 = x1 := rfl
@[simp] theorem State.latchWindow_wy1 (x0 y0 x1 y1 : Half) (s : State) : (s.latchWindow x0 y0 x1 y1).wy1 = y1 := rfl
@[simp] theorem State.latchWindow_armed (x0 y0 x1 y1 : Half) (s : State) : (s.latchWindow x0 y0 x1 y1).armed = s.armed := rfl
@[simp] theorem State.latchWindow_curX (x0 y0 x1 y1 : Half) (s : State) : (s.latchWindow x0 y0 x1 y1).curX = s.curX := rfl
@[simp] theorem State.latchWindow_curY (x0 y0 x1 y1 : Half) (s : State) : (s.latchWindow x0 y0 x1 y1).curY = s.curY := rfl
@[simp] theorem State.latchWindow_remaining (x0 y0 x1 y1 : Half) (s : State) : (s.latchWindow x0 y0 x1 y1).remaining = s.remaining := rfl
@[simp] theorem State.latchWindow_seqIdx (x0 y0 x1 y1 : Half) (s : State) : (s.latchWindow x0 y0 x1 y1).seqIdx = s.seqIdx := rfl
@[simp] theorem State.latchWindow_buf (x0 y0 x1 y1 : Half) (s : State) : (s.latchWindow x0 y0 x1 y1).buf = s.buf := rfl
@[simp] theorem State.latchWindow_pinRst (x0 y0 x1 y1 : Half) (s : State) : (s.latchWindow x0 y0 x1 y1).pinRst = s.pinRst := rfl
@[simp] theorem State.latchWindow_pinCs (x0 y0 x1 y1 : Half) (s : State) : (s.latchWindow x0 y0 x1 y1).pinCs = s.pinCs := rfl
@[simp] theorem State.latchWindow_pinDc (x0 y0 x1 y1 : Half) (s : State) : (s.latchWindow x0 y0 x1 y1).pinDc = s.pinDc := rfl
@[simp] theorem State.latchWindow_latch (x0 y0 x1 y1 : Half) (s : State) : (s.latchWindow x0 y0 x1 y1).latch = s.latch := rfl
@[simp] theorem State.latchWindow_script (x0 y0 x1 y1 : Half) (s : State) : (s.latchWindow x0 y0 x1 y1).script = s.script := rfl
@[simp] theorem State.latchWindow_unitLeft (x0 y0 x1 y1 : Half) (s : State) : (s.latchWindow x0 y0 x1 y1).unitLeft = s.unitLeft := rfl
@[simp] theorem State.latchWindow_traceRev (x0 y0 x1 y1 : Half) (s : State) : (s.latchWindow x0 y0 x1 y1).traceRev = s.traceRev := rfl
@[simp] theorem State.latchWindow_repliesRev (x0 y0 x1 y1 : Half) (s : State) : (s.latchWindow x0 y0 x1 y1).repliesRev = s.repliesRev := rfl
@[simp] theorem State.latchWindow_inbox (x0 y0 x1 y1 : Half) (s : State) : (s.latchWindow x0 y0 x1 y1).inbox = s.inbox := rfl
@[simp] theorem State.latchWindow_arrivals (x0 y0 x1 y1 : Half) (s : State) : (s.latchWindow x0 y0 x1 y1).arrivals = s.arrivals := rfl
@[simp] theorem State.latchWindow_answers (x0 y0 x1 y1 : Half) (s : State) : (s.latchWindow x0 y0 x1 y1).answers = s.answers := rfl
@[simp] theorem State.latchWindow_writes (x0 y0 x1 y1 : Half) (s : State) : (s.latchWindow x0 y0 x1 y1).writes = s.writes := rfl

/-! ### `State.registers` -/

@[simp] theorem State.registers_cfg (s : State) : s.registers.cfg = s.cfg := rfl
@[simp] theorem State.registers_ctl (s : State) : s.registers.ctl = s.ctl := rfl
@[simp] theorem State.registers_lock (s : State) : s.registers.lock = s.lock := rfl
@[simp] theorem State.registers_initFailed (s : State) : s.registers.initFailed = s.initFailed := rfl
@[simp] theorem State.registers_failStep (s : State) : s.registers.failStep = s.failStep := rfl
@[simp] theorem State.registers_lastResult (s : State) : s.registers.lastResult = s.lastResult := rfl
@[simp] theorem State.registers_rdata (s : State) : s.registers.rdata = s.rdata := rfl
@[simp] theorem State.registers_wx0 (s : State) : s.registers.wx0 = s.wx0 := rfl
@[simp] theorem State.registers_wy0 (s : State) : s.registers.wy0 = s.wy0 := rfl
@[simp] theorem State.registers_wx1 (s : State) : s.registers.wx1 = s.wx1 := rfl
@[simp] theorem State.registers_wy1 (s : State) : s.registers.wy1 = s.wy1 := rfl
@[simp] theorem State.registers_armed (s : State) : s.registers.armed = s.armed := rfl
@[simp] theorem State.registers_curX (s : State) : s.registers.curX = s.curX := rfl
@[simp] theorem State.registers_curY (s : State) : s.registers.curY = s.curY := rfl
@[simp] theorem State.registers_remaining (s : State) : s.registers.remaining = s.remaining := rfl
@[simp] theorem State.registers_seqIdx (s : State) : s.registers.seqIdx = s.seqIdx := rfl
@[simp] theorem State.registers_buf (s : State) : s.registers.buf = s.buf := rfl
@[simp] theorem State.registers_pinRst (s : State) : s.registers.pinRst = s.pinRst := rfl
@[simp] theorem State.registers_pinCs (s : State) : s.registers.pinCs = false := rfl
@[simp] theorem State.registers_pinDc (s : State) : s.registers.pinDc = false := rfl
@[simp] theorem State.registers_latch (s : State) : s.registers.latch = s.latch := rfl
@[simp] theorem State.registers_script (s : State) : s.registers.script = [] := rfl
@[simp] theorem State.registers_unitLeft (s : State) : s.registers.unitLeft = [] := rfl
@[simp] theorem State.registers_traceRev (s : State) : s.registers.traceRev = [] := rfl
@[simp] theorem State.registers_repliesRev (s : State) : s.registers.repliesRev = [] := rfl
@[simp] theorem State.registers_inbox (s : State) : s.registers.inbox = [] := rfl
@[simp] theorem State.registers_arrivals (s : State) : s.registers.arrivals = [] := rfl
@[simp] theorem State.registers_answers (s : State) : s.registers.answers = [] := rfl
@[simp] theorem State.registers_writes (s : State) : s.registers.writes = 0 := rfl

/-- Two states agree in every register when their `registers` are equal, and the other way round. -/
theorem State.registers_eq_iff (s t : State) : t.registers = s.registers ↔
    t.cfg = s.cfg ∧ t.ctl = s.ctl ∧ t.lock = s.lock ∧ t.initFailed = s.initFailed ∧ t.failStep = s.failStep ∧ t.lastResult = s.lastResult ∧ t.rdata = s.rdata ∧ t.wx0 = s.wx0 ∧ t.wy0 = s.wy0 ∧ t.wx1 = s.wx1 ∧ t.wy1 = s.wy1 ∧ t.armed = s.armed ∧ t.curX = s.curX ∧ t.curY = s.curY ∧ t.remaining = s.remaining ∧ t.seqIdx = s.seqIdx ∧ t.buf = s.buf ∧ t.pinRst = s.pinRst ∧ t.latch = s.latch := by
  constructor
  · intro h
    have := h
    simp only [State.registers, State.mk.injEq, true_and, and_true] at this
    exact this
  · rintro ⟨h0, h1, h2, h3, h4, h5, h6, h7, h8, h9, h10, h11, h12, h13, h14, h15, h16, h17, h18⟩
    simp only [State.registers, h0, h1, h2, h3, h4, h5, h6, h7, h8, h9, h10, h11, h12, h13, h14, h15, h16, h17, h18]

end Sys2Proof.Machine
end

