-- ==== Sys2Proof/Laws/Events.lean ====
section
/-! SUPPORT. The events and byte writes of actions and scripts, apart from the machine, for the laws of the shared
operations. -/

namespace Sys2Proof.Machine

/-- The events of one action, every byte answered ok. -/
def actEvents (c : Cfg) : Act → List Event
  | .pinRst level => [.rst level]
  | .wait n => waitEvents n
  | .cmdUnit b => unitEvents c .cmd [b]
  | .dataUnit bs => unitEvents c .data bs
  | .seqStart => []
  | .seqNext => []

/-- The byte writes of one action. -/
def actWrites (c : Cfg) : Act → Nat
  | .pinRst _ => 0
  | .wait _ => 0
  | .cmdUnit b => (unitBytes c .cmd [b]).length
  | .dataUnit bs => (unitBytes c .data bs).length
  | .seqStart => 0
  | .seqNext => 0

/-- The events of one action whose byte write number `j` fails. -/
def actFailEvents (c : Cfg) (j : Nat) : Act → List Event
  | .pinRst _ => []
  | .wait _ => []
  | .cmdUnit b => unitFailEvents c .cmd [b] j
  | .dataUnit bs => unitFailEvents c .data bs j
  | .seqStart => []
  | .seqNext => []

/-- The events of a script, every byte answered ok. -/
def scriptEvents (c : Cfg) (script : List Act) : List Event := script.flatMap (actEvents c)

/-- The byte writes of a script. -/
def scriptWrites (c : Cfg) (script : List Act) : Nat := (script.map (actWrites c)).sum

/-- The events of a script whose byte write number `j` fails: every event before it, the failing unit closed, nothing
after it (60_exceptions.md R612). -/
def scriptFailEvents (c : Cfg) : Nat → List Act → List Event
  | _, [] => []
  | j, a :: as =>
    if j < actWrites c a then actFailEvents c j a
    else actEvents c a ++ scriptFailEvents c (j - actWrites c a) as

end Sys2Proof.Machine
end

