-- ==== Sys2Proof/Laws/Ops.lean ====
section
/-! SUPPORT. What each shared operation can do, said once: host actions in a gap, an event, a byte write, a unit, an
action, a script, a completion, acceptance. Later proofs cite these and do not unfold the operations. -/

namespace Sys2Proof.Machine

/-! ### Host actions in a gap -/

theorem State.foldl_arrive {α : Type} (f : State → α) (h : ∀ s a, f (s.arrive a) = f s) (acts : List Arrival) (s : State) :
    f (acts.foldl State.arrive s) = f s := by
  induction acts generalizing s with
  | nil => rfl
  | cons a acts ih => simp only [List.foldl_cons, ih, h]

/-- A gap keeps whatever single host actions and the list of gaps to come do not touch. -/
theorem State.gap_keeps {α : Type} (f : State → α) (h : ∀ s a, f (s.arrive a) = f s)
    (h' : ∀ s l, f { s with arrivals := l } = f s) (s : State) : f s.gap = f s := by
  unfold State.gap
  split
  · rfl
  · rw [State.foldl_arrive f h, h']

@[simp] theorem State.arrive_cfg (s : State) (a : Arrival) : (s.arrive a).cfg = s.cfg := by
  cases a <;> simp only [State.arrive, State.rejectBusy, State.reply]
  split <;> rfl
@[simp] theorem State.arrive_ctl (s : State) (a : Arrival) : (s.arrive a).ctl = s.ctl := by
  cases a <;> simp only [State.arrive, State.rejectBusy, State.reply]
  split <;> rfl
@[simp] theorem State.arrive_lock (s : State) (a : Arrival) : (s.arrive a).lock = s.lock := by
  cases a <;> simp only [State.arrive, State.rejectBusy, State.reply]
  split <;> rfl
@[simp] theorem State.arrive_initFailed (s : State) (a : Arrival) : (s.arrive a).initFailed = s.initFailed := by
  cases a <;> simp only [State.arrive, State.rejectBusy, State.reply]
  split <;> rfl
@[simp] theorem State.arrive_failStep (s : State) (a : Arrival) : (s.arrive a).failStep = s.failStep := by
  cases a <;> simp only [State.arrive, State.rejectBusy, State.reply]
  split <;> rfl
@[simp] theorem State.arrive_lastResult (s : State) (a : Arrival) : (s.arrive a).lastResult = s.lastResult := by
  cases a <;> simp only [State.arrive, State.rejectBusy, State.reply]
  split <;> rfl
@[simp] theorem State.arrive_rdata (s : State) (a : Arrival) : (s.arrive a).rdata = s.rdata := by
  cases a <;> simp only [State.arrive, State.rejectBusy, State.reply]
  split <;> rfl
@[simp] theorem State.arrive_wx0 (s : State) (a : Arrival) : (s.arrive a).wx0 = s.wx0 := by
  cases a <;> simp only [State.arrive, State.rejectBusy, State.reply]
  split <;> rfl
@[simp] theorem State.arrive_wy0 (s : State) (a : Arrival) : (s.arrive a).wy0 = s.wy0 := by
  cases a <;> simp only [State.arrive, State.rejectBusy, State.reply]
  split <;> rfl
@[simp] theorem State.arrive_wx1 (s : State) (a : Arrival) : (s.arrive a).wx1 = s.wx1 := by
  cases a <;> simp only [State.arrive, State.rejectBusy, State.reply]
  split <;> rfl
@[simp] theorem State.arrive_wy1 (s : State) (a : Arrival) : (s.arrive a).wy1 = s.wy1 := by
  cases a <;> simp only [State.arrive, State.rejectBusy, State.reply]
  split <;> rfl
@[simp] theorem State.arrive_armed (s : State) (a : Arrival) : (s.arrive a).armed = s.armed := by
  cases a <;> simp only [State.arrive, State.rejectBusy, State.reply]
  split <;> rfl
@[simp] theorem State.arrive_curX (s : State) (a : Arrival) : (s.arrive a).curX = s.curX := by
  cases a <;> simp only [State.arrive, State.rejectBusy, State.reply]
  split <;> rfl
@[simp] theorem State.arrive_curY (s : State) (a : Arrival) : (s.arrive a).curY = s.curY := by
  cases a <;> simp only [State.arrive, State.rejectBusy, State.reply]
  split <;> rfl
@[simp] theorem State.arrive_remaining (s : State) (a : Arrival) : (s.arrive a).remaining = s.remaining := by
  cases a <;> simp only [State.arrive, State.rejectBusy, State.reply]
  split <;> rfl
@[simp] theorem State.arrive_seqIdx (s : State) (a : Arrival) : (s.arrive a).seqIdx = s.seqIdx := by
  cases a <;> simp only [State.arrive, State.rejectBusy, State.reply]
  split <;> rfl
@[simp] theorem State.arrive_buf (s : State) (a : Arrival) : (s.arrive a).buf = s.buf := by
  cases a <;> simp only [State.arrive, State.rejectBusy, State.reply]
  split <;> rfl
@[simp] theorem State.arrive_pinRst (s : State) (a : Arrival) : (s.arrive a).pinRst = s.pinRst := by
  cases a <;> simp only [State.arrive, State.rejectBusy, State.reply]
  split <;> rfl
@[simp] theorem State.arrive_pinCs (s : State) (a : Arrival) : (s.arrive a).pinCs = s.pinCs := by
  cases a <;> simp only [State.arrive, State.rejectBusy, State.reply]
  split <;> rfl
@[simp] theorem State.arrive_pinDc (s : State) (a : Arrival) : (s.arrive a).pinDc = s.pinDc := by
  cases a <;> simp only [State.arrive, State.rejectBusy, State.reply]
  split <;> rfl
@[simp] theorem State.arrive_latch (s : State) (a : Arrival) : (s.arrive a).latch = s.latch := by
  cases a <;> simp only [State.arrive, State.rejectBusy, State.reply]
  split <;> rfl
@[simp] theorem State.arrive_script (s : State) (a : Arrival) : (s.arrive a).script = s.script := by
  cases a <;> simp only [State.arrive, State.rejectBusy, State.reply]
  split <;> rfl
@[simp] theorem State.arrive_unitLeft (s : State) (a : Arrival) : (s.arrive a).unitLeft = s.unitLeft := by
  cases a <;> simp only [State.arrive, State.rejectBusy, State.reply]
  split <;> rfl
@[simp] theorem State.arrive_traceRev (s : State) (a : Arrival) : (s.arrive a).traceRev = s.traceRev := by
  cases a <;> simp only [State.arrive, State.rejectBusy, State.reply]
  split <;> rfl
@[simp] theorem State.arrive_answers (s : State) (a : Arrival) : (s.arrive a).answers = s.answers := by
  cases a <;> simp only [State.arrive, State.rejectBusy, State.reply]
  split <;> rfl
@[simp] theorem State.arrive_writes (s : State) (a : Arrival) : (s.arrive a).writes = s.writes := by
  cases a <;> simp only [State.arrive, State.rejectBusy, State.reply]
  split <;> rfl
@[simp] theorem State.gap_cfg (s : State) : s.gap.cfg = s.cfg :=
  State.gap_keeps State.cfg (fun s a => State.arrive_cfg s a) (fun _ _ => rfl) s
@[simp] theorem State.gap_ctl (s : State) : s.gap.ctl = s.ctl :=
  State.gap_keeps State.ctl (fun s a => State.arrive_ctl s a) (fun _ _ => rfl) s
@[simp] theorem State.gap_lock (s : State) : s.gap.lock = s.lock :=
  State.gap_keeps State.lock (fun s a => State.arrive_lock s a) (fun _ _ => rfl) s
@[simp] theorem State.gap_initFailed (s : State) : s.gap.initFailed = s.initFailed :=
  State.gap_keeps State.initFailed (fun s a => State.arrive_initFailed s a) (fun _ _ => rfl) s
@[simp] theorem State.gap_failStep (s : State) : s.gap.failStep = s.failStep :=
  State.gap_keeps State.failStep (fun s a => State.arrive_failStep s a) (fun _ _ => rfl) s
@[simp] theorem State.gap_lastResult (s : State) : s.gap.lastResult = s.lastResult :=
  State.gap_keeps State.lastResult (fun s a => State.arrive_lastResult s a) (fun _ _ => rfl) s
@[simp] theorem State.gap_rdata (s : State) : s.gap.rdata = s.rdata :=
  State.gap_keeps State.rdata (fun s a => State.arrive_rdata s a) (fun _ _ => rfl) s
@[simp] theorem State.gap_wx0 (s : State) : s.gap.wx0 = s.wx0 :=
  State.gap_keeps State.wx0 (fun s a => State.arrive_wx0 s a) (fun _ _ => rfl) s
@[simp] theorem State.gap_wy0 (s : State) : s.gap.wy0 = s.wy0 :=
  State.gap_keeps State.wy0 (fun s a => State.arrive_wy0 s a) (fun _ _ => rfl) s
@[simp] theorem State.gap_wx1 (s : State) : s.gap.wx1 = s.wx1 :=
  State.gap_keeps State.wx1 (fun s a => State.arrive_wx1 s a) (fun _ _ => rfl) s
@[simp] theorem State.gap_wy1 (s : State) : s.gap.wy1 = s.wy1 :=
  State.gap_keeps State.wy1 (fun s a => State.arrive_wy1 s a) (fun _ _ => rfl) s
@[simp] theorem State.gap_armed (s : State) : s.gap.armed = s.armed :=
  State.gap_keeps State.armed (fun s a => State.arrive_armed s a) (fun _ _ => rfl) s
@[simp] theorem State.gap_curX (s : State) : s.gap.curX = s.curX :=
  State.gap_keeps State.curX (fun s a => State.arrive_curX s a) (fun _ _ => rfl) s
@[simp] theorem State.gap_curY (s : State) : s.gap.curY = s.curY :=
  State.gap_keeps State.curY (fun s a => State.arrive_curY s a) (fun _ _ => rfl) s
@[simp] theorem State.gap_remaining (s : State) : s.gap.remaining = s.remaining :=
  State.gap_keeps State.remaining (fun s a => State.arrive_remaining s a) (fun _ _ => rfl) s
@[simp] theorem State.gap_seqIdx (s : State) : s.gap.seqIdx = s.seqIdx :=
  State.gap_keeps State.seqIdx (fun s a => State.arrive_seqIdx s a) (fun _ _ => rfl) s
@[simp] theorem State.gap_buf (s : State) : s.gap.buf = s.buf :=
  State.gap_keeps State.buf (fun s a => State.arrive_buf s a) (fun _ _ => rfl) s
@[simp] theorem State.gap_pinRst (s : State) : s.gap.pinRst = s.pinRst :=
  State.gap_keeps State.pinRst (fun s a => State.arrive_pinRst s a) (fun _ _ => rfl) s
@[simp] theorem State.gap_pinCs (s : State) : s.gap.pinCs = s.pinCs :=
  State.gap_keeps State.pinCs (fun s a => State.arrive_pinCs s a) (fun _ _ => rfl) s
@[simp] theorem State.gap_pinDc (s : State) : s.gap.pinDc = s.pinDc :=
  State.gap_keeps State.pinDc (fun s a => State.arrive_pinDc s a) (fun _ _ => rfl) s
@[simp] theorem State.gap_latch (s : State) : s.gap.latch = s.latch :=
  State.gap_keeps State.latch (fun s a => State.arrive_latch s a) (fun _ _ => rfl) s
@[simp] theorem State.gap_script (s : State) : s.gap.script = s.script :=
  State.gap_keeps State.script (fun s a => State.arrive_script s a) (fun _ _ => rfl) s
@[simp] theorem State.gap_unitLeft (s : State) : s.gap.unitLeft = s.unitLeft :=
  State.gap_keeps State.unitLeft (fun s a => State.arrive_unitLeft s a) (fun _ _ => rfl) s
@[simp] theorem State.gap_traceRev (s : State) : s.gap.traceRev = s.traceRev :=
  State.gap_keeps State.traceRev (fun s a => State.arrive_traceRev s a) (fun _ _ => rfl) s
@[simp] theorem State.gap_answers (s : State) : s.gap.answers = s.answers :=
  State.gap_keeps State.answers (fun s a => State.arrive_answers s a) (fun _ _ => rfl) s
@[simp] theorem State.gap_writes (s : State) : s.gap.writes = s.writes :=
  State.gap_keeps State.writes (fun s a => State.arrive_writes s a) (fun _ _ => rfl) s

@[simp] theorem State.gap_registers (s : State) : s.gap.registers = s.registers := by
  simp [State.registers_eq_iff]

@[simp] theorem State.gap_trace (s : State) : s.gap.trace = s.trace := by simp [State.trace]

/-- With no host action waiting in the gaps, a gap changes nothing. -/
theorem State.gap_of_no_arrivals {s : State} (h : s.arrivals = []) : s.gap = s := by simp [State.gap, h]

/-- A request that lands in a gap of a busy block is rejected; the requests already waiting stay as they are. -/
theorem State.arrive_inbox_of_busy {s : State} (h : s.ctl = .busy) (a : Arrival) : (s.arrive a).inbox = s.inbox := by
  cases a <;> simp [State.arrive, h, State.rejectBusy]

theorem State.foldl_arrive_inbox_of_busy {s : State} (h : s.ctl = .busy) (acts : List Arrival) :
    (acts.foldl State.arrive s).inbox = s.inbox := by
  induction acts generalizing s with
  | nil => rfl
  | cons a acts ih => rw [List.foldl_cons, ih (by simpa using h), State.arrive_inbox_of_busy h]

theorem State.gap_inbox_of_busy {s : State} (h : s.ctl = .busy) : s.gap.inbox = s.inbox := by
  unfold State.gap
  split
  · rfl
  · rw [State.foldl_arrive_inbox_of_busy (by exact h)]

theorem GapReplies.refl (s : State) : GapReplies s s := ⟨[], by simp, rfl, fun h => ⟨rfl, h⟩⟩

theorem GapReplies.trans {s t u : State} (h : GapReplies s t) (h' : GapReplies t u) : GapReplies s u := by
  obtain ⟨l, hl, he, ha⟩ := h
  obtain ⟨l', hl', he', ha'⟩ := h'
  refine ⟨l' ++ l, fun r hr => ?_, by rw [he', he, List.append_assoc], fun hs => ?_⟩
  · rcases List.mem_append.1 hr with hr | hr
    · exact hl' r hr
    · exact hl r hr
  · obtain ⟨h1, h2⟩ := ha hs
    obtain ⟨h3, h4⟩ := ha' h2
    exact ⟨by rw [h1, h3]; rfl, h4⟩

/-- Single host actions only add replies of a gap. -/
theorem State.arrive_replies (s : State) (a : Arrival) :
    ∃ l : List Reply, (∀ r ∈ l, r.inGap) ∧ (s.arrive a).repliesRev = l ++ s.repliesRev := by
  cases a with
  | request r =>
    by_cases h : s.ctl = .busy
    · exact ⟨[.response .busyError 0], by simp [Reply.inGap], by simp [State.arrive, h, State.rejectBusy]⟩
    · exact ⟨[], by simp, by simp [State.arrive, h]⟩
  | read reg => exact ⟨[.value (s.readReg reg)], by simp [Reply.inGap], rfl⟩

theorem State.foldl_arrive_replies (acts : List Arrival) (s : State) :
    ∃ l : List Reply, (∀ r ∈ l, r.inGap) ∧ (acts.foldl State.arrive s).repliesRev = l ++ s.repliesRev := by
  induction acts generalizing s with
  | nil => exact ⟨[], by simp, rfl⟩
  | cons a acts ih =>
    obtain ⟨l, hl, he⟩ := ih (s.arrive a)
    obtain ⟨l', hl', he'⟩ := State.arrive_replies s a
    refine ⟨l ++ l', fun r hr => ?_, by rw [List.foldl_cons, he, he', List.append_assoc]⟩
    rcases List.mem_append.1 hr with hr | hr
    · exact hl r hr
    · exact hl' r hr

/-- A gap only adds replies. -/
theorem State.gap_replies (s : State) : GapReplies s s.gap := by
  unfold State.gap
  split
  · exact GapReplies.refl s
  · next acts later h =>
    obtain ⟨l, hl, he⟩ := State.foldl_arrive_replies acts { s with arrivals := later }
    exact ⟨l, hl, he, fun hs => by simp [h] at hs⟩

/-- What a gap leaves of the waiting requests: all of them, where the block is busy or no host action lands. -/
theorem State.gap_inbox {s : State} (h : s.ctl = .busy ∨ s.arrivals = []) : s.gap.inbox = s.inbox := by
  rcases h with h | h
  · exact State.gap_inbox_of_busy h
  · rw [State.gap_of_no_arrivals h]

/-! ### An event -/

@[simp] theorem State.emit_cfg (e : Event) (s : State) : (s.emit e).cfg = s.cfg := by
  cases e <;> simp [State.emit, State.drive]
@[simp] theorem State.emit_ctl (e : Event) (s : State) : (s.emit e).ctl = s.ctl := by
  cases e <;> simp [State.emit, State.drive]
@[simp] theorem State.emit_lock (e : Event) (s : State) : (s.emit e).lock = s.lock := by
  cases e <;> simp [State.emit, State.drive]
@[simp] theorem State.emit_initFailed (e : Event) (s : State) : (s.emit e).initFailed = s.initFailed := by
  cases e <;> simp [State.emit, State.drive]
@[simp] theorem State.emit_failStep (e : Event) (s : State) : (s.emit e).failStep = s.failStep := by
  cases e <;> simp [State.emit, State.drive]
@[simp] theorem State.emit_lastResult (e : Event) (s : State) : (s.emit e).lastResult = s.lastResult := by
  cases e <;> simp [State.emit, State.drive]
@[simp] theorem State.emit_rdata (e : Event) (s : State) : (s.emit e).rdata = s.rdata := by
  cases e <;> simp [State.emit, State.drive]
@[simp] theorem State.emit_wx0 (e : Event) (s : State) : (s.emit e).wx0 = s.wx0 := by
  cases e <;> simp [State.emit, State.drive]
@[simp] theorem State.emit_wy0 (e : Event) (s : State) : (s.emit e).wy0 = s.wy0 := by
  cases e <;> simp [State.emit, State.drive]
@[simp] theorem State.emit_wx1 (e : Event) (s : State) : (s.emit e).wx1 = s.wx1 := by
  cases e <;> simp [State.emit, State.drive]
@[simp] theorem State.emit_wy1 (e : Event) (s : State) : (s.emit e).wy1 = s.wy1 := by
  cases e <;> simp [State.emit, State.drive]
@[simp] theorem State.emit_armed (e : Event) (s : State) : (s.emit e).armed = s.armed := by
  cases e <;> simp [State.emit, State.drive]
@[simp] theorem State.emit_curX (e : Event) (s : State) : (s.emit e).curX = s.curX := by
  cases e <;> simp [State.emit, State.drive]
@[simp] theorem State.emit_curY (e : Event) (s : State) : (s.emit e).curY = s.curY := by
  cases e <;> simp [State.emit, State.drive]
@[simp] theorem State.emit_remaining (e : Event) (s : State) : (s.emit e).remaining = s.remaining := by
  cases e <;> simp [State.emit, State.drive]
@[simp] theorem State.emit_seqIdx (e : Event) (s : State) : (s.emit e).seqIdx = s.seqIdx := by
  cases e <;> simp [State.emit, State.drive]
@[simp] theorem State.emit_buf (e : Event) (s : State) : (s.emit e).buf = s.buf := by
  cases e <;> simp [State.emit, State.drive]
@[simp] theorem State.emit_latch (e : Event) (s : State) : (s.emit e).latch = s.latch := by
  cases e <;> simp [State.emit, State.drive]
@[simp] theorem State.emit_script (e : Event) (s : State) : (s.emit e).script = s.script := by
  cases e <;> simp [State.emit, State.drive]
@[simp] theorem State.emit_unitLeft (e : Event) (s : State) : (s.emit e).unitLeft = s.unitLeft := by
  cases e <;> simp [State.emit, State.drive]
@[simp] theorem State.emit_traceRev (e : Event) (s : State) : (s.emit e).traceRev = e :: s.traceRev := by
  cases e <;> simp [State.emit, State.drive]
@[simp] theorem State.emit_answers (e : Event) (s : State) : (s.emit e).answers = s.answers := by
  cases e <;> simp [State.emit, State.drive]
@[simp] theorem State.emit_writes (e : Event) (s : State) : (s.emit e).writes = s.writes := by
  cases e <;> simp [State.emit, State.drive]

@[simp] theorem State.emit_trace (e : Event) (s : State) : (s.emit e).trace = s.trace ++ [e] := by
  simp [State.trace]

/-- An event that is not the reset line's keeps every register. -/
theorem State.emit_registers {e : Event} (h : ∀ l, e ≠ .rst l) (s : State) : (s.emit e).registers = s.registers := by
  cases e <;> simp [State.registers_eq_iff] <;> first | (exact absurd rfl (h _)) | simp [State.emit, State.drive]

/-- A reset-line event writes the reset line and no other register. -/
theorem State.emit_rst_registers (l : Bool) (s : State) :
    (s.emit (.rst l)).registers = ({ s with pinRst := l } : State).registers := by
  simp [State.registers_eq_iff, State.emit, State.drive]

theorem State.emit_replies (e : Event) (s : State) : GapReplies s (s.emit e) := by
  obtain ⟨l, hl, he, ha⟩ := s.gap_replies
  exact ⟨l, hl, by cases e <;> simpa [State.emit, State.drive] using he,
    fun h => ⟨(ha h).1, by have := (ha h).2; cases e <;> simpa [State.emit, State.drive] using this⟩⟩

@[simp] theorem State.gap_pins (s : State) : (s.gap.pinCs, s.gap.pinDc) = (s.pinCs, s.pinDc) := by simp

/-- An event moves the pins as `pinsAfter` says. -/
theorem State.emit_pins (e : Event) (s : State) :
    ((s.emit e).pinCs, (s.emit e).pinDc) = pinsAfter [e] (s.pinCs, s.pinDc) := by
  cases e <;> simp [State.emit, State.drive, pinsAfter, pinsEvent]

theorem pinsAfter_append (a b : List Event) (p : Bool × Bool) :
    pinsAfter (a ++ b) p = pinsAfter b (pinsAfter a p) := by simp [pinsAfter]

theorem State.emit_inbox {s : State} (h : s.ctl = .busy ∨ s.arrivals = []) (e : Event) : (s.emit e).inbox = s.inbox := by
  have := State.gap_inbox h
  cases e <;> simpa [State.emit, State.drive] using this

/-! ### The bus oracle -/

/-- The oracle is a function of the answers to come and the counter of writes. -/
theorem State.answerAt_congr {s t : State} (ha : t.answers = s.answers) (hw : t.writes = s.writes) (k : Nat) :
    t.answerAt k = s.answerAt k := by simp [State.answerAt, ha, hw]

@[simp] theorem State.emit_answerAt (e : Event) (s : State) (k : Nat) : (s.emit e).answerAt k = s.answerAt k :=
  State.answerAt_congr (by simp) (by simp) k

@[simp] theorem State.gap_answerAt (s : State) (k : Nat) : s.gap.answerAt k = s.answerAt k :=
  State.answerAt_congr (by simp) (by simp) k

/-- Taking an answer moves the oracle on by one. -/
@[simp] theorem State.takeAnswer_answerAt (s : State) (k : Nat) : s.takeAnswer.answerAt k = s.answerAt (k + 1) := by
  unfold State.answerAt
  cases h : s.answers with
  | nil => simp [State.takeAnswer, h, Nat.add_assoc, Nat.add_comm 1 k]
  | cons a as => simp [State.takeAnswer, h, Nat.add_assoc, Nat.add_comm 1 k]

theorem Answer.eq_ok_or_fail (a : Answer) : a = .ok ∨ a = .fail := by cases a <;> simp

theorem State.busOk_zero (s : State) : s.busOk 0 := fun k hk => absurd hk (Nat.not_lt_zero k)

/-- The oracle's first `n + m` answers are ok when its first `n` are, and the `m` after them. -/
theorem State.busOk_add {s t : State} {n m : Nat} (h : ∀ k, t.answerAt k = s.answerAt (n + k)) (hs : s.busOk n)
    (ht : t.busOk m) : s.busOk (n + m) := by
  intro k hk
  by_cases hkn : k < n
  · exact hs k hkn
  · have := ht (k - n) (by omega)
    rwa [h, show n + (k - n) = k by omega] at this

/-- The first failure after `n` ok answers. -/
theorem State.busFailsAt_add {s t : State} {n j : Nat} (h : ∀ k, t.answerAt k = s.answerAt (n + k)) (hs : s.busOk n)
    (ht : t.busFailsAt j) : s.busFailsAt (n + j) :=
  ⟨State.busOk_add h hs ht.1, by rw [← h]; exact ht.2⟩

/-- A bus cannot be all ok and fail within the same writes. -/
theorem State.busOk_not_fails {s : State} {n j : Nat} (hs : s.busOk n) (hj : j < n) : ¬ s.busFailsAt j := by
  intro h
  have h1 := hs j hj
  rw [h.2] at h1
  exact absurd h1 (by decide)

/-- The write a bus fails at is one and the same. -/
theorem State.busFailsAt_unique {s : State} {i j : Nat} (hi : s.busFailsAt i) (hj : s.busFailsAt j) : i = j := by
  rcases Nat.lt_trichotomy i j with h | h | h
  · exact absurd hi (State.busOk_not_fails hj.1 h)
  · exact h
  · exact absurd hj (State.busOk_not_fails hi.1 h)

/-! ### Wire activity from one state to another -/

/-- `t` is `s` after the events `evs` and `n` byte writes: the registers are those of `r`, only host actions in the gaps
touched the replies, and a request of a busy block was never queued. -/
structure Wired (s t r : State) (evs : List Event) (n : Nat) : Prop where
  registers : t.registers = r.registers
  trace     : t.trace = s.trace ++ evs
  oracle    : ∀ k, t.answerAt k = s.answerAt (n + k)
  replies   : GapReplies s t
  inbox     : s.ctl = .busy ∨ s.arrivals = [] → t.inbox = s.inbox
  pins      : (t.pinCs, t.pinDc) = pinsAfter evs (s.pinCs, s.pinDc)

theorem Wired.refl (s : State) : Wired s s s [] 0 :=
  ⟨rfl, by simp, by simp, GapReplies.refl s, fun _ => rfl, rfl⟩

/-- One activity after another; `hr` says what the second does to the registers the first left. -/
theorem Wired.trans {s t u r r' : State} {evs evs' : List Event} {n m : Nat} (h : Wired s t r evs n)
    (h' : Wired t u r' evs' m) (hc : t.ctl = s.ctl) : Wired s u r' (evs ++ evs') (n + m) := by
  refine ⟨h'.registers, ?_, ?_, h.replies.trans h'.replies, ?_, ?_⟩
  · rw [h'.trace, h.trace, List.append_assoc]
  · intro k
    rw [h'.oracle, h.oracle, Nat.add_assoc]
  · intro hb
    obtain ⟨_, _, _, ha⟩ := h.replies
    rw [h'.inbox (hb.imp (fun hb => by rw [hc, hb]) fun hb => (ha hb).2), h.inbox hb]
  · rw [h'.pins, h.pins, pinsAfter_append]

/-- The registers named by equal `registers`. -/
theorem registers_cfg {t r : State} (h : t.registers = r.registers) : t.cfg = r.cfg := by
  simpa using congrArg State.cfg h

theorem registers_ctl {t r : State} (h : t.registers = r.registers) : t.ctl = r.ctl := by
  simpa using congrArg State.ctl h

theorem Wired.cfg {s t r : State} {evs : List Event} {n : Nat} (h : Wired s t r evs n) : t.cfg = r.cfg :=
  registers_cfg h.registers

theorem Wired.ctl {s t r : State} {evs : List Event} {n : Nat} (h : Wired s t r evs n) : t.ctl = r.ctl :=
  registers_ctl h.registers

/-- The reset-line and `seq_idx` writes of an action (20_memory.md R82, 40_init_sequencer.md R200). -/
def actRegisters (s : State) : Act → State
  | .pinRst level => { s with pinRst := level }
  | .wait _ => s
  | .cmdUnit _ => s
  | .dataUnit _ => s
  | .seqStart => { s with seqIdx := 0 }
  | .seqNext => { s with seqIdx := s.seqIdx + 1 }

/-- The registers after a script whose every byte is answered ok. -/
def scriptRegisters (s : State) (script : List Act) : State := script.foldl actRegisters s

/-- The registers after a script whose byte write number `j` fails. -/
def scriptFailRegisters (s : State) : Nat → List Act → State
  | _, [] => s
  | j, a :: as =>
    if j < actWrites s.cfg a then s else scriptFailRegisters (actRegisters s a) (j - actWrites s.cfg a) as

theorem actRegisters_cfg (s : State) (a : Act) : (actRegisters s a).cfg = s.cfg := by cases a <;> rfl

theorem actRegisters_ctl (s : State) (a : Act) : (actRegisters s a).ctl = s.ctl := by cases a <;> rfl

/-- The registers after an action depend on the registers before it only. -/
theorem actRegisters_congr {s t : State} (h : t.registers = s.registers) (a : Act) :
    (actRegisters t a).registers = (actRegisters s a).registers := by
  have h' := (State.registers_eq_iff s t).1 h
  cases a <;> simp_all [actRegisters, State.registers_eq_iff]

theorem scriptRegisters_congr {s t : State} (h : t.registers = s.registers) (as : List Act) :
    (scriptRegisters t as).registers = (scriptRegisters s as).registers := by
  induction as generalizing s t with
  | nil => exact h
  | cons a as ih => exact ih (actRegisters_congr h a)

theorem scriptFailRegisters_congr {s t : State} (h : t.registers = s.registers) (j : Nat) (as : List Act) :
    (scriptFailRegisters t j as).registers = (scriptFailRegisters s j as).registers := by
  induction as generalizing s t j with
  | nil => exact h
  | cons a as ih =>
    unfold scriptFailRegisters
    rw [registers_cfg h]
    split
    · exact h
    · exact ih (actRegisters_congr h a) _

/-- An event other than the reset line's. -/
theorem Wired.emit {e : Event} (h : ∀ l, e ≠ .rst l) (s : State) : Wired s (s.emit e) s [e] 0 :=
  ⟨State.emit_registers h s, by simp, by simp, State.emit_replies e s, fun hb => State.emit_inbox hb e,
    State.emit_pins e s⟩

/-- A change of the hidden context is no activity. -/
theorem Wired.unitLeft (s : State) (l : List Byte) : Wired s { s with unitLeft := l } s [] 0 :=
  ⟨rfl, by simp [State.trace], fun k => by rw [Nat.zero_add]; exact State.answerAt_congr rfl rfl k, GapReplies.refl s, fun _ => rfl, rfl⟩

theorem Wired.script (s : State) (l : List Act) : Wired s { s with script := l } s [] 0 :=
  ⟨rfl, by simp [State.trace], fun k => by rw [Nat.zero_add]; exact State.answerAt_congr rfl rfl k, GapReplies.refl s, fun _ => rfl, rfl⟩

theorem Wired.takeAnswer (s : State) : Wired s s.takeAnswer s [] 1 :=
  ⟨rfl, by simp [State.trace], fun k => by rw [State.takeAnswer_answerAt, Nat.add_comm], GapReplies.refl s, fun _ => rfl, rfl⟩

/-! ### A byte write, the bytes of a unit, a unit -/

theorem byteWrite_ok {s : State} (h : s.answerAt 0 = .ok) (b : Byte) :
    byteWrite b s = (s.takeAnswer.emit (.byte b), .ok) := by simp [byteWrite, h]

theorem byteWrite_fail {s : State} (h : s.answerAt 0 = .fail) (b : Byte) :
    byteWrite b s = (s.takeAnswer.emit (.fail b), .fail) := by simp [byteWrite, h]

theorem Wired.byteWrite (s : State) (e : Event) (h : ∀ l, e ≠ .rst l) :
    Wired s (s.takeAnswer.emit e) s [e] 1 := by
  have h2 := (Wired.takeAnswer s).trans (Wired.emit h s.takeAnswer) rfl
  exact ⟨h2.registers.trans rfl, h2.trace, h2.oracle, h2.replies, h2.inbox, h2.pins⟩

/-- The bytes of a unit: all are answered ok, or the first failure ends them (20_memory.md R86). -/
theorem sendBytes_cases (bs : List Byte) (s : State) :
    (s.busOk bs.length ∧ ∃ t, sendBytes bs s = (t, .ok) ∧ Wired s t s (bs.map .byte) bs.length) ∨
    (∃ j, j < bs.length ∧ s.busFailsAt j ∧ ∃ t, sendBytes bs s = (t, .fail) ∧
      Wired s t s ((bs.take j).map .byte ++ bs[j]?.toList.map .fail) (j + 1)) := by
  induction bs generalizing s with
  | nil => exact .inl ⟨s.busOk_zero, _, rfl, Wired.unitLeft s []⟩
  | cons b bs ih =>
    have hs' : ∀ k, ({ s with unitLeft := b :: bs } : State).answerAt k = s.answerAt k :=
      fun k => State.answerAt_congr rfl rfl k
    have hpre : Wired s { s with unitLeft := b :: bs } s [] 0 := Wired.unitLeft s _
    rcases Answer.eq_ok_or_fail (s.answerAt 0) with h0 | h0
    · have hw := (hpre.trans (Wired.byteWrite { s with unitLeft := b :: bs } (.byte b) (by simp)) rfl)
      have hw' : Wired s (({ s with unitLeft := b :: bs } : State).takeAnswer.emit (.byte b)) s [.byte b] 1 := by
        refine ⟨hw.registers.trans rfl, by simpa using hw.trace, by simpa using hw.oracle, hw.replies, hw.inbox, hw.pins⟩
      have hone : s.busOk 1 := by
        intro k hk
        rwa [show k = 0 by omega]
      have hrun : sendBytes (b :: bs) s = sendBytes bs (({ s with unitLeft := b :: bs } : State).takeAnswer.emit (.byte b)) := by
        rw [sendBytes, byteWrite_ok (by rw [hs', h0])]
      rcases ih (({ s with unitLeft := b :: bs } : State).takeAnswer.emit (.byte b)) with ⟨hok, t, ht, hwt⟩ | ⟨j, hj, hf, t, ht, hwt⟩
      · refine .inl ⟨?_, t, hrun.trans ht, ?_⟩
        · rw [List.length_cons, Nat.add_comm]
          exact State.busOk_add hw'.oracle hone hok
        · have := hw'.trans hwt (by simp)
          refine ⟨this.registers.trans hw'.registers, this.trace, ?_, this.replies, this.inbox, this.pins⟩
          rw [List.length_cons, Nat.add_comm]
          exact this.oracle
      · refine .inr ⟨j + 1, by simpa using hj, ?_, t, hrun.trans ht, ?_⟩
        · rw [Nat.add_comm]
          exact State.busFailsAt_add hw'.oracle hone hf
        · have := hw'.trans hwt (by simp)
          refine ⟨this.registers.trans hw'.registers, by simpa using this.trace, ?_, this.replies, this.inbox, this.pins⟩
          rw [show j + 1 + 1 = 1 + (j + 1) by omega]
          exact this.oracle
    · have hw := (hpre.trans (Wired.byteWrite { s with unitLeft := b :: bs } (.fail b) (by simp)) rfl)
      refine .inr ⟨0, by simp, ⟨s.busOk_zero, h0⟩, _, ?_, ⟨hw.registers.trans rfl, by simpa using hw.trace, by simpa using hw.oracle, hw.replies, hw.inbox, hw.pins⟩⟩
      rw [sendBytes, byteWrite_fail (by rw [hs', h0])]

theorem Wired.openUnit (k : Kind) (s : State) : Wired s (openUnit k s) s (openEvents s.cfg k) 0 := by
  unfold Machine.openUnit openEvents
  split
  · have h1 := Wired.emit (e := .dc k) (by simp) s
    have h2 := Wired.emit (e := .csAssert) (by simp) (s.emit (.dc k))
    have := h1.trans h2 (by simp)
    exact ⟨this.registers.trans h1.registers, this.trace, this.oracle, this.replies, this.inbox, this.pins⟩
  · exact Wired.emit (by simp) s

theorem Wired.closeUnit (s : State) : Wired s (closeUnit s) s (closeEvents s.cfg) 0 := by
  unfold Machine.closeUnit closeEvents
  split <;> exact Wired.emit (by simp) s

/-- A unit: framed and whole, or framed and stopped at its first failed byte (20_memory.md R85, R86, R89). -/
theorem sendUnit_cases (k : Kind) (payload : List Byte) (s : State) :
    (s.busOk (unitBytes s.cfg k payload).length ∧ ∃ t, sendUnit k payload s = (t, .ok) ∧
      Wired s t s (unitEvents s.cfg k payload) (unitBytes s.cfg k payload).length) ∨
    (∃ j, j < (unitBytes s.cfg k payload).length ∧ s.busFailsAt j ∧ ∃ t, sendUnit k payload s = (t, .fail) ∧
      Wired s t s (unitFailEvents s.cfg k payload j) (j + 1)) := by
  have ho := Wired.openUnit k s
  have hoc : (openUnit k s).cfg = s.cfg := ho.cfg
  have hob : ∀ n, (openUnit k s).busOk n → s.busOk n := fun n h i hi => by
    have := h i hi
    rwa [ho.oracle, Nat.zero_add] at this
  have key : ∀ (t : State) (evs : List Event) (n : Nat), Wired (openUnit k s) t (openUnit k s) evs n →
      Wired s (closeUnit t) s (openEvents s.cfg k ++ evs ++ closeEvents s.cfg) n := by
    intro t evs n ht
    have hc := Wired.closeUnit t
    have h2 := (ho.trans ht ho.ctl).trans hc (ht.ctl.trans ho.ctl)
    rw [ht.cfg, hoc, Nat.zero_add, Nat.add_zero] at h2
    exact ⟨h2.registers.trans (ht.registers.trans ho.registers), h2.trace, h2.oracle, h2.replies, h2.inbox, h2.pins⟩
  rcases sendBytes_cases (unitBytes s.cfg k payload) (openUnit k s) with ⟨hok, t, ht, hw⟩ | ⟨j, hj, hf, t, ht, hw⟩
  · refine .inl ⟨hob _ hok, closeUnit t, by simp [sendUnit, ht], ?_⟩
    exact key t _ _ hw
  · refine .inr ⟨j, hj, ⟨hob _ hf.1, ?_⟩, closeUnit t, by simp [sendUnit, ht], ?_⟩
    · have := hf.2
      rwa [ho.oracle, Nat.zero_add] at this
    · have := key t _ _ hw
      simpa [unitFailEvents] using this

/-! ### An action and a script -/

/-- One action: done with its events, or stopped at the first failed byte with its registers untouched. -/
theorem doAct_cases (a : Act) (s : State) :
    (s.busOk (actWrites s.cfg a) ∧ ∃ t, doAct a s = (t, .ok) ∧
      Wired s t (actRegisters s a) (actEvents s.cfg a) (actWrites s.cfg a)) ∨
    (∃ j, j < actWrites s.cfg a ∧ s.busFailsAt j ∧ ∃ t, doAct a s = (t, .fail) ∧
      Wired s t s (actFailEvents s.cfg j a) (j + 1)) := by
  cases a with
  | pinRst l =>
    exact .inl ⟨s.busOk_zero, _, rfl, State.emit_rst_registers l s, by simp [actEvents], by simp [actWrites],
      State.emit_replies _ s, fun hb => State.emit_inbox hb _, State.emit_pins _ s⟩
  | wait n =>
    refine .inl ⟨s.busOk_zero, _, rfl, ?_⟩
    simp only [actRegisters, actEvents, actWrites, waitFor, waitEvents]
    split
    · exact Wired.refl s
    · exact Wired.emit (by simp) s
  | cmdUnit b => exact sendUnit_cases .cmd [b] s
  | dataUnit bs => exact sendUnit_cases .data bs s
  | seqStart =>
    exact .inl ⟨s.busOk_zero, _, rfl, rfl, by simp [actEvents, State.trace],
      fun k => by rw [actWrites, Nat.zero_add]; exact State.answerAt_congr rfl rfl k, GapReplies.refl s, fun _ => rfl, rfl⟩
  | seqNext =>
    exact .inl ⟨s.busOk_zero, _, rfl, rfl, by simp [actEvents, State.trace],
      fun k => by rw [actWrites, Nat.zero_add]; exact State.answerAt_congr rfl rfl k, GapReplies.refl s, fun _ => rfl, rfl⟩

/-- A script: every unit succeeds and its events are those of its actions, or the first failed byte ends it. Nothing else
can happen (00_scope.md R22, 60_exceptions.md R612). -/
theorem perform_cases (script : List Act) (s : State) :
    (s.busOk (scriptWrites s.cfg script) ∧ ∃ t, perform script s = (t, .ok) ∧
      Wired s t (scriptRegisters s script) (scriptEvents s.cfg script) (scriptWrites s.cfg script)) ∨
    (∃ j, j < scriptWrites s.cfg script ∧ s.busFailsAt j ∧ ∃ t, perform script s = (t, .fail) ∧
      Wired s t (scriptFailRegisters s j script) (scriptFailEvents s.cfg j script) (j + 1)) := by
  induction script generalizing s with
  | nil => exact .inl ⟨s.busOk_zero, _, rfl, Wired.script s []⟩
  | cons a as ih =>
    have hpre := Wired.script s (a :: as)
    have hbus : ∀ n, ({ s with script := a :: as } : State).busOk n → s.busOk n := fun n h k hk => by
      have := h k hk
      rwa [hpre.oracle, Nat.zero_add] at this
    rcases doAct_cases a { s with script := a :: as } with ⟨hok, t, ht, hw⟩ | ⟨j, hj, hf, t, ht, hw⟩
    · have hokS : s.busOk (actWrites s.cfg a) := hbus _ hok
      have hwS : Wired s t (actRegisters s a) (actEvents s.cfg a) (actWrites s.cfg a) := by
        have h2 := hpre.trans hw rfl
        refine ⟨h2.registers.trans (actRegisters_congr (s := s) (t := { s with script := a :: as }) rfl a), h2.trace, ?_, h2.replies, h2.inbox, h2.pins⟩
        simpa using h2.oracle
      have htc : t.cfg = s.cfg := hwS.cfg.trans (actRegisters_cfg s a)
      have htl : t.ctl = s.ctl := hwS.ctl.trans (actRegisters_ctl s a)
      have hrun : perform (a :: as) s = perform as t := by simp [perform, ht]
      rcases ih t with ⟨hok', u, hu, hwu⟩ | ⟨j, hj, hf, u, hu, hwu⟩
      · refine .inl ⟨?_, u, hrun.trans hu, ?_⟩
        · rw [htc] at hok'
          simpa [scriptWrites] using State.busOk_add hwS.oracle hokS hok'
        · have h2 := hwS.trans hwu htl
          rw [htc] at h2
          refine ⟨h2.registers.trans (scriptRegisters_congr hwS.registers as), ?_, ?_, h2.replies, h2.inbox, h2.pins⟩
          · simpa [scriptEvents] using h2.trace
          · simpa [scriptWrites] using h2.oracle
      · rw [htc] at hj hwu
        refine .inr ⟨actWrites s.cfg a + j, ?_, State.busFailsAt_add hwS.oracle hokS hf, u, hrun.trans hu, ?_⟩
        · simpa [scriptWrites] using hj
        · have h2 := hwS.trans hwu htl
          have hlt : ¬ (actWrites s.cfg a + j < actWrites s.cfg a) := by omega
          refine ⟨?_, ?_, ?_, h2.replies, h2.inbox, ?_⟩
          · simp only [scriptFailRegisters, hlt, if_false, Nat.add_sub_cancel_left]
            exact h2.registers.trans (scriptFailRegisters_congr hwS.registers j as)
          · simp only [scriptFailEvents, hlt, if_false, Nat.add_sub_cancel_left]
            exact h2.trace
          · rw [Nat.add_assoc]
            exact h2.oracle
          · simp only [scriptFailEvents, hlt, if_false, Nat.add_sub_cancel_left]
            exact h2.pins
    · refine .inr ⟨j, ?_, ⟨hbus _ hf.1, ?_⟩, t, by simp [perform, ht], ?_⟩
      · simp only [scriptWrites, List.map_cons, List.sum_cons]
        exact Nat.lt_add_right _ hj
      · have := hf.2
        rwa [hpre.oracle, Nat.zero_add] at this
      · have h2 := hpre.trans hw rfl
        have hj' : j < actWrites s.cfg a := hj
        refine ⟨?_, ?_, ?_, h2.replies, h2.inbox, ?_⟩
        · simp only [scriptFailRegisters, hj', if_true]
          exact h2.registers.trans rfl
        · simp only [scriptFailEvents, hj', if_true]
          exact h2.trace
        · simpa using h2.oracle
        · simp only [scriptFailEvents, hj', if_true]
          exact h2.pins

/-- A script on a bus that answers ok. -/
theorem perform_ok {script : List Act} {s : State} (h : s.busOk (scriptWrites s.cfg script)) :
    ∃ t, perform script s = (t, .ok) ∧
      Wired s t (scriptRegisters s script) (scriptEvents s.cfg script) (scriptWrites s.cfg script) := by
  rcases perform_cases script s with ⟨_, h'⟩ | ⟨j, hj, hf, _⟩
  · exact h'
  · exact absurd hf (State.busOk_not_fails h hj)

/-- A script on a bus that fails within it. -/
theorem perform_fails {script : List Act} {s : State} {j : Nat} (hj : j < scriptWrites s.cfg script) (h : s.busFailsAt j) :
    ∃ t, perform script s = (t, .fail) ∧
      Wired s t (scriptFailRegisters s j script) (scriptFailEvents s.cfg j script) (j + 1) := by
  rcases perform_cases script s with ⟨hok, _⟩ | ⟨i, hi, hf, t, ht⟩
  · exact absurd h (State.busOk_not_fails hok hj)
  · rw [State.busFailsAt_unique hf h] at ht
    exact ⟨t, ht⟩

/-! ### Scripts without reset-line or `seq_idx` actions -/

/-- An action that sends a unit. -/
def Act.isUnit : Act → Bool
  | .pinRst _ => false
  | .wait _ => true
  | .cmdUnit _ => true
  | .dataUnit _ => true
  | .seqStart => false
  | .seqNext => false

theorem scriptRegisters_units {script : List Act} (h : script.all Act.isUnit = true) (s : State) :
    scriptRegisters s script = s := by
  induction script generalizing s with
  | nil => rfl
  | cons a as ih =>
    simp only [List.all_cons, Bool.and_eq_true] at h
    have : actRegisters s a = s := by cases a <;> simp_all [actRegisters, Act.isUnit]
    simp only [scriptRegisters, List.foldl_cons, this]
    exact ih h.2 s

theorem scriptFailRegisters_units {script : List Act} (h : script.all Act.isUnit = true) (j : Nat) (s : State) :
    scriptFailRegisters s j script = s := by
  induction script generalizing s j with
  | nil => rfl
  | cons a as ih =>
    simp only [List.all_cons, Bool.and_eq_true] at h
    have : actRegisters s a = s := by cases a <;> simp_all [actRegisters, Act.isUnit]
    simp only [scriptFailRegisters, this]
    split
    · rfl
    · exact ih h.2 _ s

@[simp] theorem windowScript_units (c : Cfg) (x0 y0 x1 y1 : Half) : (windowScript c x0 y0 x1 y1).all Act.isUnit = true := rfl

@[simp] theorem wordsScript_units (ws : List Half) : (wordsScript ws).all Act.isUnit = true := rfl

@[simp] theorem pageScript_units (c : Cfg) (m : Memory) (p : Nat) : (pageScript c m p).all Act.isUnit = true := by
  simp [pageScript, Act.isUnit]

@[simp] theorem flushScript_units (c : Cfg) (m : Memory) : (flushScript c m).all Act.isUnit = true := by
  simp [flushScript]

/-! ### Completion, release, abort, acceptance -/

@[simp] theorem State.complete_registers (code : Code) (v : Byte) (s : State) :
    (s.complete code v).registers = ({ s with lastResult := code } : State).registers := rfl

@[simp] theorem State.complete_trace (code : Code) (v : Byte) (s : State) : (s.complete code v).trace = s.trace := rfl

/-- A release writes the controller state and the result, and no other register (43_control.md R455). -/
theorem State.release_registers (next : ControllerState) (code : Code) (s : State) :
    (s.release next code).registers = ({ s with ctl := next, lastResult := code } : State).registers := by
  simp [State.registers_eq_iff, State.release]

@[simp] theorem State.release_trace (next : ControllerState) (code : Code) (s : State) :
    (s.release next code).trace = s.trace := by simp [State.release, State.trace]

@[simp] theorem State.release_answerAt (next : ControllerState) (code : Code) (s : State) (k : Nat) :
    (s.release next code).answerAt k = s.answerAt k := by
  refine State.answerAt_congr ?_ ?_ k <;> simp [State.release]

@[simp] theorem State.release_script (next : ControllerState) (code : Code) (s : State) :
    (s.release next code).script = [] := rfl

@[simp] theorem State.release_unitLeft (next : ControllerState) (code : Code) (s : State) :
    (s.release next code).unitLeft = [] := rfl

/-- The last thing the host is told is the response. -/
theorem State.release_replies (next : ControllerState) (code : Code) (s : State) : ∃ l : List Reply, (∀ r ∈ l, r.inGap) ∧
    (s.release next code).repliesRev = .response code 0 :: (l ++ s.repliesRev) ∧
    (s.arrivals = [] → l = [] ∧ (s.release next code).arrivals = []) := by
  obtain ⟨l, hl, he, ha⟩ := s.gap_replies
  exact ⟨l, hl, by simp [State.release, he], fun h => ⟨(ha h).1, by simpa [State.release] using (ha h).2⟩⟩

theorem State.release_inbox_of_busy {s : State} (h : s.ctl = .busy) (next : ControllerState) (code : Code) :
    (s.release next code).inbox = s.inbox := by
  simpa [State.release] using State.gap_inbox_of_busy h

@[simp] theorem State.rejectBusy_registers (s : State) : s.rejectBusy.registers = s.registers := rfl

@[simp] theorem State.rejectBusy_trace (s : State) : s.rejectBusy.trace = s.trace := rfl

/-- While busy every request is rejected (43_control.md R451). -/
theorem acceptance_busy {s : State} (h : s.ctl = .busy) (i : Instr) : acceptance i s = .reject := by
  simp [acceptance, h]

theorem request_busy {s : State} (h : s.ctl = .busy) (i : Instr) (body : State → State) :
    request i body s = s.rejectBusy := by simp [request, acceptance_busy h]

theorem request_accept {i : Instr} {s : State} (h : acceptance i s = .accept) (body : State → State) :
    request i body s = body s := by simp [request, h]

theorem request_refuse {i : Instr} {s : State} {code : Code} (h : acceptance i s = .refuse code) (body : State → State) :
    request i body s = s.complete code 0 := by simp [request, h]

/-- What a request can do: be rejected, complete at acceptance, or run its body (43_control.md R450). -/
theorem request_cases (i : Instr) (body : State → State) (s : State) :
    (s.ctl = .busy ∧ request i body s = s.rejectBusy) ∨
    (s.ctl ≠ .busy ∧ ∃ code, acceptance i s = .refuse code ∧ request i body s = s.complete code 0) ∨
    (s.ctl ≠ .busy ∧ acceptance i s = .accept ∧ request i body s = body s) := by
  by_cases hb : s.ctl = .busy
  · exact .inl ⟨hb, request_busy hb i body⟩
  · cases h : acceptance i s with
    | reject =>
      exfalso
      revert h
      unfold acceptance
      simp only [hb, if_false]
      repeat' split
      all_goals simp
    | refuse code => exact .inr (.inl ⟨hb, code, rfl, request_refuse h body⟩)
    | accept => exact .inr (.inr ⟨hb, rfl, request_accept h body⟩)

/-- What acceptance has checked once it accepts (60_exceptions.md R611). -/
theorem acceptance_accept {i : Instr} {s : State} (h : acceptance i s = .accept) :
    s.ctl ≠ .busy ∧ legalIn i s.cfg.variant = true ∧ (s.ctl = .uninitialized → acceptedUninitialized i = true) ∧
      (needsArmed i = true → s.armed = true) ∧ inRange i s.cfg = true ∧ (needsUnlocked i = true → s.lock = false) := by
  revert h
  unfold acceptance
  repeat' split
  all_goals simp_all

/-- Acceptance, from what it checks. -/
theorem acceptance_of {i : Instr} {s : State} (h1 : s.ctl ≠ .busy) (h2 : legalIn i s.cfg.variant = true)
    (h3 : s.ctl = .uninitialized → acceptedUninitialized i = true) (h4 : needsArmed i = true → s.armed = true)
    (h5 : inRange i s.cfg = true) (h6 : needsUnlocked i = true → s.lock = false) : acceptance i s = .accept := by
  unfold acceptance
  have h3' : ¬ (s.ctl = .uninitialized ∧ acceptedUninitialized i = false) := by
    rintro ⟨ha, hb⟩
    simp [h3 ha] at hb
  have h4' : ¬ (needsArmed i = true ∧ s.armed = false) := by
    rintro ⟨ha, hb⟩
    simp [h4 ha] at hb
  have h6' : ¬ (needsUnlocked i = true ∧ s.lock = true) := by
    rintro ⟨ha, hb⟩
    simp [h6 ha] at hb
  simp [h1, h2, h3', h4', h5, h6']

/-- What a tried script can do: every unit succeeds and `done` goes on, or the abort is taken. -/
theorem tryScript_cases (script : List Act) (h : Handler) (done : State → State) (s : State) :
    (s.busOk (scriptWrites s.cfg script) ∧ ∃ t, tryScript script h done s = done t ∧
      Wired s t (scriptRegisters s script) (scriptEvents s.cfg script) (scriptWrites s.cfg script)) ∨
    (∃ j, j < scriptWrites s.cfg script ∧ s.busFailsAt j ∧ ∃ t, tryScript script h done s = abort h t ∧
      Wired s t (scriptFailRegisters s j script) (scriptFailEvents s.cfg j script) (j + 1)) := by
  rcases perform_cases script s with ⟨hok, t, ht, hw⟩ | ⟨j, hj, hf, t, ht, hw⟩
  · exact .inl ⟨hok, t, by simp [tryScript, ht], hw⟩
  · exact .inr ⟨j, hj, hf, t, by simp [tryScript, ht], hw⟩

theorem dropContext_wired {s t r : State} {evs : List Event} {n : Nat} (h : Wired s t r evs n) : Wired s t.dropContext r evs n :=
  ⟨h.registers, h.trace, fun k => (State.answerAt_congr rfl rfl k).trans (h.oracle k), h.replies, h.inbox, h.pins⟩

theorem disarm_wired {s t r : State} {evs : List Event} {n : Nat} (h : Wired s t r evs n) : Wired s t.disarm r.disarm evs n := by
  refine ⟨?_, h.trace, fun k => (State.answerAt_congr rfl rfl k).trans (h.oracle k), h.replies, h.inbox, h.pins⟩
  have hd : ∀ q : State, q.disarm.registers = q.registers.disarm := fun _ => rfl
  rw [hd, hd, h.registers]

/-- What a script outside any request can do. -/
theorem performAlone_cases (script : List Act) (s : State) :
    (s.busOk (scriptWrites s.cfg script) ∧ Wired s (performAlone script s) (scriptRegisters s script)
      (scriptEvents s.cfg script) (scriptWrites s.cfg script)) ∨
    (∃ j, j < scriptWrites s.cfg script ∧ s.busFailsAt j ∧ Wired s (performAlone script s)
      (scriptFailRegisters s j script).disarm (scriptFailEvents s.cfg j script) (j + 1)) := by
  rcases perform_cases script s with ⟨hok, t, ht, hw⟩ | ⟨j, hj, hf, t, ht, hw⟩
  · refine .inl ⟨hok, ?_⟩
    simp only [performAlone, ht]
    exact dropContext_wired hw
  · refine .inr ⟨j, hj, hf, ?_⟩
    simp only [performAlone, ht]
    exact dropContext_wired (disarm_wired hw)

theorem performAlone_quiet (script : List Act) (s : State) :
    (performAlone script s).script = [] ∧ (performAlone script s).unitLeft = [] := by
  unfold performAlone
  split <;> exact ⟨rfl, rfl⟩

end Sys2Proof.Machine
end

