-- ==== Sys2Proof/Laws/Operands.lean ====
section
/-! SUPPORT. What the operand computations give, in natural numbers: validity, cell count, pixel index and bit, delays,
the cursor's advance. -/

namespace Sys2Proof.Machine

theorem validWindow_iff (c : Cfg) (x0 y0 x1 y1 : Half) : validWindow c x0 y0 x1 y1 = true ↔
    x0 ≤ x1 ∧ x1 < c.width ∧ y0 ≤ y1 ∧ y1 < c.height := by
  simp [validWindow, and_assoc]

theorem validPoint_iff (c : Cfg) (x y : Half) : validPoint c x y = true ↔ x < c.width ∧ y < c.height := by
  simp [validPoint]

/-- A side of a valid window, in u32 (41_window_write.md R308). -/
theorem side_toNat {a b : Half} (h : a ≤ b) :
    (b.setWidth 32 - a.setWidth 32 + 1 : Long).toNat = b.toNat - a.toNat + 1 := by
  have := a.isLt
  have := b.isLt
  bv_omega

/-- The cell count of a window with ordered bounds does not wrap unless both sides are whole (41_window_write.md R308). -/
theorem cellCount_toNat {x0 y0 x1 y1 w h : Half} (hx : x0 ≤ x1) (hxw : x1 < w) (hy : y0 ≤ y1) (hyh : y1 < h) :
    (cellCount x0 y0 x1 y1).toNat = (x1.toNat - x0.toNat + 1) * (y1.toNat - y0.toNat + 1) := by
  unfold cellCount
  rw [BitVec.toNat_mul, side_toNat hx, side_toNat hy]
  have h1 : x1.toNat - x0.toNat + 1 ≤ 65535 := by
    have : x1.toNat < w.toNat := hxw
    have := w.isLt
    omega
  have h2 : y1.toNat - y0.toNat + 1 ≤ 65535 := by
    have : y1.toNat < h.toNat := hyh
    have := h.isLt
    omega
  refine Nat.mod_eq_of_lt ?_
  calc _ ≤ 65535 * 65535 := Nat.mul_le_mul h1 h2
    _ < 2 ^ 32 := by decide

/-- The delay of an entry does not wrap (30_encoding.md R129). -/
theorem entryDelay_toNat (e : CommandEntry) : (entryDelay e).toNat = e.delayMs.toNat * 1000 + e.delayUs.toNat := by
  have := e.delayMs.isLt
  have := e.delayUs.isLt
  unfold entryDelay
  bv_omega

/-- The height of a Mono block is a whole number of pages (00_scope.md R14). -/
theorem mono_height {c : Cfg} (h : c.variant = .mono) : c.height.toNat % 8 = 0 := by
  have hv := c.valid
  simp only [RawCfg.check, h, RawCfg.checkMono, Bool.and_eq_true, beq_iff_eq] at hv
  exact hv.1.1.1.1.1.2.1.2

/-- A Mono block has a preamble for each page (00_scope.md R16). -/
theorem mono_preambles {c : Cfg} (h : c.variant = .mono) : c.monoPagePreamble.length = c.height.toNat / 8 := by
  have hv := c.valid
  simp only [RawCfg.check, h, RawCfg.checkMono, Bool.and_eq_true, beq_iff_eq] at hv
  exact hv.1.1.1.1.1.2.2

/-- A Color block is on SPI (00_scope.md R16, 92_eei_decisions.md D34). -/
theorem color_isSpi {c : Cfg} (h : c.variant = .color) : c.transport.isSpi = true := by
  have hv := c.valid
  simp only [RawCfg.check, h, RawCfg.checkColor, Bool.and_eq_true, beq_iff_eq] at hv
  exact hv.1.1.1.1.1.2.2

/-- The table's length fits 16 bits (00_scope.md R15). -/
theorem table_length (c : Cfg) : c.initTable.length ≤ 65535 := by
  have hv := c.valid
  simp only [RawCfg.check, Bool.and_eq_true, decide_eq_true_eq] at hv
  exact hv.1.1.1.1.2

/-- The two I2C control bytes differ (00_scope.md R16). -/
theorem control_distinct (c : Cfg) : c.ctrlCmd ≠ c.ctrlData := by
  have hv := c.valid
  simp only [RawCfg.check, Bool.and_eq_true, bne_iff_ne, ne_eq] at hv
  exact fun h => hv.1.1.2 h.symm

/-- A pixel of the panel lies in the buffer (20_memory.md R74, R75). -/
theorem pixelIndex_lt {c : Cfg} {x y : Half} (hm : c.variant = .mono) (hx : x < c.width) (hy : y < c.height) :
    pixelIndex c x y < bufferSize c := by
  have hx' : x.toNat < c.width.toNat := hx
  have hy' : y.toNat < c.height.toNat := hy
  have h8 := mono_height hm
  obtain ⟨p, hp⟩ : ∃ p, c.height.toNat = 8 * p := ⟨c.height.toNat / 8, by omega⟩
  have hsize : bufferSize c = p * c.width.toNat := by
    simp only [bufferSize, hm, hp]
    rw [show c.width.toNat * (8 * p) = 8 * (p * c.width.toNat) by ring, Nat.mul_div_cancel_left _ (by decide)]
  have hpage : y.toNat / 8 + 1 ≤ p := by omega
  rw [hsize]
  unfold pixelIndex
  calc y.toNat / 8 * c.width.toNat + x.toNat < (y.toNat / 8 + 1) * c.width.toNat := by
        rw [Nat.add_mul, Nat.one_mul]
        omega
    _ ≤ p * c.width.toNat := Nat.mul_le_mul_right _ hpage

theorem pixelBit_lt (y : Half) : pixelBit y < 8 := Nat.mod_lt _ (by decide)

/-- Two points of the panel share a byte exactly when they share a column and a page (42_mono_buffer.md R407). -/
theorem pixelIndex_inj {c : Cfg} {x y x' y' : Half} (hx : x < c.width) (hx' : x' < c.width)
    (h : pixelIndex c x y = pixelIndex c x' y') : x = x' ∧ y.toNat / 8 = y'.toNat / 8 := by
  have hx1 : x.toNat < c.width.toNat := hx
  have hx2 : x'.toNat < c.width.toNat := hx'
  have hpos : 0 < c.width.toNat := by omega
  unfold pixelIndex at h
  have hd := congrArg (· / c.width.toNat) h
  have hm := congrArg (· % c.width.toNat) h
  simp only [Nat.mul_comm _ c.width.toNat, Nat.mul_add_div hpos, Nat.mul_add_mod, Nat.div_eq_of_lt hx1,
    Nat.div_eq_of_lt hx2, Nat.mod_eq_of_lt hx1, Nat.mod_eq_of_lt hx2, Nat.add_zero] at hd hm
  exact ⟨BitVec.eq_of_toNat_eq hm, hd⟩

/-- The bit written, the other seven as before (42_mono_buffer.md R401). -/
theorem getBit_setBit (b : Byte) (v : BitVec 1) {k j : Nat} (hk : k < 8) (hj : j < 8) :
    getBit (setBit b k v) j = if j = k then v else getBit b j := by
  ext i hi
  obtain rfl : i = 0 := by omega
  simp only [getBit, setBit]
  by_cases h : j = k
  · subst h
    simp [hj]
  · rcases Nat.lt_or_ge j k with hlt | hge
    · simp [h, hj, hlt]
    · have h1 : j - k ≠ 0 := by omega
      simp [h, hj, h1, BitVec.getLsbD_of_ge v (j - k) (by omega)]

/-! ### The cursor (41_window_write.md R307) -/

/-- The new cursor, count and arming (41_window_write.md R307), and nothing else. -/
theorem State.advance_eq (s : State) : s.advance =
    { s with
        curX := if s.curX = s.wx1 then s.wx0 else s.curX + 1
        curY := if s.curX = s.wx1 then s.curY + 1 else s.curY
        remaining := s.remaining - 1
        armed := if s.remaining - 1 = 0 then false else s.armed } := by
  unfold State.advance
  by_cases h : s.curX = s.wx1 <;> by_cases h' : s.remaining - 1 = 0 <;> simp only [h, h', reduceIte]

@[simp] theorem State.advance_cfg (s : State) : s.advance.cfg = s.cfg := by rw [State.advance_eq]

@[simp] theorem State.advance_ctl (s : State) : s.advance.ctl = s.ctl := by rw [State.advance_eq]

@[simp] theorem State.advance_trace (s : State) : s.advance.trace = s.trace := by rw [State.advance_eq]; rfl

end Sys2Proof.Machine
end

