-- ==== Sys2Proof/Laws/Scripts.lean ====
section
/-! SUPPORT. The events, byte writes and registers of the requests' scripts, in the spec's own terms. -/

namespace Sys2Proof.Machine

theorem State.busOk_mono {s : State} {n m : Nat} (h : s.busOk n) (hm : m ≤ n) : s.busOk m :=
  fun k hk => h k (Nat.lt_of_lt_of_le hk hm)

/-- A list of ok answers is an ok bus for as long as it lasts. -/
theorem State.busOk_of_answers {s : State} {n : Nat} (h : s.answers = List.replicate n .ok) : s.busOk n := by
  intro k hk
  simp [State.answerAt, h, hk]

/-- A list of `j` ok answers and a failure is a bus that fails at byte write `j`. -/
theorem State.busFailsAt_of_answers {s : State} {j : Nat} {as : List Answer}
    (h : s.answers = List.replicate j .ok ++ .fail :: as) : s.busFailsAt j := by
  refine ⟨fun k hk => ?_, ?_⟩
  · simp [State.answerAt, h, List.getElem?_append_left, hk]
  · simp [State.answerAt, h]

@[simp] theorem scriptEvents_append (c : Cfg) (a b : List Act) :
    scriptEvents c (a ++ b) = scriptEvents c a ++ scriptEvents c b := by simp [scriptEvents]

@[simp] theorem scriptWrites_append (c : Cfg) (a b : List Act) :
    scriptWrites c (a ++ b) = scriptWrites c a + scriptWrites c b := by simp [scriptWrites]

theorem scriptRegisters_append (s : State) (a b : List Act) :
    scriptRegisters s (a ++ b) = scriptRegisters (scriptRegisters s a) b := by simp [scriptRegisters]

/-- The byte writes of a unit. -/
theorem unitBytes_length (c : Cfg) (k : Kind) (bs : List Byte) :
    (unitBytes c k bs).length = bs.length + if c.transport.isSpi then 0 else 1 := by
  unfold unitBytes
  split <;> simp

/-- The window group is 11 byte writes on SPI (95_test_vectors.md V38). -/
theorem windowScript_writes {c : Cfg} (h : c.transport.isSpi = true) (x0 y0 x1 y1 : Half) :
    scriptWrites c (windowScript c x0 y0 x1 y1) = 11 := by
  simp [scriptWrites, windowScript, casetScript, rasetScript, ramwrScript, actWrites, bytesOfRange, unitBytes, h]

theorem bytesOfWords_length (ws : List Half) : (bytesOfWords ws).length = 2 * ws.length := by
  induction ws with
  | nil => rfl
  | cons w ws ih =>
    simp only [bytesOfWords, List.flatMap_cons, List.length_append, List.length_cons, List.length_nil] at ih ⊢
    omega

theorem wordsScript_writes {c : Cfg} (h : c.transport.isSpi = true) (ws : List Half) :
    scriptWrites c (wordsScript ws) = 2 * ws.length := by
  simp [scriptWrites, wordsScript, actWrites, unitBytes, h, bytesOfWords_length]

/-! ### Units as scripts -/

/-- The action that sends a unit: a command unit has one byte (30_encoding.md R134). -/
def unitAct (u : Kind × List Byte) : Act :=
  match u with
  | (.cmd, [b]) => .cmdUnit b
  | (_, bs) => .dataUnit bs

/-- A list of units whose command units have one byte each. -/
def cmdsSingle (us : List (Kind × List Byte)) : Prop := ∀ u ∈ us, u.1 = .cmd → ∃ b, u.2 = [b]

theorem unitAct_events {c : Cfg} {u : Kind × List Byte} (h : u.1 = .cmd → ∃ b, u.2 = [b]) :
    actEvents c (unitAct u) = unitEvents c u.1 u.2 ∧ actWrites c (unitAct u) = (unitBytes c u.1 u.2).length ∧
      ∀ j, actFailEvents c j (unitAct u) = unitFailEvents c u.1 u.2 j := by
  obtain ⟨k, bs⟩ := u
  cases k with
  | data => exact ⟨rfl, rfl, fun _ => rfl⟩
  | cmd =>
    obtain ⟨b, hb⟩ := h rfl
    simp only at hb
    subst hb
    exact ⟨rfl, rfl, fun _ => rfl⟩

/-- The events, byte writes and failing events of a script of units are those of its units. -/
theorem unitsScript {c : Cfg} {us : List (Kind × List Byte)} (h : cmdsSingle us) :
    scriptEvents c (us.map unitAct) = unitsEvents c us ∧ scriptWrites c (us.map unitAct) = unitsWrites c us ∧
      ∀ j, scriptFailEvents c j (us.map unitAct) = unitsFailEvents c j us := by
  induction us with
  | nil => exact ⟨rfl, rfl, fun _ => rfl⟩
  | cons u us ih =>
    obtain ⟨h1, h2, h3⟩ := unitAct_events (c := c) (h u (List.mem_cons_self))
    obtain ⟨i1, i2, i3⟩ := ih fun v hv => h v (List.mem_cons_of_mem _ hv)
    refine ⟨?_, ?_, fun j => ?_⟩
    · simpa [scriptEvents, unitsEvents, h1] using i1
    · simpa [scriptWrites, unitsWrites, h2] using i2
    · simp only [List.map_cons, scriptFailEvents, unitsFailEvents, h1, h2, h3, i3]

theorem windowScript_units_eq (c : Cfg) (x0 y0 x1 y1 : Half) :
    windowScript c x0 y0 x1 y1 = (windowUnits c x0 y0 x1 y1).map unitAct := rfl

theorem windowUnits_single (c : Cfg) (x0 y0 x1 y1 : Half) : cmdsSingle (windowUnits c x0 y0 x1 y1) := by
  intro u hu
  simp only [windowUnits, List.mem_cons, List.not_mem_nil, or_false] at hu
  rcases hu with rfl | rfl | rfl | rfl | rfl <;> simp

theorem wordsScript_units_eq (ws : List Half) : wordsScript ws = [wordsUnit ws].map unitAct := rfl

theorem wordsUnit_single (ws : List Half) : cmdsSingle [wordsUnit ws] := by
  intro u hu
  obtain rfl := List.mem_singleton.1 hu
  simp [wordsUnit]

theorem cmdsSingle_append {us vs : List (Kind × List Byte)} (hu : cmdsSingle us) (hv : cmdsSingle vs) :
    cmdsSingle (us ++ vs) := by
  intro u h
  rcases List.mem_append.1 h with h | h
  · exact hu u h
  · exact hv u h

theorem pageScript_units_eq (c : Cfg) (m : Memory) (p : Nat) : pageScript c m p = (pageUnits c m p).map unitAct := by
  simp [pageScript, pageUnits, unitAct, Function.comp_def]

theorem pageUnits_single (c : Cfg) (m : Memory) (p : Nat) : cmdsSingle (pageUnits c m p) := by
  intro u hu
  simp only [pageUnits, List.mem_append, List.mem_map, List.mem_singleton] at hu
  rcases hu with ⟨b, _, rfl⟩ | rfl <;> simp

theorem flushScript_units_eq (c : Cfg) (m : Memory) : flushScript c m = (flushUnits c m).map unitAct := by
  simp only [flushScript, flushUnits, List.map_flatMap]
  congr 1
  funext p
  exact pageScript_units_eq c m p

theorem flushUnits_single (c : Cfg) (m : Memory) : cmdsSingle (flushUnits c m) := by
  intro u hu
  obtain ⟨p, _, hp⟩ := List.mem_flatMap.1 hu
  exact pageUnits_single c m p u hp

theorem scriptWrites_flatMap {α : Type} (c : Cfg) (f : α → List Act) (l : List α) :
    scriptWrites c (l.flatMap f) = (l.map fun a => scriptWrites c (f a)).sum := by
  induction l with
  | nil => rfl
  | cons a l ih => simp [ih]

/-! ### The table -/

theorem entryUnits_events (c : Cfg) (e : CommandEntry) : scriptEvents c (entryUnits e) = entryEvents c e := by
  unfold entryUnits entryEvents
  by_cases h : e.params = [] <;> simp [scriptEvents, actEvents, h]

theorem entryUnits_writes (c : Cfg) (e : CommandEntry) : scriptWrites c (entryUnits e) = entryWrites c e := by
  unfold entryUnits entryWrites
  by_cases h : e.params = [] <;> simp [scriptWrites, actWrites, h]

/-- The transmission of an entry writes no register. -/
theorem entryUnits_isUnit (e : CommandEntry) : (entryUnits e).all Act.isUnit = true := by
  unfold entryUnits
  by_cases h : e.params = [] <;> simp [Act.isUnit, h]

theorem entriesUnits_isUnit (es : List CommandEntry) : (es.flatMap entryUnits).all Act.isUnit = true := by
  induction es with
  | nil => rfl
  | cons e es ih => rw [List.flatMap_cons, List.all_append, entryUnits_isUnit, ih]; rfl

theorem entriesUnits_events (c : Cfg) (es : List CommandEntry) :
    scriptEvents c (es.flatMap entryUnits) = es.flatMap (entryEvents c) := by
  induction es with
  | nil => rfl
  | cons e es ih => rw [List.flatMap_cons, scriptEvents_append, entryUnits_events, ih, List.flatMap_cons]

theorem entriesUnits_writes (c : Cfg) (es : List CommandEntry) :
    scriptWrites c (es.flatMap entryUnits) = (es.map (entryWrites c)).sum := by
  rw [scriptWrites_flatMap]
  simp [entryUnits_writes]

theorem entryScript_events (c : Cfg) (e : CommandEntry) : scriptEvents c (entryScript e) = entryEvents c e := by
  rw [entryScript, scriptEvents_append, entryUnits_events]
  simp [scriptEvents, actEvents]

theorem entryScript_writes (c : Cfg) (e : CommandEntry) : scriptWrites c (entryScript e) = entryWrites c e := by
  rw [entryScript, scriptWrites_append, entryUnits_writes]
  simp [scriptWrites, actWrites]

/-- An entry of the table phase moves `seq_idx` on by one (10_state.md R33). -/
theorem entryScript_registers (s : State) (e : CommandEntry) :
    scriptRegisters s (entryScript e) = { s with seqIdx := s.seqIdx + 1 } := by
  rw [entryScript, scriptRegisters_append, scriptRegisters_units (entryUnits_isUnit e)]
  rfl

theorem entriesScript_registers (s : State) (es : List CommandEntry) :
    scriptRegisters s (es.flatMap entryScript) = { s with seqIdx := s.seqIdx + BitVec.ofNat 32 es.length } := by
  induction es generalizing s with
  | nil => simp [scriptRegisters]
  | cons e es ih =>
    rw [List.flatMap_cons, scriptRegisters_append, entryScript_registers, ih]
    simp only [List.length_cons, State.mk.injEq, true_and, and_true]
    rw [BitVec.add_assoc, BitVec.ofNat_add]
    simp [BitVec.add_comm]

theorem tableScript_registers (s : State) (es : List CommandEntry) :
    scriptRegisters s (tableScript es) = { s with seqIdx := BitVec.ofNat 32 es.length } := by
  have : scriptRegisters s (tableScript es) = scriptRegisters { s with seqIdx := 0 } (es.flatMap entryScript) := rfl
  rw [this, entriesScript_registers]
  simp

theorem entriesScript_events (c : Cfg) (es : List CommandEntry) :
    scriptEvents c (es.flatMap entryScript) = es.flatMap (entryEvents c) := by
  induction es with
  | nil => rfl
  | cons e es ih => rw [List.flatMap_cons, scriptEvents_append, entryScript_events, ih, List.flatMap_cons]

theorem tableScript_events (c : Cfg) (es : List CommandEntry) :
    scriptEvents c (tableScript es) = es.flatMap (entryEvents c) := by
  rw [← entriesScript_events]
  simp [tableScript, scriptEvents, actEvents]

theorem tableScript_writes (c : Cfg) (es : List CommandEntry) :
    scriptWrites c (tableScript es) = (es.map (entryWrites c)).sum := by
  have : scriptWrites c (tableScript es) = scriptWrites c (es.flatMap entryScript) := by
    simp [tableScript, scriptWrites, actWrites]
  rw [this, scriptWrites_flatMap]
  simp [entryScript_writes]

/-! ### INIT -/

theorem resetScript_writes (c : Cfg) : scriptWrites c (resetScript c) = 0 := by
  unfold resetScript
  split <;> simp [scriptWrites, actWrites]

/-- The hold times are at least 10 ms, so their waits are events (70_reset_and_hazards.md R710). -/
theorem reset_holds (c : Cfg) : c.tRstLowUs ≠ 0#32 ∧ c.tRstHighUs ≠ 0#32 := by
  have hv := c.valid
  simp only [RawCfg.check, Bool.and_eq_true, decide_eq_true_eq] at hv
  constructor
  · intro h
    have := hv.1.2
    simp [h] at this
  · intro h
    have := hv.2
    simp [h] at this

theorem resetScript_events (c : Cfg) : scriptEvents c (resetScript c) = resetEvents c := by
  obtain ⟨h1, h2⟩ := reset_holds c
  unfold resetScript resetEvents
  split
  · simp [scriptEvents, actEvents, waitEvents, h1, h2]
  · rfl

theorem resetScript_registers (s : State) :
    scriptRegisters s (resetScript s.cfg) = { s with pinRst := pinRstAfterInit s } := by
  unfold resetScript pinRstAfterInit
  split <;> simp [scriptRegisters, actRegisters]

theorem disponScript_events (c : Cfg) :
    scriptEvents c (disponScript c) = unitEvents c .cmd [c.cmdDispon] ++ waitEvents c.disponDelayUs := by
  simp [scriptEvents, disponScript, actEvents]

theorem disponScript_writes (c : Cfg) : scriptWrites c (disponScript c) = (unitBytes c .cmd [c.cmdDispon]).length := by
  simp [scriptWrites, disponScript, actWrites]

theorem initScript_events (c : Cfg) : scriptEvents c (initScript c) = initEvents c := by
  simp [initScript, initEvents, resetScript_events, tableScript_events, disponScript_events]

theorem initScript_writes (c : Cfg) : scriptWrites c (initScript c) = initWrites c := by
  simp [initScript, initWrites, resetScript_writes, tableScript_writes, disponScript_writes]

/-- After INIT's script the reset line is released and `seq_idx` is the table's length (10_state.md R33). -/
theorem initScript_registers (s : State) : scriptRegisters s (initScript s.cfg) =
    { s with pinRst := pinRstAfterInit s, seqIdx := BitVec.ofNat 32 s.cfg.initTable.length } := by
  rw [initScript, scriptRegisters_append, scriptRegisters_append, resetScript_registers, tableScript_registers]
  rfl

/-- The window group, in the spec's units. -/
theorem windowScript_inUnits (c : Cfg) (x0 y0 x1 y1 : Half) :
    scriptEvents c (windowScript c x0 y0 x1 y1) = unitsEvents c (windowUnits c x0 y0 x1 y1) ∧
      scriptWrites c (windowScript c x0 y0 x1 y1) = unitsWrites c (windowUnits c x0 y0 x1 y1) ∧
      ∀ j, scriptFailEvents c j (windowScript c x0 y0 x1 y1) = unitsFailEvents c j (windowUnits c x0 y0 x1 y1) := by
  rw [windowScript_units_eq]
  exact unitsScript (windowUnits_single _ _ _ _ _)

/-- The window group and a pixel stream, in the spec's units. -/
theorem windowWords_inUnits (c : Cfg) (x0 y0 x1 y1 : Half) (ws : List Half) :
    scriptEvents c (windowScript c x0 y0 x1 y1 ++ wordsScript ws) = unitsEvents c (windowUnits c x0 y0 x1 y1 ++ [wordsUnit ws]) ∧
      scriptWrites c (windowScript c x0 y0 x1 y1 ++ wordsScript ws) = unitsWrites c (windowUnits c x0 y0 x1 y1 ++ [wordsUnit ws]) ∧
      ∀ j, scriptFailEvents c j (windowScript c x0 y0 x1 y1 ++ wordsScript ws) = unitsFailEvents c j (windowUnits c x0 y0 x1 y1 ++ [wordsUnit ws]) := by
  rw [windowScript_units_eq, wordsScript_units_eq, ← List.map_append]
  exact unitsScript (cmdsSingle_append (windowUnits_single _ _ _ _ _) (wordsUnit_single _))

/-- The byte writes of FILL_RECT. -/
theorem fillRect_writes {c : Cfg} (h : c.variant = .color) (x0 y0 x1 y1 color : Half) (n : Nat) :
    unitsWrites c (fillRectUnits c x0 y0 x1 y1 color n) = 11 + 2 * n := by
  rw [fillRectUnits, ← (windowWords_inUnits c x0 y0 x1 y1 _).2.1, scriptWrites_append, windowScript_writes (color_isSpi h), wordsScript_writes (color_isSpi h)]
  simp

/-- A flush, in the spec's units. -/
theorem flushScript_inUnits (c : Cfg) (m : Memory) :
    scriptEvents c (flushScript c m) = unitsEvents c (flushUnits c m) ∧
      scriptWrites c (flushScript c m) = unitsWrites c (flushUnits c m) ∧
      ∀ j, scriptFailEvents c j (flushScript c m) = unitsFailEvents c j (flushUnits c m) := by
  rw [flushScript_units_eq]
  exact unitsScript (flushUnits_single _ _)

end Sys2Proof.Machine
end

