-- ==== Sys2Proof/Laws/Requests.lean ====
section
/-! SUPPORT. A request from acceptance to completion: what it leaves when its script succeeds and when a byte fails. -/

namespace Sys2Proof.Machine

/-- `u` is `s` with other registers: nothing on the wire side and nothing of the environment has moved. -/
structure SameWire (s u : State) : Prop where
  trace    : u.traceRev = s.traceRev
  replies  : u.repliesRev = s.repliesRev
  inbox    : u.inbox = s.inbox
  arrivals : u.arrivals = s.arrivals
  answers  : u.answers = s.answers
  writes   : u.writes = s.writes
  cs       : u.pinCs = s.pinCs
  dc       : u.pinDc = s.pinDc

theorem SameWire.refl (s : State) : SameWire s s := ⟨rfl, rfl, rfl, rfl, rfl, rfl, rfl, rfl⟩

theorem SameWire.answerAt {s u : State} (h : SameWire s u) (k : Nat) : u.answerAt k = s.answerAt k :=
  State.answerAt_congr h.answers h.writes k

theorem SameWire.busOk {s u : State} (h : SameWire s u) {n : Nat} (hs : s.busOk n) : u.busOk n :=
  fun k hk => (h.answerAt k).trans (hs k hk)

theorem SameWire.busFailsAt {s u : State} (h : SameWire s u) {n : Nat} (hs : s.busFailsAt n) : u.busFailsAt n :=
  ⟨h.busOk hs.1, (h.answerAt n).trans hs.2⟩

theorem SameWire.enterBusy (s : State) : SameWire s s.enterBusy := ⟨rfl, rfl, rfl, rfl, rfl, rfl, rfl, rfl⟩

theorem SameWire.enterDisarmed (s : State) : SameWire s s.enterBusy.disarm := ⟨rfl, rfl, rfl, rfl, rfl, rfl, rfl, rfl⟩

theorem SameWire.openWindow (s : State) (x0 y0 x1 y1 : Half) : SameWire s (s.openWindow x0 y0 x1 y1) :=
  ⟨rfl, rfl, rfl, rfl, rfl, rfl, rfl, rfl⟩

/-- The end of a request that went busy, after its wire activity. -/
theorem Ended.of_release {s u t r v : State} {evs : List Event} {n : Nat} (hsu : SameWire s u) (hub : u.ctl = .busy)
    (hw : Wired u t r evs n) (htc : t.ctl = .busy) (htv : SameWire t v) (hvc : v.ctl = t.ctl) (next : ControllerState)
    (code : Code) : Ended s (v.release next code) evs n code 0 := by
  obtain ⟨l, hl, he, ha⟩ := hw.replies
  obtain ⟨l', hl', he', ha'⟩ := v.release_replies next code
  refine ⟨?_, ?_, ⟨l' ++ l, ?_, ?_, ?_⟩, ?_, ?_, rfl, rfl⟩
  · have := hw.trace
    simp only [State.trace] at this
    rw [State.release_trace]
    simp only [State.trace, htv.trace, this, hsu.trace]
  · intro k
    rw [State.release_answerAt, htv.answerAt, hw.oracle, hsu.answerAt]
  · intro r hr
    rcases List.mem_append.1 hr with hr | hr
    · exact hl' r hr
    · exact hl r hr
  · rw [he', htv.replies, he, hsu.replies, List.append_assoc]
  · intro hs
    obtain ⟨h1, h2⟩ := ha (hsu.arrivals.trans hs)
    obtain ⟨h3, h4⟩ := ha' (htv.arrivals.trans h2)
    exact ⟨by rw [h1, h3]; rfl, h4⟩
  · rw [State.release_inbox_of_busy (hvc.trans htc), htv.inbox, hw.inbox (.inl hub), hsu.inbox]
  · have h1 : (v.release next code).pinCs = v.pinCs := by simp [State.release]
    have h2 : (v.release next code).pinDc = v.pinDc := by simp [State.release]
    rw [h1, h2, htv.cs, htv.dc, hw.pins, hsu.cs, hsu.dc]

/-- The registers a failure handler writes before it completes (60_exceptions.md R612). -/
def abortState (h : Handler) (s : State) : State :=
  match h with
  | .initFail => { s with failStep := s.seqIdx, initFailed := true }
  | .winFail => s.disarm
  | .flushFail => s

/-- The controller state a failure handler leaves. -/
def abortCtl : Handler → ControllerState
  | .initFail => .uninitialized
  | .winFail => .ready
  | .flushFail => .ready

/-- The completion code of a failure handler. -/
def abortCode : Handler → Code
  | .initFail => .initFailed
  | .winFail => .transportError
  | .flushFail => .transportError

theorem abort_eq (h : Handler) (s : State) : abort h s = (abortState h s).release (abortCtl h) (abortCode h) := by
  cases h <;> rfl

theorem SameWire.abortState (h : Handler) (s : State) : SameWire s (abortState h s) := by
  cases h <;> exact ⟨rfl, rfl, rfl, rfl, rfl, rfl, rfl, rfl⟩

theorem abortState_ctl (h : Handler) (s : State) : (abortState h s).ctl = s.ctl := by cases h <;> rfl

theorem scriptRegisters_ctl (s : State) (as : List Act) : (scriptRegisters s as).ctl = s.ctl := by
  induction as generalizing s with
  | nil => rfl
  | cons a as ih => exact (ih _).trans (actRegisters_ctl s a)

theorem scriptRegisters_cfg (s : State) (as : List Act) : (scriptRegisters s as).cfg = s.cfg := by
  induction as generalizing s with
  | nil => rfl
  | cons a as ih => exact (ih _).trans (actRegisters_cfg s a)

theorem scriptFailRegisters_ctl (s : State) (j : Nat) (as : List Act) : (scriptFailRegisters s j as).ctl = s.ctl := by
  induction as generalizing s j with
  | nil => rfl
  | cons a as ih =>
    unfold scriptFailRegisters
    split
    · rfl
    · exact (ih _ _).trans (actRegisters_ctl s a)

theorem scriptFailRegisters_cfg (s : State) (j : Nat) (as : List Act) : (scriptFailRegisters s j as).cfg = s.cfg := by
  induction as generalizing s j with
  | nil => rfl
  | cons a as ih =>
    unfold scriptFailRegisters
    split
    · rfl
    · exact (ih _ _).trans (actRegisters_cfg s a)

/-- What is computed from the registers alone is the same for states with the same registers. -/
theorem registers_map {f : State → State} (hf : ∀ q, (f q).registers = (f q.registers).registers) {t r : State}
    (h : t.registers = r.registers) : (f t).registers = (f r).registers := by rw [hf t, h, ← hf r]

/-- The registers after a release, from registers. -/
theorem release_registers_map {f : State → State} (hf : ∀ q, (f q).registers = (f q.registers).registers) {t r : State}
    (h : t.registers = r.registers) (next : ControllerState) (code : Code) : ((f t).release next code).registers =
      ({ f r with ctl := next, lastResult := code } : State).registers := by
  rw [State.release_registers]
  have := registers_map hf h
  rw [State.registers_eq_iff] at this ⊢
  simp only [this, and_self]

/-- A script that succeeds inside a request: `f` is what the request writes at its end. -/
theorem tryScript_ok {s u : State} {script : List Act} {h : Handler} {f : State → State} {next : ControllerState}
    (hsu : SameWire s u) (hub : u.ctl = .busy) (hc : u.cfg = s.cfg) (hf : ∀ t, SameWire t (f t)) (hfc : ∀ t, (f t).ctl = t.ctl)
    (hfr : ∀ q, (f q).registers = (f q.registers).registers) (hok : s.busOk (scriptWrites s.cfg script)) :
    ∃ t : State, tryScript script h (fun t => (f t).release next .ok) u = t ∧
      t.registers = ({ f (scriptRegisters u script) with ctl := next, lastResult := .ok } : State).registers ∧
      Ended s t (scriptEvents s.cfg script) (scriptWrites s.cfg script) .ok 0 := by
  rw [← hc] at hok ⊢
  rcases tryScript_cases script h (fun t => (f t).release next .ok) u with ⟨_, t, ht, hw⟩ | ⟨j, hj, hj', _⟩
  · have htc : t.ctl = .busy := hw.ctl.trans ((scriptRegisters_ctl u script).trans hub)
    exact ⟨_, ht, release_registers_map hfr hw.registers _ _, Ended.of_release hsu hub hw htc (hf t) (hfc t) next .ok⟩
  · exact absurd hj' (State.busOk_not_fails (hsu.busOk hok) hj)

/-- A script that fails inside a request: the abort. -/
theorem tryScript_fails {s u : State} {script : List Act} {h : Handler} {done : State → State} {k : Nat}
    (hsu : SameWire s u) (hub : u.ctl = .busy) (hc : u.cfg = s.cfg) (hk : k < scriptWrites s.cfg script)
    (hf : s.busFailsAt k) :
    ∃ t : State, tryScript script h done u = t ∧
      t.registers = ({ abortState h (scriptFailRegisters u k script) with
        ctl := abortCtl h, lastResult := abortCode h } : State).registers ∧
      Ended s t (scriptFailEvents s.cfg k script) (k + 1) (abortCode h) 0 := by
  rw [← hc] at hk ⊢
  rcases tryScript_cases script h done u with ⟨hok, _⟩ | ⟨j, hj, hj', t, ht, hw⟩
  · exact absurd (hsu.busFailsAt hf) (State.busOk_not_fails hok hk)
  · obtain rfl := State.busFailsAt_unique hj' (hsu.busFailsAt hf)
    have htc : t.ctl = .busy := hw.ctl.trans ((scriptFailRegisters_ctl u j script).trans hub)
    refine ⟨_, ht.trans (abort_eq h t), release_registers_map (fun q => ?_) hw.registers _ _,
      Ended.of_release hsu hub hw htc (SameWire.abortState h t) (abortState_ctl h t) _ _⟩
    cases h <;> rfl

/-- A script outside any request that succeeds. -/
theorem performAlone_ok {s : State} {script : List Act} (hok : s.busOk (scriptWrites s.cfg script)) :
    (performAlone script s).registers = (scriptRegisters s script).registers ∧
      Emitted s (performAlone script s) (scriptEvents s.cfg script) (scriptWrites s.cfg script) := by
  rcases performAlone_cases script s with ⟨_, hw⟩ | ⟨j, hj, hj', _⟩
  · exact ⟨hw.registers, hw.trace, hw.oracle, hw.replies, fun h => hw.inbox (.inr h), hw.pins, performAlone_quiet script s⟩
  · exact absurd hj' (State.busOk_not_fails hok hj)

/-- A script outside any request that fails. -/
theorem performAlone_fails {s : State} {script : List Act} {k : Nat} (hk : k < scriptWrites s.cfg script)
    (hf : s.busFailsAt k) :
    (performAlone script s).registers = (scriptFailRegisters s k script).disarm.registers ∧
      Emitted s (performAlone script s) (scriptFailEvents s.cfg k script) (k + 1) := by
  rcases performAlone_cases script s with ⟨hok, _⟩ | ⟨j, hj, hj', hw⟩
  · exact absurd hf (State.busOk_not_fails hok hk)
  · obtain rfl := State.busFailsAt_unique hj' hf
    exact ⟨hw.registers, hw.trace, hw.oracle, hw.replies, fun h => hw.inbox (.inr h), hw.pins, performAlone_quiet script s⟩

/-! ### Failing scripts, piece by piece -/

theorem scriptFailEvents_append (c : Cfg) (j : Nat) (a b : List Act) : scriptFailEvents c j (a ++ b) =
    if j < scriptWrites c a then scriptFailEvents c j a else scriptEvents c a ++ scriptFailEvents c (j - scriptWrites c a) b := by
  induction a generalizing j with
  | nil => simp [scriptWrites, scriptEvents]
  | cons x xs ih =>
    simp only [List.cons_append, scriptFailEvents, scriptWrites, List.map_cons, List.sum_cons]
    by_cases h : j < actWrites c x
    · simp [h, Nat.lt_add_right _ h]
    · rw [if_neg h, if_neg h, ih]
      by_cases h2 : j - actWrites c x < scriptWrites c xs
      · have : j < actWrites c x + (xs.map (actWrites c)).sum := by
          simp only [scriptWrites] at h2
          omega
        simp [h2, this]
      · have : ¬ j < actWrites c x + (xs.map (actWrites c)).sum := by
          simp only [scriptWrites] at h2
          omega
        rw [if_neg h2, if_neg this, ← List.append_assoc, Nat.sub_sub]
        rfl

theorem scriptFailRegisters_append (s : State) (j : Nat) (a b : List Act) : scriptFailRegisters s j (a ++ b) =
    if j < scriptWrites s.cfg a then scriptFailRegisters s j a
    else scriptFailRegisters (scriptRegisters s a) (j - scriptWrites s.cfg a) b := by
  induction a generalizing s j with
  | nil => simp [scriptWrites, scriptRegisters]
  | cons x xs ih =>
    simp only [List.cons_append, scriptFailRegisters, scriptWrites, List.map_cons, List.sum_cons]
    by_cases h : j < actWrites s.cfg x
    · simp [h, Nat.lt_add_right _ h]
    · rw [if_neg h, if_neg h, ih, actRegisters_cfg]
      by_cases h2 : j - actWrites s.cfg x < scriptWrites s.cfg xs
      · have : j < actWrites s.cfg x + (xs.map (actWrites s.cfg)).sum := by
          simp only [scriptWrites] at h2
          omega
        simp [h2, this]
      · have : ¬ j < actWrites s.cfg x + (xs.map (actWrites s.cfg)).sum := by
          simp only [scriptWrites] at h2
          omega
        rw [if_neg h2, if_neg this, Nat.sub_sub]
        rfl

theorem entryUnits_failEvents {c : Cfg} {e : CommandEntry} {j : Nat} (hj : j < entryWrites c e) :
    scriptFailEvents c j (entryUnits e) =
      if j < (unitBytes c .cmd [e.cmd]).length then unitFailEvents c .cmd [e.cmd] j
      else unitEvents c .cmd [e.cmd] ++ unitFailEvents c .data e.params (j - (unitBytes c .cmd [e.cmd]).length) := by
  unfold entryUnits entryWrites at *
  by_cases h : e.params = []
  · simp only [h, reduceIte, Nat.add_zero] at hj
    simp [scriptFailEvents, actWrites, actFailEvents, hj]
  · simp only [h, reduceIte] at hj ⊢
    by_cases h2 : j < (unitBytes c .cmd [e.cmd]).length
    · simp [scriptFailEvents, actWrites, actFailEvents, h2]
    · have h3 : j - (unitBytes c .cmd [e.cmd]).length < (unitBytes c .data e.params).length := by omega
      simp [scriptFailEvents, actWrites, actFailEvents, actEvents, h2, h3]

theorem entryScript_failEvents {c : Cfg} {e : CommandEntry} {j : Nat} (hj : j < entryWrites c e) :
    scriptFailEvents c j (entryScript e) = scriptFailEvents c j (entryUnits e) := by
  rw [entryScript, scriptFailEvents_append, if_pos (by rw [entryUnits_writes]; exact hj)]

theorem entryScript_failRegisters {s : State} {e : CommandEntry} {j : Nat} (hj : j < entryWrites s.cfg e) :
    scriptFailRegisters s j (entryScript e) = s := by
  rw [entryScript, scriptFailRegisters_append, if_pos (by rw [entryUnits_writes]; exact hj),
    scriptFailRegisters_units (entryUnits_isUnit e)]

/-- The entry that a byte write of the table belongs to is one of the table's, or its length for the display-on command. -/
theorem entryOfWrite_le (c : Cfg) (j : Nat) (es : List CommandEntry) : entryOfWrite c j es ≤ es.length := by
  induction es generalizing j with
  | nil => exact Nat.le_refl _
  | cons e es ih =>
    unfold entryOfWrite
    split
    · exact Nat.zero_le _
    · exact Nat.succ_le_succ (ih _)

/-- The events of a table that fails within it, whatever script follows it. -/
theorem entries_failEvents {c : Cfg} {es : List CommandEntry} {j : Nat} (hj : j < (es.map (entryWrites c)).sum) :
    scriptFailEvents c j (es.flatMap entryScript) = tableFailEvents c j es := by
  induction es generalizing j with
  | nil => simp at hj
  | cons e es ih =>
    rw [List.flatMap_cons, scriptFailEvents_append, entryScript_writes, tableFailEvents, entryScript_events]
    simp only [List.map_cons, List.sum_cons] at hj
    by_cases h : j < entryWrites c e
    · rw [if_pos h, entryScript_failEvents h, entryUnits_failEvents h, if_pos h]
    · have hle : ¬ j < (unitBytes c .cmd [e.cmd]).length := by
        unfold entryWrites at h
        omega
      rw [if_neg h, if_neg hle, if_neg h, ih (by omega)]

/-- The same without the `seq_idx` moves. -/
theorem entriesUnits_failEvents {c : Cfg} {es : List CommandEntry} {j : Nat} (hj : j < (es.map (entryWrites c)).sum) :
    scriptFailEvents c j (es.flatMap entryUnits) = tableFailEvents c j es := by
  rw [← entries_failEvents hj]
  induction es generalizing j with
  | nil => rfl
  | cons e es ih =>
    simp only [List.map_cons, List.sum_cons] at hj
    rw [List.flatMap_cons, List.flatMap_cons, scriptFailEvents_append, scriptFailEvents_append, entryUnits_writes,
      entryScript_writes, entryUnits_events, entryScript_events]
    by_cases h : j < entryWrites c e
    · rw [if_pos h, if_pos h, entryScript_failEvents h]
    · rw [if_neg h, if_neg h, ih (by omega)]

theorem entries_failRegisters {s : State} {es : List CommandEntry} {j : Nat} (hj : j < (es.map (entryWrites s.cfg)).sum) :
    scriptFailRegisters s j (es.flatMap entryScript) =
      { s with seqIdx := s.seqIdx + BitVec.ofNat 32 (entryOfWrite s.cfg j es) } := by
  induction es generalizing s j with
  | nil => simp at hj
  | cons e es ih =>
    rw [List.flatMap_cons, scriptFailRegisters_append, entryScript_writes, entryOfWrite]
    simp only [List.map_cons, List.sum_cons] at hj
    by_cases h : j < entryWrites s.cfg e
    · rw [if_pos h, entryScript_failRegisters h, if_pos h]
      simp
    · rw [if_neg h, if_neg h, entryScript_registers]
      rw [ih (s := { s with seqIdx := s.seqIdx + 1 }) (by simp only; omega)]
      simp only [State.mk.injEq, true_and, and_true]
      rw [BitVec.add_assoc, BitVec.ofNat_add, BitVec.add_comm 1]
      rfl

theorem table_failEvents {c : Cfg} {es : List CommandEntry} {j : Nat} (hj : j < (es.map (entryWrites c)).sum) :
    scriptFailEvents c j (tableScript es) = tableFailEvents c j es := by
  rw [← entries_failEvents hj]
  simp [tableScript, scriptFailEvents, actWrites, actEvents]

theorem table_failRegisters {s : State} {es : List CommandEntry} {j : Nat} (hj : j < (es.map (entryWrites s.cfg)).sum) :
    scriptFailRegisters s j (tableScript es) = { s with seqIdx := BitVec.ofNat 32 (entryOfWrite s.cfg j es) } := by
  have : scriptFailRegisters s j (tableScript es) = scriptFailRegisters { s with seqIdx := 0 } j (es.flatMap entryScript) := by
    simp [tableScript, scriptFailRegisters, actWrites, actRegisters]
  rw [this, entries_failRegisters (s := { s with seqIdx := 0 }) hj]
  simp

/-- The display-on command after a table whose every byte is answered ok. -/
theorem tableFailEvents_past (c : Cfg) {es : List CommandEntry} {j : Nat} (hj : ¬ j < (es.map (entryWrites c)).sum) :
    tableFailEvents c j es = es.flatMap (entryEvents c) ++
      unitFailEvents c .cmd [c.cmdDispon] (j - (es.map (entryWrites c)).sum) := by
  induction es generalizing j with
  | nil => simp [tableFailEvents]
  | cons e es ih =>
    simp only [List.map_cons, List.sum_cons] at hj ⊢
    have h1 : ¬ j < entryWrites c e := by omega
    have h2 : ¬ j < (unitBytes c .cmd [e.cmd]).length := by
      unfold entryWrites at h1
      omega
    rw [tableFailEvents, if_neg h2, if_neg h1, ih (by omega), List.flatMap_cons, List.append_assoc, Nat.sub_sub]

theorem entryOfWrite_past {c : Cfg} {es : List CommandEntry} {j : Nat} (hj : ¬ j < (es.map (entryWrites c)).sum) :
    entryOfWrite c j es = es.length := by
  induction es generalizing j with
  | nil => rfl
  | cons e es ih =>
    simp only [List.map_cons, List.sum_cons] at hj
    rw [entryOfWrite, if_neg (by omega), ih (by omega), List.length_cons]

theorem resetScript_failEvents (c : Cfg) (j : Nat) (b : List Act) :
    scriptFailEvents c j (resetScript c ++ b) = resetEvents c ++ scriptFailEvents c j b := by
  rw [scriptFailEvents_append, resetScript_writes, if_neg (Nat.not_lt_zero j), resetScript_events, Nat.sub_zero]

theorem initScript_failEvents {c : Cfg} {j : Nat} (hj : j < initWrites c) :
    scriptFailEvents c j (initScript c) = initFailEvents c j := by
  rw [initScript, List.append_assoc, resetScript_failEvents, initFailEvents, scriptFailEvents_append, tableScript_writes]
  unfold initWrites at hj
  by_cases h : j < (c.initTable.map (entryWrites c)).sum
  · rw [if_pos h, table_failEvents h]
  · rw [if_neg h, tableFailEvents_past c h, tableScript_events]
    have h2 : j - (c.initTable.map (entryWrites c)).sum < (unitBytes c .cmd [c.cmdDispon]).length := by omega
    simp [disponScript, scriptFailEvents, actWrites, actFailEvents, h2]

theorem initScript_failRegisters {s : State} {j : Nat} (hj : j < initWrites s.cfg) :
    scriptFailRegisters s j (initScript s.cfg) =
      { s with pinRst := pinRstAfterInit s, seqIdx := BitVec.ofNat 32 (entryOfWrite s.cfg j s.cfg.initTable) } := by
  rw [initScript, List.append_assoc, scriptFailRegisters_append, resetScript_writes, if_neg (Nat.not_lt_zero j),
    resetScript_registers, Nat.sub_zero, scriptFailRegisters_append, tableScript_writes]
  unfold initWrites at hj
  by_cases h : j < (s.cfg.initTable.map (entryWrites s.cfg)).sum
  · rw [if_pos h, table_failRegisters (s := { s with pinRst := pinRstAfterInit s }) h]
  · rw [if_neg h, tableScript_registers, entryOfWrite_past h]
    have h2 : j - (s.cfg.initTable.map (entryWrites s.cfg)).sum < (unitBytes s.cfg .cmd [s.cfg.cmdDispon]).length := by omega
    simp [disponScript, scriptFailRegisters, actWrites, h2]

end Sys2Proof.Machine
end

