-- ==== Sys2Proof/Laws/Encoding.lean ====
section
/-! SUPPORT. The codecs' lemmas: bytes of 16-bit values, ROM records, requests, wire words, and the register port. -/

namespace Sys2Proof

/-! ### Bytes of a 16-bit value (30_encoding.md R139) -/

theorem append_toNat {n m : Nat} (a : BitVec n) (b : BitVec m) : (a ++ b).toNat = a.toNat * 2 ^ m + b.toNat := by
  rw [BitVec.toNat_append, Nat.shiftLeft_eq, Nat.mul_comm, ← Nat.two_pow_add_eq_or_of_lt b.isLt]

theorem joinBytes_toNat (a b : Byte) : (joinBytes a b).toNat = a.toNat * 256 + b.toNat := by
  unfold joinBytes
  rw [append_toNat]
  rfl

theorem hiByte_toNat (v : Half) : (hiByte v).toNat = v.toNat / 256 := by
  have := v.isLt
  simp [hiByte, BitVec.extractLsb'_toNat, Nat.shiftRight_eq_div_pow]
  omega

theorem loByte_toNat (v : Half) : (loByte v).toNat = v.toNat % 256 := by
  simp [loByte, BitVec.extractLsb'_toNat]

@[simp] theorem joinBytes_hiByte_loByte (v : Half) : joinBytes (hiByte v) (loByte v) = v := by
  apply BitVec.eq_of_toNat_eq
  rw [joinBytes_toNat, hiByte_toNat, loByte_toNat]
  omega

@[simp] theorem hiByte_joinBytes (a b : Byte) : hiByte (joinBytes a b) = a := by
  apply BitVec.eq_of_toNat_eq
  have := b.isLt
  rw [hiByte_toNat, joinBytes_toNat]
  omega

@[simp] theorem loByte_joinBytes (a b : Byte) : loByte (joinBytes a b) = b := by
  apply BitVec.eq_of_toNat_eq
  have := b.isLt
  rw [loByte_toNat, joinBytes_toNat]
  omega

/-! ### Requests and ranges -/

@[simp] theorem requestOfBytes_bytesOfRequest (r : Request) : requestOfBytes (bytesOfRequest r) = .ok r := by
  simp [bytesOfRequest, requestOfBytes]

@[simp] theorem rangeOfBytes_bytesOfRange (a b : Half) : rangeOfBytes (bytesOfRange a b) = .ok (a, b) := by
  simp [bytesOfRange, rangeOfBytes]

/-! ### ROM records (30_encoding.md R127, R128) -/

/-- A record is read back, whatever stands after it. -/
theorem decodeRecord_bytesOfEntry {e : CommandEntry} (h : e.params.length ≤ 255) (rest : List Byte) :
    decodeRecord (bytesOfEntry e ++ rest) = .ok (e, rest) := by
  have hn : (BitVec.ofNat 8 e.params.length).toNat = e.params.length := by
    simp
    omega
  simp [bytesOfEntry, decodeRecord, hn]

/-- What is read as a record is that record's bytes. -/
theorem decodeRecord_exact {bs rest : List Byte} {e : CommandEntry} (h : decodeRecord bs = .ok (e, rest)) :
    e.params.length ≤ 255 ∧ bs = bytesOfEntry e ++ rest := by
  unfold decodeRecord at h
  split at h
  · next cmd n r =>
    split at h
    · cases h
    · split at h
      · next m1 m0 u1 u0 after hd =>
        cases h
        have hlen : (r.take n.toNat).length = n.toNat := by
          simp
          omega
        refine ⟨by have := n.isLt; simp only [hlen]; omega, ?_⟩
        simp only [bytesOfEntry, hlen, hiByte_joinBytes, loByte_joinBytes, BitVec.ofNat_toNat, BitVec.setWidth_eq]
        have hr : r.take n.toNat ++ (m1 :: m0 :: u1 :: u0 :: rest) = r := by rw [← hd, List.take_append_drop]
        rw [List.cons_append, List.cons_append, List.append_assoc]
        simpa using hr.symm
      · cases h
  · cases h

/-- A sequence of records, and what is left over. -/
theorem decodeRecords_iff (n : Nat) (bs rest : List Byte) (es : List CommandEntry) : decodeRecords n bs = .ok (es, rest) ↔
    es.length = n ∧ (∀ e ∈ es, e.params.length ≤ 255) ∧ bs = es.flatMap bytesOfEntry ++ rest := by
  induction n generalizing bs es rest with
  | zero =>
    simp only [decodeRecords]
    constructor
    · intro h
      cases h
      simp
    · rintro ⟨h1, -, h2⟩
      obtain rfl := List.length_eq_zero_iff.1 h1
      simpa using h2
  | succ n ih =>
    simp only [decodeRecords]
    constructor
    · intro h
      split at h
      · cases h
      · next e r hr =>
        split at h
        · cases h
        · next es' after hes =>
          cases h
          obtain ⟨h1, h2⟩ := decodeRecord_exact hr
          obtain ⟨h3, h4, h5⟩ := (ih _ _ _).1 hes
          exact ⟨by simp [h3], by simpa [h1] using h4, by rw [h2, h5]; simp⟩
    · rintro ⟨h1, h2, h3⟩
      match es, h1 with
      | e :: es, h1 =>
        have hd : decodeRecord bs = .ok (e, es.flatMap bytesOfEntry ++ rest) := by
          rw [h3, List.flatMap_cons, List.append_assoc]
          exact decodeRecord_bytesOfEntry (h2 e (by simp)) _
        have hr := (ih (es.flatMap bytesOfEntry ++ rest) rest es).2 ⟨by simpa using h1, fun x hx => h2 x (by simp [hx]), rfl⟩
        simp [hd, hr]

/-! ### Page preambles (30_encoding.md R135) -/

theorem findPage_none {c : Cfg} {bs : List Byte} {n p : Nat} (h : ∀ q, p ≤ q → q < p + n → c.preamble q ≠ bs) :
    c.findPage bs n p = none := by
  induction n generalizing p with
  | zero => rfl
  | succ n ih =>
    rw [Cfg.findPage, if_neg (h p (Nat.le_refl _) (by omega)), ih (fun q h1 h2 => h q (by omega) (by omega))]

theorem findPage_some {c : Cfg} {bs : List Byte} {n p q : Nat} (h1 : p ≤ q) (h2 : q < p + n) (h3 : c.preamble q = bs)
    (h4 : ∀ r, p ≤ r → r < q → c.preamble r ≠ bs) : c.findPage bs n p = some q := by
  induction n generalizing p with
  | zero => omega
  | succ n ih =>
    rw [Cfg.findPage]
    by_cases h : p = q
    · subst h
      simp [h3]
    · rw [if_neg (h4 p (Nat.le_refl _) (by omega)), ih (by omega) (by omega) (fun r a b => h4 r (by omega) b)]

/-- A Color block has no page, so no preamble (10_state.md R45). -/
theorem findPage_color {c : Cfg} (h : c.variant = .color) (bs : List Byte) : c.findPage bs c.pageCount 0 = none := by
  simp [Cfg.pageCount, h, Cfg.findPage]

namespace Machine

/-! ### The register port (10_state.md R48) -/

theorem State.readReg_0 (s : State) : s.readReg 0 = s.status.setWidth 32 := rfl

theorem State.readReg_3 (s : State) : s.readReg 3 = if s.armed then s.curY ++ s.curX else 0 := rfl

theorem State.readReg_4 (s : State) : s.readReg 4 = s.rdata.setWidth 32 := rfl

theorem State.readReg_5 (s : State) : s.readReg 5 = s.cfg.height ++ s.cfg.width := rfl

theorem State.readReg_6 (s : State) : s.readReg 6 = (cfgKind s.cfg).setWidth 32 := rfl

theorem State.readReg_reserved (s : State) {reg : Byte} (h : 7 ≤ reg.toNat) : s.readReg reg = 0 := by
  unfold State.readReg
  split
  all_goals first | rfl | (exfalso; omega)

end Machine

end Sys2Proof
end

