-- ==== Sys2Proof/Laws/Exec.lean ====
section
/-! SUPPORT. What an instruction can do, said once: `exec_ran` lists every way from a state to the next, and the rules of
the whole machine follow from it without unfolding an instruction again. -/

namespace Sys2Proof.Machine

/-- The requests that emit wire events (43_control.md R455). -/
def usesWire : Instr → Bool
  | .init => true
  | .setWindow _ _ _ _ => true
  | .writeWord _ => true
  | .putPixel _ _ _ => true
  | .fillRect _ _ _ _ _ => true
  | .monoFlush => true
  | .monoSetPixel _ _ _ => false
  | .monoGetPixel _ _ => false
  | .monoClear => false
  | .lockBuffer => false
  | .unlockBuffer => false
  | .reserved _ => false
  | .caset _ _ => false
  | .raset _ _ => false
  | .ramwr => false
  | .dispon => false
  | .pagePreamble _ => false
  | .tableEntry _ => false
  | .tableImage _ => false

/-- The state in which a request's script starts. -/
def opened (i : Instr) (s : State) : State :=
  match i with
  | .init => s.enterBusy.disarm
  | .setWindow x0 y0 x1 y1 => s.openWindow x0 y0 x1 y1
  | .putPixel x y _ => s.openWindow x y (x + 1) (y + 1)
  | .fillRect x0 y0 x1 y1 _ => s.openWindow x0 y0 x1 y1
  | .writeWord _ => s.enterBusy
  | .monoSetPixel _ _ _ => s.enterBusy
  | .monoGetPixel _ _ => s.enterBusy
  | .monoClear => s.enterBusy
  | .monoFlush => s.enterBusy
  | .lockBuffer => s.enterBusy
  | .unlockBuffer => s.enterBusy
  | .reserved _ => s.enterBusy
  | .caset _ _ => s.enterBusy
  | .raset _ _ => s.enterBusy
  | .ramwr => s.enterBusy
  | .dispon => s.enterBusy
  | .pagePreamble _ => s.enterBusy
  | .tableEntry _ => s.enterBusy
  | .tableImage _ => s.enterBusy

/-- The script of an instruction. -/
def scriptOf (i : Instr) (s : State) : List Act :=
  match i with
  | .init => initScript s.cfg
  | .setWindow x0 y0 x1 y1 => windowScript s.cfg x0 y0 x1 y1
  | .writeWord color => wordsScript [color]
  | .putPixel x y color => windowScript s.cfg x y (x + 1) (y + 1) ++ wordsScript [color]
  | .fillRect x0 y0 x1 y1 color =>
    windowScript s.cfg x0 y0 x1 y1 ++ wordsScript (List.replicate (cellCount x0 y0 x1 y1).toNat color)
  | .monoFlush => flushScript s.cfg s.buf
  | .caset x0 x1 => casetScript x0 x1
  | .raset y0 y1 => rasetScript s.cfg y0 y1
  | .ramwr => ramwrScript s.cfg
  | .dispon => disponScript s.cfg
  | .pagePreamble p => pageScript s.cfg s.buf p
  | .tableEntry e => entryUnits e
  | .tableImage es => es.flatMap entryUnits
  | .monoSetPixel _ _ _ => []
  | .monoGetPixel _ _ => []
  | .monoClear => []
  | .lockBuffer => []
  | .unlockBuffer => []
  | .reserved _ => []

/-- The failure handler of a request. -/
def handlerOf : Instr → Handler
  | .init => .initFail
  | .monoFlush => .flushFail
  | .setWindow _ _ _ _ => .winFail
  | .writeWord _ => .winFail
  | .putPixel _ _ _ => .winFail
  | .fillRect _ _ _ _ _ => .winFail
  | .monoSetPixel _ _ _ => .winFail
  | .monoGetPixel _ _ => .winFail
  | .monoClear => .winFail
  | .lockBuffer => .winFail
  | .unlockBuffer => .winFail
  | .reserved _ => .winFail
  | .caset _ _ => .winFail
  | .raset _ _ => .winFail
  | .ramwr => .winFail
  | .dispon => .winFail
  | .pagePreamble _ => .winFail
  | .tableEntry _ => .winFail
  | .tableImage _ => .winFail

/-- What a request writes when its script has succeeded. -/
def finish (i : Instr) (s : State) : State :=
  match i with
  | .init =>
    { s with
        buf := (match s.cfg.variant with
          | .color => s.buf
          | .mono => [])
        initFailed := false
        failStep := 0xFFFFFFFF }
  | .setWindow x0 y0 x1 y1 => { s with curX := x0, curY := y0, remaining := cellCount x0 y0 x1 y1, armed := true }
  | .writeWord _ => s.advance
  | .putPixel _ _ _ => s
  | .fillRect _ _ _ _ _ => s
  | .monoSetPixel _ _ _ => s
  | .monoGetPixel _ _ => s
  | .monoClear => s
  | .monoFlush => s
  | .lockBuffer => s
  | .unlockBuffer => s
  | .reserved _ => s
  | .caset _ _ => s
  | .raset _ _ => s
  | .ramwr => s
  | .dispon => s
  | .pagePreamble _ => s
  | .tableEntry _ => s
  | .tableImage _ => s

/-- What a request without wire events writes. -/
def effectOf (i : Instr) (s : State) : State :=
  match i with
  | .monoSetPixel x y v =>
    { s with buf := Memory.write s.buf (pixelIndex s.cfg x y) (setBit (Memory.read s.buf (pixelIndex s.cfg x y)) (pixelBit y) v) }
  | .monoGetPixel x y => { s with rdata := s.pixel x y }
  | .monoClear => { s with buf := [] }
  | .lockBuffer => { s with lock := true }
  | .unlockBuffer => { s with lock := false }
  | .init => s
  | .setWindow _ _ _ _ => s
  | .writeWord _ => s
  | .putPixel _ _ _ => s
  | .fillRect _ _ _ _ _ => s
  | .monoFlush => s
  | .reserved _ => s
  | .caset _ _ => s
  | .raset _ _ => s
  | .ramwr => s
  | .dispon => s
  | .pagePreamble _ => s
  | .tableEntry _ => s
  | .tableImage _ => s

/-- The value such a request returns. -/
def valueOf (i : Instr) (s : State) : Byte :=
  match i with
  | .monoGetPixel x y => (s.pixel x y).setWidth 8
  | .init => 0
  | .setWindow _ _ _ _ => 0
  | .writeWord _ => 0
  | .putPixel _ _ _ => 0
  | .fillRect _ _ _ _ _ => 0
  | .monoSetPixel _ _ _ => 0
  | .monoClear => 0
  | .monoFlush => 0
  | .lockBuffer => 0
  | .unlockBuffer => 0
  | .reserved _ => 0
  | .caset _ _ => 0
  | .raset _ _ => 0
  | .ramwr => 0
  | .dispon => 0
  | .pagePreamble _ => 0
  | .tableEntry _ => 0
  | .tableImage _ => 0

theorem exec_wire {i : Instr} (h : usesWire i = true) (s : State) : exec i s = .next (request i (fun s =>
    tryScript (scriptOf i s) (handlerOf i) (fun t => (finish i t).release .ready .ok) (opened i s)) s) := by
  cases i <;> first | rfl | exact absurd h Bool.false_ne_true

theorem exec_local {i : Instr} (h : usesWire i = false) (hs : i.surface = .request) (hr : ∀ op, i ≠ .reserved op) (s : State) :
    exec i s = .next (request i (fun s => (effectOf i s).complete .ok (valueOf i s)) s) := by
  cases i <;> first | rfl | exact absurd h.symm Bool.false_ne_true | (simp [Instr.surface] at hs; done) | exact absurd rfl (hr _)

/-- Every request goes through acceptance first (43_control.md R450). -/
theorem exec_request {i : Instr} (hs : i.surface = .request) : ∃ body : State → State, ∀ s, exec i s = .next (request i body s) := by
  cases i <;> first | exact ⟨_, fun _ => rfl⟩ | simp [Instr.surface] at hs

@[simp] theorem decodeRequest_surface (r : Request) : (decodeRequest r).surface = .request := by
  unfold decodeRequest
  split <;> rfl

theorem illegalFor_iff {c : Cfg} {i : Instr} (h : i.surface = .request) : illegalFor c i ↔ legalIn i c.variant = false := by
  unfold illegalFor
  cases c.variant <;> cases i <;> simp [Instr.surface] at h <;> simp [legalIn, colorOnly, monoOnly]

theorem needsInit_iff {i : Instr} (h : i.surface = .request) : needsInit i ↔ acceptedUninitialized i = false := by
  cases i <;> first | (simp [Instr.surface] at h; done) | simp [needsInit, acceptedUninitialized]

theorem validWindow_false {c : Cfg} {x0 y0 x1 y1 : Half} : validWindow c x0 y0 x1 y1 = false ↔
    x1 < x0 ∨ c.width ≤ x1 ∨ y1 < y0 ∨ c.height ≤ y1 := by
  rw [← Bool.not_eq_true, validWindow_iff]
  simp only [not_and_or, BitVec.not_le, BitVec.not_lt]

theorem validPoint_false {c : Cfg} {x y : Half} : validPoint c x y = false ↔ c.width ≤ x ∨ c.height ≤ y := by
  rw [← Bool.not_eq_true, validPoint_iff]
  simp only [not_and_or, BitVec.not_lt]

theorem outOfRange_iff {c : Cfg} {i : Instr} (h : i.surface = .request) : outOfRange c i ↔ inRange i c = false := by
  cases i <;> first | (simp [Instr.surface] at h; done) | simp [outOfRange, inRange, validWindow_false, validPoint_false]

theorem needsArmed_iff {i : Instr} : needsArmed i = true ↔ ∃ color, i = .writeWord color := by
  cases i <;> simp [needsArmed]

theorem needsUnlocked_iff {i : Instr} : needsUnlocked i = true ↔ i = .monoFlush := by
  cases i <;> simp [needsUnlocked]

theorem opened_sameWire (i : Instr) (s : State) : SameWire s (opened i s) := by
  cases i <;> exact ⟨rfl, rfl, rfl, rfl, rfl, rfl, rfl, rfl⟩

theorem opened_ctl (i : Instr) (s : State) : (opened i s).ctl = .busy := by cases i <;> rfl

theorem opened_cfg (i : Instr) (s : State) : (opened i s).cfg = s.cfg := by cases i <;> rfl

theorem finish_sameWire (i : Instr) (s : State) : SameWire s (finish i s) := by
  cases i <;> first | exact ⟨rfl, rfl, rfl, rfl, rfl, rfl, rfl, rfl⟩ | (simp only [finish, State.advance_eq]; exact ⟨rfl, rfl, rfl, rfl, rfl, rfl, rfl, rfl⟩)

theorem finish_ctl (i : Instr) (s : State) : (finish i s).ctl = s.ctl := by
  cases i <;> first | rfl | simp [finish]

theorem finish_registers (i : Instr) (s : State) : (finish i s).registers = (finish i s.registers).registers := by
  cases i <;> first | rfl | (simp only [finish, State.advance_eq]; rfl)

/-- What acceptance can refuse with. -/
theorem acceptance_refuse {i : Instr} {s : State} {code : Code} (h : acceptance i s = .refuse code) :
    code ≠ .ok ∧ code ≠ .transportError ∧ code ≠ .initFailed := by
  revert h
  unfold acceptance
  repeat' split
  all_goals simp
  all_goals
    rintro rfl
    simp

/-- Every way an instruction can take a state to the next one. -/
inductive Ran (i : Instr) (s t : State) : Prop
  /-- a request to a busy block (43_control.md R451) -/
  | rejected (hi : i.surface = .request) (hb : s.ctl = .busy) (ht : t = rejectedBusy s)
  /-- a request that a check of 60_exceptions.md R611 ended -/
  | refused (hi : i.surface = .request) (hb : s.ctl ≠ .busy) (code : Code) (ha : acceptance i s = .refuse code)
      (hc : code ≠ .ok ∧ code ≠ .transportError ∧ code ≠ .initFailed) (ht : t = refusedWith code s)
  /-- an accepted request that emits no event -/
  | completed (hi : i.surface = .request) (hw : usesWire i = false) (ha : acceptance i s = .accept)
      (ht : t = (effectOf i s).complete .ok (valueOf i s))
  /-- an accepted request whose every byte was answered ok -/
  | succeeded (hw : usesWire i = true) (ha : acceptance i s = .accept) (hok : s.busOk (scriptWrites s.cfg (scriptOf i s)))
      (hr : t.registers = ({ finish i (scriptRegisters (opened i s) (scriptOf i s)) with
        ctl := .ready, lastResult := .ok } : State).registers)
      (he : Ended s t (scriptEvents s.cfg (scriptOf i s)) (scriptWrites s.cfg (scriptOf i s)) .ok 0)
  /-- an accepted request whose byte write number `k` failed (60_exceptions.md R612) -/
  | aborted (hw : usesWire i = true) (ha : acceptance i s = .accept) (k : Nat) (hk : k < scriptWrites s.cfg (scriptOf i s))
      (hf : s.busFailsAt k)
      (hr : t.registers = ({ abortState (handlerOf i) (scriptFailRegisters (opened i s) k (scriptOf i s)) with
        ctl := abortCtl (handlerOf i), lastResult := abortCode (handlerOf i) } : State).registers)
      (he : Ended s t (scriptFailEvents s.cfg k (scriptOf i s)) (k + 1) (abortCode (handlerOf i)) 0)
  /-- a word of the wire or of the ROM whose every byte was answered ok (log 8) -/
  | sent (hi : i.surface ≠ .request) (hok : s.busOk (scriptWrites s.cfg (scriptOf i s)))
      (hr : t.registers = s.registers)
      (he : Emitted s t (scriptEvents s.cfg (scriptOf i s)) (scriptWrites s.cfg (scriptOf i s)))
  /-- a word of the wire or of the ROM whose byte write number `k` failed (log 8): the window is disarmed (10_state.md R42) -/
  | stopped (hi : i.surface ≠ .request) (k : Nat) (hk : k < scriptWrites s.cfg (scriptOf i s)) (hf : s.busFailsAt k)
      (hr : t.registers = s.disarm.registers)
      (he : Emitted s t (scriptFailEvents s.cfg k (scriptOf i s)) (k + 1))

/-- Only INIT's script moves the reset line or `seq_idx` (10_state.md R33, R46). -/
theorem scriptOf_units {i : Instr} {s : State} (h : i ≠ .init) : (scriptOf i s).all Act.isUnit = true := by
  cases i with
  | init => exact absurd rfl h
  | tableEntry e => exact entryUnits_isUnit e
  | tableImage es => exact entriesUnits_isUnit es
  | putPixel => simp [scriptOf]
  | fillRect => simp [scriptOf]
  | monoFlush => simp [scriptOf]
  | pagePreamble => simp [scriptOf]
  | _ => rfl

theorem performAlone_ran {i : Instr} (hi : i.surface ≠ .request) (s : State) : Ran i s (performAlone (scriptOf i s) s) := by
  have hu : i ≠ .init := by
    rintro rfl
    exact hi rfl
  rcases perform_cases (scriptOf i s) s with ⟨hok, -⟩ | ⟨k, hk, hf, -⟩
  · obtain ⟨hr, he⟩ := performAlone_ok hok
    rw [scriptRegisters_units (scriptOf_units hu)] at hr
    exact .sent hi hok hr he
  · obtain ⟨hr, he⟩ := performAlone_fails hk hf
    rw [scriptFailRegisters_units (scriptOf_units hu)] at hr
    exact .stopped hi k hk hf hr he

theorem tryScript_ran {i : Instr} {s : State} (hw : usesWire i = true) (ha : acceptance i s = .accept) :
    Ran i s (tryScript (scriptOf i s) (handlerOf i) (fun t => (finish i t).release .ready .ok) (opened i s)) := by
  have hsw := opened_sameWire i s
  have hc := opened_cfg i s
  rcases perform_cases (scriptOf i s) (opened i s) with ⟨hok, -⟩ | ⟨k, hk, hf, -⟩
  · have hok' : s.busOk (scriptWrites s.cfg (scriptOf i s)) := by
      rw [← hc]
      exact fun k hk => (hsw.answerAt k).symm.trans (hok k hk)
    obtain ⟨t, ht, hr, he⟩ := tryScript_ok (h := handlerOf i) (next := .ready) hsw (opened_ctl i s) hc (finish_sameWire i)
      (finish_ctl i) (finish_registers i) hok'
    rw [ht]
    exact .succeeded hw ha hok' hr he
  · have hf' : s.busFailsAt k := ⟨fun j hj => (hsw.answerAt j).symm.trans (hf.1 j hj), (hsw.answerAt k).symm.trans hf.2⟩
    have hk' : k < scriptWrites s.cfg (scriptOf i s) := by
      rw [← hc]
      exact hk
    obtain ⟨t, ht, hr, he⟩ := tryScript_fails (h := handlerOf i) (done := fun t => (finish i t).release .ready .ok) hsw
      (opened_ctl i s) hc hk' hf'
    rw [ht]
    exact .aborted hw ha k hk' hf' hr he

/-- Whatever an instruction does, it is one of the ways of `Ran`. -/
theorem exec_ran {i : Instr} {s t : State} (h : exec i s = .next t) : Ran i s t := by
  by_cases hs : i.surface = .request
  · obtain ⟨body, hbody⟩ := exec_request hs
    rcases request_cases i body s with ⟨hb, hreq⟩ | ⟨hb, code, hc, hreq⟩ | ⟨hb, ha, hreq⟩
    · rw [hbody, hreq] at h
      cases h
      exact .rejected hs hb rfl
    · rw [hbody, hreq] at h
      cases h
      exact .refused hs hb code hc (acceptance_refuse hc) rfl
    · cases hw : usesWire i with
      | true =>
        rw [exec_wire hw, request_accept ha] at h
        cases h
        exact tryScript_ran hw ha
      | false =>
        have hr : ∀ op, i ≠ .reserved op := by
          rintro op rfl
          exact absurd (acceptance_accept ha).2.1 (by simp [legalIn])
        rw [exec_local hw hs hr, request_accept ha] at h
        cases h
        exact .completed hs hw ha rfl
  · have key := performAlone_ran hs s
    cases i <;> first | exact absurd rfl hs | skip
    case pagePreamble p =>
      simp only [exec, execPagePreamble] at h
      split at h
      · cases h
      · split at h
        · cases h
        · cases h
          exact key
    all_goals
      cases h
      exact key

/-- A script moves the reset line and `seq_idx` at most. -/
theorem scriptRegisters_only (s : State) (script : List Act) : ∃ p q, scriptRegisters s script = { s with pinRst := p, seqIdx := q } := by
  induction script generalizing s with
  | nil => exact ⟨_, _, rfl⟩
  | cons a as ih =>
    obtain ⟨p, q, h⟩ := ih (actRegisters s a)
    refine ⟨p, q, ?_⟩
    show scriptRegisters (actRegisters s a) as = _
    rw [h]
    cases a <;> rfl

theorem scriptFailRegisters_only (s : State) (j : Nat) (script : List Act) : ∃ p q, scriptFailRegisters s j script = { s with pinRst := p, seqIdx := q } := by
  induction script generalizing s j with
  | nil => exact ⟨_, _, rfl⟩
  | cons a as ih =>
    unfold scriptFailRegisters
    split
    · exact ⟨_, _, rfl⟩
    · obtain ⟨p, q, h⟩ := ih (actRegisters s a) _
      refine ⟨p, q, ?_⟩
      rw [h]
      cases a <;> rfl

/-- No instruction writes the configuration (00_scope.md R11). -/
theorem exec_cfg {i : Instr} {s t : State} (h : exec i s = .next t) : t.cfg = s.cfg := by
  cases exec_ran h with
  | rejected hi hb ht => rw [ht]; rfl
  | refused hi hb code ha hc ht => rw [ht]; rfl
  | completed hi hw ha ht => rw [ht]; cases i <;> rfl
  | succeeded hw ha hok hr he =>
    rw [registers_cfg hr]
    have h1 : (finish i (scriptRegisters (opened i s) (scriptOf i s))).cfg = (scriptRegisters (opened i s) (scriptOf i s)).cfg := by
      cases i <;> first | rfl | simp [finish]
    exact h1.trans ((scriptRegisters_cfg _ _).trans (opened_cfg i s))
  | aborted hw ha k hk hf hr he =>
    rw [registers_cfg hr]
    have h1 : (abortState (handlerOf i) (scriptFailRegisters (opened i s) k (scriptOf i s))).cfg = (scriptFailRegisters (opened i s) k (scriptOf i s)).cfg := by
      cases handlerOf i <;> rfl
    exact h1.trans ((scriptFailRegisters_cfg _ _ _).trans (opened_cfg i s))
  | sent hi hok hr he => exact registers_cfg hr
  | stopped hi k hk hf hr he => exact (registers_cfg hr).trans s.disarm_cfg

end Sys2Proof.Machine
end

