-- ==== Sys2Proof/Laws/Framing.lean ====
section
/-! SUPPORT. The framing of what an instruction appends to the trace, the level chip-select is left at, and the failed
bytes in it (20_memory.md R85, R86, R89; 60_exceptions.md R601, R612). -/

namespace Sys2Proof.Machine

@[simp] theorem Framing.next_dc (k : Kind) : Framing.next true .idle (.dc k) = some .selected := rfl
@[simp] theorem Framing.next_csAssert (spi : Bool) : Framing.next spi .selected .csAssert = some .inside := rfl
@[simp] theorem Framing.next_i2cStart : Framing.next false .idle .i2cStart = some .inside := rfl
@[simp] theorem Framing.next_byte (spi : Bool) (b : Byte) : Framing.next spi .inside (.byte b) = some .inside := rfl
@[simp] theorem Framing.next_fail (spi : Bool) (b : Byte) : Framing.next spi .inside (.fail b) = some .failed := rfl
@[simp] theorem Framing.next_csDeassert : Framing.next true .inside .csDeassert = some .idle := rfl
@[simp] theorem Framing.next_failed_csDeassert : Framing.next true .failed .csDeassert = some .idle := rfl
@[simp] theorem Framing.next_i2cStop : Framing.next false .inside .i2cStop = some .idle := rfl
@[simp] theorem Framing.next_failed_i2cStop : Framing.next false .failed .i2cStop = some .idle := rfl
@[simp] theorem Framing.next_rst (spi : Bool) (l : Bool) : Framing.next spi .idle (.rst l) = some .idle := rfl
@[simp] theorem Framing.next_delay (spi : Bool) (n : Long) : Framing.next spi .idle (.delay n) = some .idle := rfl

theorem framingAfter_append (spi : Bool) (a b : List Event) (f : Framing) :
    framingAfter spi (a ++ b) f = (framingAfter spi a f).bind (framingAfter spi b) := by
  induction a generalizing f with
  | nil => rfl
  | cons e es ih =>
    simp only [List.cons_append, framingAfter]
    cases f.next spi e with
    | none => rfl
    | some f => exact ih f

theorem framingAfter_bytes (spi : Bool) (bs : List Byte) :
    framingAfter spi (bs.map .byte) .inside = some .inside := by
  induction bs with
  | nil => rfl
  | cons b bs ih => exact ih

/-- Events that begin between units with chip-select released and end so. -/
def Framed (c : Cfg) (evs : List Event) : Prop :=
  framingAfter c.transport.isSpi evs .idle = some .idle ∧ ∀ p, p.1 = false → (pinsAfter evs p).1 = false

theorem Framed.nil (c : Cfg) : Framed c [] := ⟨rfl, fun _ h => h⟩

theorem Framed.append {c : Cfg} {a b : List Event} (ha : Framed c a) (hb : Framed c b) : Framed c (a ++ b) := by
  refine ⟨by rw [framingAfter_append, ha.1]; exact hb.1, fun p hp => ?_⟩
  rw [pinsAfter_append]
  exact hb.2 _ (ha.2 p hp)

theorem Framed.flatMap {α : Type} {c : Cfg} {f : α → List Event} {l : List α} (h : ∀ a ∈ l, Framed c (f a)) :
    Framed c (l.flatMap f) := by
  induction l with
  | nil => exact Framed.nil c
  | cons a l ih =>
    rw [List.flatMap_cons]
    exact (h a List.mem_cons_self).append (ih fun b hb => h b (List.mem_cons_of_mem a hb))

theorem pinsAfter_bytes (bs : List Byte) (p : Bool × Bool) : pinsAfter (bs.map .byte) p = p := by
  induction bs with
  | nil => rfl
  | cons b bs ih => exact ih

theorem Framed.unit (c : Cfg) (k : Kind) (payload : List Byte) : Framed c (unitEvents c k payload) := by
  unfold unitEvents openEvents closeEvents
  cases hs : c.transport.isSpi
  · refine ⟨?_, fun p hp => ?_⟩
    · rw [hs, framingAfter_append, framingAfter_append]
      simp [framingAfter, framingAfter_bytes]
    · simp only [pinsAfter_append, pinsAfter_bytes]
      exact hp
  · refine ⟨?_, fun p _ => ?_⟩
    · rw [hs, framingAfter_append, framingAfter_append]
      simp [framingAfter, framingAfter_bytes]
    · simp only [pinsAfter_append, pinsAfter_bytes]
      rfl

theorem Framed.unitFail (c : Cfg) (k : Kind) (payload : List Byte) (j : Nat) : Framed c (unitFailEvents c k payload j) := by
  unfold unitFailEvents openEvents closeEvents
  cases hs : c.transport.isSpi
  · refine ⟨?_, fun p hp => ?_⟩
    · rw [hs]
      simp only [framingAfter_append]
      cases (unitBytes c k payload)[j]? <;> simp [framingAfter, framingAfter_bytes, -List.map_take]
    · simp only [pinsAfter_append, pinsAfter_bytes]
      cases (unitBytes c k payload)[j]? <;> exact hp
  · refine ⟨?_, fun p _ => ?_⟩
    · rw [hs]
      simp only [framingAfter_append]
      cases (unitBytes c k payload)[j]? <;> simp [framingAfter, framingAfter_bytes, -List.map_take]
    · simp only [pinsAfter_append, pinsAfter_bytes]
      rfl

theorem Framed.wait (c : Cfg) (n : Long) : Framed c (waitEvents n) := by
  unfold waitEvents
  split
  · exact Framed.nil c
  · exact ⟨rfl, fun _ h => h⟩

theorem Framed.act (c : Cfg) (a : Act) : Framed c (actEvents c a) := by
  cases a with
  | pinRst l => exact ⟨rfl, fun _ h => h⟩
  | wait n => exact Framed.wait c n
  | cmdUnit b => exact Framed.unit c _ _
  | dataUnit bs => exact Framed.unit c _ _
  | seqStart => exact Framed.nil c
  | seqNext => exact Framed.nil c

theorem Framed.actFail (c : Cfg) (j : Nat) (a : Act) : Framed c (actFailEvents c j a) := by
  cases a with
  | pinRst l => exact Framed.nil c
  | wait n => exact Framed.nil c
  | cmdUnit b => exact Framed.unitFail c _ _ _
  | dataUnit bs => exact Framed.unitFail c _ _ _
  | seqStart => exact Framed.nil c
  | seqNext => exact Framed.nil c

theorem Framed.script (c : Cfg) (script : List Act) : Framed c (scriptEvents c script) :=
  Framed.flatMap fun a _ => Framed.act c a

theorem Framed.scriptFail (c : Cfg) (j : Nat) (script : List Act) : Framed c (scriptFailEvents c j script) := by
  induction script generalizing j with
  | nil => exact Framed.nil c
  | cons a as ih =>
    unfold scriptFailEvents
    split
    · exact Framed.actFail c j a
    · exact (Framed.act c a).append (ih _)

theorem effectOf_sameWire (i : Instr) (s : State) : SameWire s (effectOf i s) := by
  cases i <;> exact ⟨rfl, rfl, rfl, rfl, rfl, rfl, rfl, rfl⟩

/-- What an instruction appends to the trace is framed (43_control.md R456). -/
theorem exec_framed {i : Instr} {s t : State} (h : exec i s = .next t) : ∃ evs : List Event,
    t.trace = s.trace ++ evs ∧ (t.pinCs, t.pinDc) = pinsAfter evs (s.pinCs, s.pinDc) ∧ Framed s.cfg evs := by
  cases exec_ran h with
  | rejected hi hb ht => exact ⟨[], by rw [ht]; simp [rejectedBusy, State.trace], by rw [ht]; rfl, Framed.nil _⟩
  | refused hi hb code ha hc ht => exact ⟨[], by rw [ht]; simp [refusedWith, State.trace], by rw [ht]; rfl, Framed.nil _⟩
  | completed hi hw ha ht =>
    have hs := effectOf_sameWire i s
    refine ⟨[], ?_, ?_, Framed.nil _⟩
    · rw [ht, State.complete_trace]
      simp [State.trace, hs.trace]
    · rw [ht]
      exact Prod.ext hs.cs hs.dc
  | succeeded hw ha hok hr he => exact ⟨_, he.trace, he.pins, Framed.script _ _⟩
  | aborted hw ha k hk hf hr he => exact ⟨_, he.trace, he.pins, Framed.scriptFail _ _ _⟩
  | sent hi hok hr he => exact ⟨_, he.trace, he.pins, Framed.script _ _⟩
  | stopped hi k hk hf hr he => exact ⟨_, he.trace, he.pins, Framed.scriptFail _ _ _⟩

/-! ### Failed bytes -/

/-- No failed byte. -/
def NoFail (evs : List Event) : Prop := ∀ b, Event.fail b ∉ evs

/-- One failed byte, with the closing event of its unit after it and nothing more (60_exceptions.md R612). -/
def FailsLast (c : Cfg) (evs : List Event) : Prop :=
  ∃ (before : List Event) (b : Byte), evs = before ++ .fail b :: closeEvents c ∧ NoFail before

theorem NoFail.append {a b : List Event} (ha : NoFail a) (hb : NoFail b) : NoFail (a ++ b) := by
  intro x hx
  rcases List.mem_append.1 hx with h | h
  · exact ha x h
  · exact hb x h

theorem NoFail.opening (c : Cfg) (k : Kind) : NoFail (openEvents c k) := by
  intro b
  unfold openEvents
  split <;> simp

theorem NoFail.bytes (bs : List Byte) : NoFail (bs.map .byte) := by
  intro b
  simp

theorem NoFail.unit (c : Cfg) (k : Kind) (payload : List Byte) : NoFail (unitEvents c k payload) := by
  refine ((NoFail.opening c k).append (NoFail.bytes _)).append fun b => ?_
  unfold closeEvents
  split <;> simp

theorem NoFail.act (c : Cfg) (a : Act) : NoFail (actEvents c a) := by
  cases a with
  | pinRst l =>
    intro b
    simp [actEvents]
  | wait n =>
    intro b
    simp only [actEvents, waitEvents]
    split <;> simp
  | cmdUnit b => exact NoFail.unit c _ _
  | dataUnit bs => exact NoFail.unit c _ _
  | seqStart =>
    intro b
    simp [actEvents]
  | seqNext =>
    intro b
    simp [actEvents]

theorem NoFail.script (c : Cfg) (script : List Act) : NoFail (scriptEvents c script) := by
  intro b hb
  obtain ⟨a, -, ha⟩ := List.mem_flatMap.1 hb
  exact NoFail.act c a b ha

theorem FailsLast.unit {c : Cfg} {k : Kind} {payload : List Byte} {j : Nat} (hj : j < (unitBytes c k payload).length) :
    FailsLast c (unitFailEvents c k payload j) := by
  refine ⟨openEvents c k ++ ((unitBytes c k payload).take j).map .byte, (unitBytes c k payload)[j], ?_,
    (NoFail.opening c k).append (NoFail.bytes _)⟩
  simp [unitFailEvents, List.getElem?_eq_getElem hj]

theorem FailsLast.script {c : Cfg} {script : List Act} {j : Nat} (hj : j < scriptWrites c script) :
    FailsLast c (scriptFailEvents c j script) := by
  induction script generalizing j with
  | nil => simp [scriptWrites] at hj
  | cons a as ih =>
    unfold scriptFailEvents
    split
    · next h =>
      cases a with
      | pinRst l => simp [actWrites] at h
      | wait n => simp [actWrites] at h
      | cmdUnit b => exact FailsLast.unit h
      | dataUnit bs => exact FailsLast.unit h
      | seqStart => simp [actWrites] at h
      | seqNext => simp [actWrites] at h
    · next h =>
      obtain ⟨before, b, he, hn⟩ := ih (j := j - actWrites c a) (by
        simp only [scriptWrites, List.map_cons, List.sum_cons] at hj ⊢
        omega)
      exact ⟨actEvents c a ++ before, b, by rw [he, List.append_assoc], (NoFail.act c a).append hn⟩

end Sys2Proof.Machine
end

