-- ==== Sys2Proof/Laws/Gaps.lean ====
section
/-! SUPPORT. What the host is told in the gaps of a running request, exactly: every event and every release takes one list of
`State.arrivals` and answers it (10_state.md R47; 43_control.md R451, R454). -/

namespace Sys2Proof.Machine

/-! ### One gap -/

/-- What a register read can see, and the controller state: no wire activity moves it. -/
def State.port (s : State) : State := { s.registers with pinRst := false, seqIdx := 0 }

theorem State.port_readReg {s t : State} (h : s.port = t.port) (reg : Byte) : s.readReg reg = t.readReg reg :=
  (show s.readReg reg = s.port.readReg reg from rfl).trans ((congrArg (fun q : State => q.readReg reg) h).trans rfl)

theorem State.port_ctl {s t : State} (h : s.port = t.port) : s.ctl = t.ctl :=
  (show s.ctl = s.port.ctl from rfl).trans ((congrArg State.ctl h).trans rfl)

theorem State.port_of_registers {s t : State} (h : s.registers = t.registers) : s.port = t.port :=
  congrArg (fun q : State => ({ q with pinRst := false, seqIdx := 0 } : State)) h

theorem gapReply_congr {q q' : State} (h : q.port = q'.port) : gapReply q = gapReply q' := by
  funext a
  cases a <;> simp only [gapReply, State.port_ctl h, State.port_readReg h]

theorem gapRequest_congr {q q' : State} (h : q.port = q'.port) : gapRequest q = gapRequest q' := by
  funext a
  cases a <;> simp only [gapRequest, State.port_ctl h]

@[simp] theorem State.arrive_port (s : State) (a : Arrival) : (s.arrive a).port = s.port :=
  State.port_of_registers (by simp [State.registers_eq_iff])

@[simp] theorem State.arrive_arrivals (s : State) (a : Arrival) : (s.arrive a).arrivals = s.arrivals := by
  cases a <;> simp only [State.arrive, State.rejectBusy, State.reply]
  split <;> rfl

/-- One host action in a gap. -/
theorem State.arrive_told (s : State) (a : Arrival) :
    (s.arrive a).replies = s.replies ++ gapReply s a ∧ (s.arrive a).inbox = s.inbox ++ gapRequest s a := by
  cases a with
  | request r =>
    by_cases h : s.ctl = .busy <;> simp [State.arrive, h, State.rejectBusy, gapReply, gapRequest, State.replies]
  | read reg => simp [State.arrive, gapReply, gapRequest, State.replies]

theorem State.foldl_arrive_told (acts : List Arrival) (s : State) :
    (acts.foldl State.arrive s).arrivals = s.arrivals ∧
      (acts.foldl State.arrive s).replies = s.replies ++ acts.flatMap (gapReply s) ∧
      (acts.foldl State.arrive s).inbox = s.inbox ++ acts.flatMap (gapRequest s) := by
  induction acts generalizing s with
  | nil => simp
  | cons a acts ih =>
    obtain ⟨h1, h2, h3⟩ := ih (s.arrive a)
    obtain ⟨h4, h5⟩ := s.arrive_told a
    rw [gapReply_congr (State.arrive_port s a)] at h2
    rw [gapRequest_congr (State.arrive_port s a)] at h3
    exact ⟨h1.trans (State.arrive_arrivals s a), by rw [List.foldl_cons, h2, h4, List.flatMap_cons, List.append_assoc],
      by rw [List.foldl_cons, h3, h5, List.flatMap_cons, List.append_assoc]⟩

/-- A gap takes the next list of host actions and answers it, each action in its turn. -/
theorem State.gap_told (s : State) : s.gap.arrivals = s.arrivals.drop 1 ∧
    s.gap.replies = s.replies ++ (s.arrivals.take 1).flatten.flatMap (gapReply s) ∧
    s.gap.inbox = s.inbox ++ (s.arrivals.take 1).flatten.flatMap (gapRequest s) := by
  unfold State.gap
  split
  · next h => simp [h]
  · next acts later h =>
    obtain ⟨h1, h2, h3⟩ := State.foldl_arrive_told acts { s with arrivals := later }
    exact ⟨h1.trans (by simp [h]), h2.trans (by simp [h]; rfl), h3.trans (by simp [h]; rfl)⟩

/-! ### Wire activity -/

/-- From `s` to `t`, `n` events took place: the first `n` gaps were taken and answered, and nothing a read can see moved. -/
structure Gapped (s t : State) (n : Nat) : Prop where
  port     : t.port = s.port
  events   : t.traceRev.length = s.traceRev.length + n
  arrivals : t.arrivals = s.arrivals.drop n
  replies  : t.replies = s.replies ++ (s.arrivals.take n).flatten.flatMap (gapReply s)
  inbox    : t.inbox = s.inbox ++ (s.arrivals.take n).flatten.flatMap (gapRequest s)

/-- The hidden context, the bus and `seq_idx` are no event. -/
theorem Gapped.still {s t : State} (hp : t.port = s.port) (ht : t.traceRev = s.traceRev) (ha : t.arrivals = s.arrivals)
    (hr : t.repliesRev = s.repliesRev) (hi : t.inbox = s.inbox) : Gapped s t 0 :=
  ⟨hp, by rw [ht]; rfl, ha, by simp [State.replies, hr], by simp [hi]⟩

theorem Gapped.trans {s t u : State} {n m : Nat} (h : Gapped s t n) (h' : Gapped t u m) : Gapped s u (n + m) := by
  refine ⟨h'.port.trans h.port, by rw [h'.events, h.events, Nat.add_assoc], ?_, ?_, ?_⟩
  · rw [h'.arrivals, h.arrivals, List.drop_drop]
  · rw [h'.replies, h.replies, h.arrivals, gapReply_congr h.port, List.take_add, List.flatten_append, List.flatMap_append,
      List.append_assoc]
  · rw [h'.inbox, h.inbox, h.arrivals, gapRequest_congr h.port, List.take_add, List.flatten_append, List.flatMap_append,
      List.append_assoc]

/-- An event takes one gap. -/
theorem Gapped.emit (e : Event) (s : State) : Gapped s (s.emit e) 1 := by
  obtain ⟨h1, h2, h3⟩ := s.gap_told
  refine ⟨?_, by simp, ?_, ?_, ?_⟩
  · have hp : s.gap.port = s.port := State.port_of_registers s.gap_registers
    cases e <;> exact hp
  all_goals cases e <;> assumption

theorem sendBytes_gapped (bs : List Byte) (s : State) : ∃ n, Gapped s (sendBytes bs s).1 n := by
  induction bs generalizing s with
  | nil => exact ⟨0, .still rfl rfl rfl rfl rfl⟩
  | cons b bs ih =>
    have h : Gapped s ({ s with unitLeft := b :: bs } : State).takeAnswer 0 := .still rfl rfl rfl rfl rfl
    unfold sendBytes byteWrite
    split
    · next t hb =>
      split at hb <;> cases hb
      obtain ⟨n, hn⟩ := ih (({ s with unitLeft := b :: bs } : State).takeAnswer.emit (.byte b))
      exact ⟨_, (h.trans (Gapped.emit _ _)).trans hn⟩
    · next t hb =>
      split at hb <;> cases hb
      exact ⟨_, h.trans (Gapped.emit (.fail b) _)⟩

theorem sendUnit_gapped (k : Kind) (payload : List Byte) (s : State) : ∃ n, Gapped s (sendUnit k payload s).1 n := by
  have ho : ∃ n, Gapped s (openUnit k s) n := by
    unfold openUnit
    split
    · exact ⟨_, (Gapped.emit _ _).trans (Gapped.emit _ _)⟩
    · exact ⟨_, Gapped.emit _ _⟩
  have hc : ∀ t : State, ∃ n, Gapped t (closeUnit t) n := by
    intro t
    unfold closeUnit
    split <;> exact ⟨_, Gapped.emit _ _⟩
  obtain ⟨n, hn⟩ := ho
  obtain ⟨m, hm⟩ := sendBytes_gapped (unitBytes s.cfg k payload) (openUnit k s)
  obtain ⟨l, hl⟩ := hc (sendBytes (unitBytes s.cfg k payload) (openUnit k s)).1
  exact ⟨_, (hn.trans hm).trans hl⟩

theorem doAct_gapped (a : Act) (s : State) : ∃ n, Gapped s (doAct a s).1 n := by
  cases a with
  | pinRst l => exact ⟨_, Gapped.emit (.rst l) s⟩
  | wait n =>
    simp only [doAct, waitFor]
    split
    · exact ⟨0, .still rfl rfl rfl rfl rfl⟩
    · exact ⟨_, Gapped.emit _ _⟩
  | cmdUnit b => exact sendUnit_gapped _ _ _
  | dataUnit bs => exact sendUnit_gapped _ _ _
  | seqStart => exact ⟨0, .still rfl rfl rfl rfl rfl⟩
  | seqNext => exact ⟨0, .still rfl rfl rfl rfl rfl⟩

/-- A script takes one gap for each of its events. -/
theorem perform_gapped (script : List Act) (s : State) : ∃ n, Gapped s (perform script s).1 n := by
  induction script generalizing s with
  | nil => exact ⟨0, .still rfl rfl rfl rfl rfl⟩
  | cons a as ih =>
    have h : Gapped s { s with script := a :: as } 0 := .still rfl rfl rfl rfl rfl
    obtain ⟨n, hn⟩ := doAct_gapped a { s with script := a :: as }
    unfold perform
    generalize doAct a { s with script := a :: as } = q at *
    obtain ⟨t, b⟩ := q
    cases b with
    | ok =>
      obtain ⟨m, hm⟩ := ih t
      exact ⟨_, (h.trans hn).trans hm⟩
    | fail => exact ⟨_, h.trans hn⟩

/-- A word run by itself takes one gap for each of its events; the registers move after the last. -/
theorem performAlone_gapped (script : List Act) (s : State) : ∃ n,
    (performAlone script s).traceRev.length = s.traceRev.length + n ∧ (performAlone script s).arrivals = s.arrivals.drop n ∧
    (performAlone script s).replies = s.replies ++ (s.arrivals.take n).flatten.flatMap (gapReply s) ∧
    (performAlone script s).inbox = s.inbox ++ (s.arrivals.take n).flatten.flatMap (gapRequest s) := by
  obtain ⟨n, h⟩ := perform_gapped script s
  refine ⟨n, ?_⟩
  unfold performAlone
  generalize perform script s = q at *
  obtain ⟨t, b⟩ := q
  cases b <;> exact ⟨h.events, h.arrivals, h.replies, h.inbox⟩

/-! ### Requests -/

/-- A release takes one gap, which sees the registers as the request leaves them but for the controller state and the result
(43_control.md R455), and the response is the last thing the host is told. -/
theorem State.release_told (next : ControllerState) (code : Code) (s : State) :
    (s.release next code).traceRev = s.traceRev ∧ (s.release next code).arrivals = s.arrivals.drop 1 ∧
    (s.release next code).replies =
      s.replies ++ (s.arrivals.take 1).flatten.flatMap (gapReply s) ++ [.response code 0] ∧
    ({ s.release next code with ctl := s.ctl, lastResult := s.lastResult } : State).port = s.port := by
  obtain ⟨h1, h2, -⟩ := s.gap_told
  refine ⟨by simp [State.release], h1, ?_, ?_⟩
  · rw [← h2]
    simp [State.release, State.replies]
  · exact State.port_of_registers (by simp [State.registers_eq_iff, State.release])

/-- What a request's script and its release tell the host: `n` events, `n + 1` gaps. The gaps before the events see the registers
that the script starts from; the last gap sees those that the request leaves, `Busy` and the old result standing. -/
structure Released (s t : State) (n : Nat) (code : Code) : Prop where
  events   : t.traceRev.length = s.traceRev.length + n
  arrivals : t.arrivals = s.arrivals.drop (n + 1)
  replies  : t.replies = s.replies ++ (s.arrivals.take n).flatten.flatMap (gapReply s) ++
    (s.arrivals.getD n []).flatMap (gapReply { t with ctl := s.ctl, lastResult := s.lastResult }) ++ [.response code 0]

theorem Gapped.release {s t u : State} {n : Nat} (h : Gapped s t n) (htu : SameWire t u) (hc : u.ctl = t.ctl)
    (hl : u.lastResult = t.lastResult) (next : ControllerState) (code : Code) : Released s (u.release next code) n code := by
  obtain ⟨h1, h2, h3, h4⟩ := u.release_told next code
  have hl' : u.lastResult = s.lastResult := hl.trans (congrArg State.lastResult h.port :)
  rw [hc.trans (State.port_ctl h.port), hl'] at h4
  refine ⟨by rw [h1, htu.trace, h.events], by rw [h2, htu.arrivals, h.arrivals, List.drop_drop], ?_⟩
  have hg : (u.arrivals.take 1).flatten = s.arrivals.getD n [] := by
    rw [htu.arrivals, h.arrivals]
    by_cases hn : n < s.arrivals.length
    · rw [List.drop_eq_getElem_cons hn, List.getD_eq_getElem _ _ hn]
      simp only [List.take_succ_cons, List.take_zero, List.flatten_cons, List.flatten_nil, List.append_nil]
    · rw [List.drop_eq_nil_of_le (Nat.le_of_not_lt hn), List.getD_eq_default _ _ (Nat.le_of_not_lt hn)]
      rfl
  have hr : u.replies = t.replies := by simp [State.replies, htu.replies]
  rw [h3, hg, hr, h.replies, gapReply_congr h4]

/-- A tried script and the end of its request. -/
theorem tryScript_released (script : List Act) (h : Handler) {fin : State → State} (hw : ∀ q, SameWire q (fin q))
    (hc : ∀ q, (fin q).ctl = q.ctl) (hl : ∀ q, (fin q).lastResult = q.lastResult) (s : State) :
    ∃ n code, Released s (tryScript script h (fun t => (fin t).release .ready .ok) s) n code := by
  obtain ⟨n, hn⟩ := perform_gapped script s
  unfold tryScript
  generalize perform script s = q at *
  obtain ⟨t, b⟩ := q
  cases b with
  | ok => exact ⟨n, _, hn.release (hw t) (hc t) (hl t) _ _⟩
  | fail =>
    cases h with
    | initFail =>
      exact ⟨n, _, hn.release (u := { t with failStep := t.seqIdx, initFailed := true }) ⟨rfl, rfl, rfl, rfl, rfl, rfl, rfl, rfl⟩
        rfl rfl _ _⟩
    | winFail => exact ⟨n, _, hn.release (u := t.disarm) ⟨rfl, rfl, rfl, rfl, rfl, rfl, rfl, rfl⟩ rfl rfl _ _⟩
    | flushFail => exact ⟨n, _, hn.release (SameWire.refl t) rfl rfl _ _⟩

/-- An accepted request that uses the wire: one gap before each of its events, and one before the response. -/
theorem exec_released {i : Instr} {s t : State} (hw : usesWire i = true) (ha : acceptance i s = .accept)
    (h : exec i s = .next t) : ∃ n code, Released (opened i s) t n code := by
  rw [exec_wire hw, request_accept ha] at h
  cases h
  refine tryScript_released _ _ (finish_sameWire i) (finish_ctl i) (fun q => ?_) _
  cases i <;> first | rfl | simp [finish, State.advance_eq]

/-! ### The events of a request's segment -/

/-- The number of events of a segment, read off the trace. -/
theorem events_length {s t : State} {evs : List Event} {n : Nat} (h : t.trace = s.trace ++ evs)
    (hn : t.traceRev.length = s.traceRev.length + n) : n = evs.length := by
  have := congrArg List.length h
  simp only [State.trace, List.length_reverse, List.length_append] at this
  omega

theorem unitEvents_ne_nil (c : Cfg) (k : Kind) (p : List Byte) : unitEvents c k p ≠ [] := by
  unfold unitEvents openEvents
  split <;> simp

theorem scriptEvents_ne_nil_of_unit {c : Cfg} {l : List Act} {a : Act} (hl : a ∈ l)
    (ha : (∃ b, a = .cmdUnit b) ∨ ∃ bs, a = .dataUnit bs) : scriptEvents c l ≠ [] := by
  intro he
  have : actEvents c a = [] := List.flatMap_eq_nil_iff.1 he a hl
  rcases ha with ⟨b, rfl⟩ | ⟨bs, rfl⟩
  · exact unitEvents_ne_nil _ _ _ this
  · exact unitEvents_ne_nil _ _ _ this

/-- A Mono block has a page (00_scope.md R14). -/
theorem Cfg.pageCount_pos {c : Cfg} (h : c.variant = .mono) : 0 < c.pageCount := by
  have := c.valid
  rw [RawCfg.check] at this
  simp only [h, RawCfg.checkMono, beq_iff_eq, Bool.and_eq_true, decide_eq_true_eq] at this
  simp only [Cfg.pageCount, h]
  omega

/-- An accepted request that uses the wire emits at least one event. -/
theorem scriptEvents_ne_nil {i : Instr} {s : State} (hw : usesWire i = true) (ha : acceptance i s = .accept) :
    scriptEvents s.cfg (scriptOf i s) ≠ [] := by
  cases i <;> first | exact absurd hw Bool.false_ne_true | skip
  case init =>
    exact scriptEvents_ne_nil_of_unit (a := .cmdUnit s.cfg.cmdDispon) (by simp [scriptOf, initScript, disponScript])
      (.inl ⟨_, rfl⟩)
  case monoFlush =>
    have hv := (acceptance_accept ha).2.1
    have hm : s.cfg.variant = .mono := by cases hx : s.cfg.variant <;> simp_all [legalIn]
    refine scriptEvents_ne_nil_of_unit (a := .dataUnit (pageBytes s.cfg s.buf 0)) ?_ (.inr ⟨_, rfl⟩)
    exact List.mem_flatMap.2 ⟨0, by simpa using Cfg.pageCount_pos hm, by simp [pageScript]⟩
  case writeWord color => exact scriptEvents_ne_nil_of_unit (a := .dataUnit _) List.mem_cons_self (.inr ⟨_, rfl⟩)
  all_goals
    exact scriptEvents_ne_nil_of_unit (a := .cmdUnit cmdCaset) (by simp [scriptOf, windowScript, casetScript]) (.inl ⟨_, rfl⟩)

end Sys2Proof.Machine
end

