-- ==== Sys2Proof/Laws/Window.lean ====
section
/-! SUPPORT. The armed window and its cursor (10_state.md R42 to R44, 41_window_write.md R307). -/

namespace Sys2Proof.Machine

/-- A step of the cursor along the row, inside the window. -/
theorem State.cellsLeft_same_row {s : State} (h : s.WindowOk) (hx : s.curX ≠ s.wx1) :
    (s.curX + 1).toNat = s.curX.toNat + 1 ∧ s.curX.toNat + 1 ≤ s.wx1.toNat := by
  obtain ⟨c1, c2, c3⟩ := h.columns
  constructor <;> bv_omega

/-- At the end of a row that is not the last cell there is a row below. -/
theorem State.cellsLeft_next_row {s : State} (h : s.WindowOk) (hx : s.curX = s.wx1) (hr : s.remaining ≠ 1) :
    (s.curY + 1).toNat = s.curY.toNat + 1 ∧ s.curY.toNat + 1 ≤ s.wy1.toNat := by
  obtain ⟨r1, r2, r3⟩ := h.rows
  have hc := h.cells
  have hlt : s.curY.toNat < s.wy1.toNat := by
    rcases Nat.lt_or_ge s.curY.toNat s.wy1.toNat with hlt | hge
    · exact hlt
    · exfalso
      apply hr
      rw [State.cellsLeft, hx, Nat.sub_eq_zero_of_le hge, Nat.sub_self] at hc
      simp only [Nat.zero_mul, Nat.zero_add] at hc
      exact BitVec.eq_of_toNat_eq hc
  constructor <;> bv_omega

/-- At least one cell is left in an armed window. -/
theorem State.cellsLeft_pos {s : State} (h : s.WindowOk) : 1 ≤ s.remaining.toNat := by
  rw [h.cells, State.cellsLeft]
  exact Nat.le_add_left_of_le (Nat.le_add_left 1 _)

/-- `Advance()` keeps an armed window, unless it wrote the last cell (41_window_write.md R307). -/
theorem State.advance_windowOk {s : State} (h : s.WindowOk) (hr : s.remaining ≠ 1) : s.advance.WindowOk := by
  have hpos := State.cellsLeft_pos h
  have hcells := h.cells
  have hrem : (s.remaining - 1).toNat = s.remaining.toNat - 1 := by bv_omega
  obtain ⟨c1, c2, c3⟩ := h.columns
  obtain ⟨r1, r2, r3⟩ := h.rows
  rw [State.advance_eq]
  by_cases hx : s.curX = s.wx1
  · obtain ⟨y1, y2⟩ := State.cellsLeft_next_row h hx hr
    refine ⟨h.initialised, ?_, ?_, ?_⟩
    · simp only [hx, reduceIte]
      exact ⟨BitVec.le_refl _, by bv_omega, c3⟩
    · simp only [hx, reduceIte]
      exact ⟨by bv_omega, by bv_omega, r3⟩
    · simp only [State.cellsLeft, hx, reduceIte, y1, hrem] at hcells ⊢
      obtain ⟨d, hd⟩ : ∃ d, s.wy1.toNat - s.curY.toNat = d + 1 := ⟨s.wy1.toNat - s.curY.toNat - 1, by omega⟩
      rw [show s.wy1.toNat - (s.curY.toNat + 1) = d by omega]
      rw [hd, Nat.succ_mul] at hcells
      omega
  · obtain ⟨x1, x2⟩ := State.cellsLeft_same_row h hx
    refine ⟨h.initialised, ?_, ?_, ?_⟩
    · simp only [hx, reduceIte]
      exact ⟨by bv_omega, by bv_omega, c3⟩
    · simp only [hx, reduceIte]
      exact ⟨r1, r2, r3⟩
    · simp only [State.cellsLeft, hx, reduceIte, x1, hrem] at hcells ⊢
      omega

/-- The invariant looks at registers only. -/
theorem State.Inv.congr {s t : State} (h : t.registers = s.registers) (hi : s.Inv) : t.Inv := by
  have h' := (State.registers_eq_iff _ _).1 h
  obtain ⟨i1, i2, i3, i4, i5, i6, i7, i8⟩ := hi
  refine ⟨fun ha => ?_, by simpa [h'] using i2, by simpa [h'] using i3, by simpa [h'] using i4, by simpa [h'] using i5, by simpa [h'] using i6, by simpa [h'] using i7, by simpa [h'] using i8⟩
  obtain ⟨w1, w2, w3, w4⟩ := i1 (by simpa [h'] using ha)
  exact ⟨by simpa [h'] using w1, by simpa [h'] using w2, by simpa [h'] using w3, by simpa [h', State.cellsLeft] using w4⟩

/-- The invariant does not look at the result. -/
theorem State.Inv.result {s : State} (c : Code) (hi : s.Inv) : ({ s with lastResult := c } : State).Inv := by
  obtain ⟨i1, i2, i3, i4, i5, i6, i7, i8⟩ := hi
  refine ⟨fun ha => ?_, i2, i3, i4, i5, i6, i7, i8⟩
  obtain ⟨w1, w2, w3, w4⟩ := i1 ha
  exact ⟨w1, w2, w3, w4⟩

end Sys2Proof.Machine
end

