-- ==== Sys2Proof/Laws/Observer.lean ====
section
/-! SUPPORT. What the observers of the attached panel see of a unit (20_memory.md R107, R109). -/

namespace Sys2Proof.Machine

/-! ### The colour observer -/

/-- The observer after more events. -/
def ColorObserver.sees (c : Cfg) (o : ColorObserver) (evs : List Event) : ColorObserver := evs.foldl (ColorObserver.see c) o

theorem ColorObserver.sees_append (c : Cfg) (o : ColorObserver) (a b : List Event) :
    o.sees c (a ++ b) = (o.sees c a).sees c b := List.foldl_append

theorem observe_append (c : Cfg) (a b : List Event) : observe c (a ++ b) = (observe c a).sees c b := List.foldl_append

/-- The data bytes of a unit, one by one. -/
def ColorObserver.dataBytes (c : Cfg) (o : ColorObserver) (bs : List Byte) : ColorObserver :=
  bs.foldl (fun o b => o.dataByte c b) o

@[simp] theorem ColorObserver.word_kind (c : Cfg) (w : Half) (o : ColorObserver) : (o.word c w).kind = o.kind := by
  unfold ColorObserver.word
  split <;> rfl

@[simp] theorem ColorObserver.word_oc (c : Cfg) (w : Half) (o : ColorObserver) : (o.word c w).oc = o.oc := by
  unfold ColorObserver.word
  split <;> rfl

theorem ColorObserver.dataByte_kind (c : Cfg) (b : Byte) (o : ColorObserver) : (o.dataByte c b).kind = o.kind := by
  unfold ColorObserver.dataByte
  simp only
  repeat' split
  all_goals simp

theorem ColorObserver.sees_bytes {c : Cfg} {o : ColorObserver} (h : o.kind = .data) (bs : List Byte) :
    o.sees c (bs.map .byte) = o.dataBytes c bs := by
  induction bs generalizing o with
  | nil => rfl
  | cons b bs ih =>
    have h1 : o.see c (.byte b) = o.dataByte c b := by simp [ColorObserver.see, h]
    show (o.see c (.byte b)).sees c (bs.map .byte) = (o.dataByte c b).dataBytes c bs
    rw [h1, ih (by rw [ColorObserver.dataByte_kind, h])]

/-- A command unit on SPI. -/
theorem ColorObserver.sees_cmd {c : Cfg} (hs : c.transport.isSpi = true) (o : ColorObserver) (b : Byte) :
    o.sees c (unitEvents c .cmd [b]) = ({ o with kind := .cmd }).command c b := by
  simp [unitEvents, openEvents, closeEvents, unitBytes, hs, ColorObserver.sees, ColorObserver.see]

/-- A data unit on SPI. -/
theorem ColorObserver.sees_data {c : Cfg} (hs : c.transport.isSpi = true) (o : ColorObserver) (bs : List Byte) :
    o.sees c (unitEvents c .data bs) = ({ o with kind := .data }).dataBytes c bs := by
  have h : unitEvents c .data bs = [.dc .data, .csAssert] ++ bs.map .byte ++ [.csDeassert] := by
    simp [unitEvents, openEvents, closeEvents, unitBytes, hs]
  have h1 : o.sees c [.dc .data, .csAssert] = { o with kind := .data } := rfl
  rw [h, ColorObserver.sees_append, ColorObserver.sees_append, h1, ColorObserver.sees_bytes rfl]
  rfl

/-- The four parameter bytes of a column address set. -/
theorem ColorObserver.dataBytes_caset {c : Cfg} (h1 : cmdCaset ≠ c.cmdRaset) (h2 : cmdCaset ≠ c.cmdRamwr) {o : ColorObserver}
    (ho : o.oc = some cmdCaset) (hp : o.params = []) (x0 x1 : Half) : o.dataBytes c (bytesOfRange x0 x1) =
      { o with params := bytesOfRange x0 x1, cols := some (x0, x1) } := by
  simp [ColorObserver.dataBytes, bytesOfRange, ColorObserver.dataByte, ho, hp, rangeOf, h1, h2, joinBytes_hiByte_loByte]

/-- The four parameter bytes of a row address set. -/
theorem ColorObserver.dataBytes_raset {c : Cfg} (h1 : cmdCaset ≠ c.cmdRaset) (h2 : c.cmdRaset ≠ c.cmdRamwr) {o : ColorObserver}
    (ho : o.oc = some c.cmdRaset) (hp : o.params = []) (y0 y1 : Half) : o.dataBytes c (bytesOfRange y0 y1) =
      { o with params := bytesOfRange y0 y1, rows := some (y0, y1) } := by
  have h3 : c.cmdRaset ≠ cmdCaset := fun h => h1 h.symm
  simp [ColorObserver.dataBytes, bytesOfRange, ColorObserver.dataByte, ho, hp, rangeOf, h3, h2, joinBytes_hiByte_loByte]

/-- A command of the window group other than the memory write. -/
theorem ColorObserver.command_plain {c : Cfg} {b : Byte} (h : b ≠ c.cmdRamwr) (hw : isWindowCommand c b = true)
    (o : ColorObserver) : o.command c b = { o with oc := some b, params := [] } := by simp [ColorObserver.command, h, hw]

/-- The window group leaves the write pointer on the window's first cell (20_memory.md R107). -/
theorem ColorObserver.sees_window {c : Cfg} (hs : c.transport.isSpi = true) (hn : [cmdCaset, c.cmdRaset, c.cmdRamwr].Nodup)
    (o : ColorObserver) (x0 y0 x1 y1 : Half) : o.sees c (unitsEvents c (windowUnits c x0 y0 x1 y1)) =
      { o with
          kind := .cmd
          oc := some c.cmdRamwr
          params := []
          cols := some (x0, x1)
          rows := some (y0, y1)
          pointer := some (x0.toNat, y0.toNat)
          pend := [] } := by
  have h1 : cmdCaset ≠ c.cmdRaset := by
    intro h
    simp [h] at hn
  have h2 : cmdCaset ≠ c.cmdRamwr := by
    intro h
    simp [h] at hn
  have h3 : c.cmdRaset ≠ c.cmdRamwr := by
    intro h
    simp [h] at hn
  have e : unitsEvents c (windowUnits c x0 y0 x1 y1) = unitEvents c .cmd [cmdCaset] ++ (unitEvents c .data (bytesOfRange x0 x1)
      ++ (unitEvents c .cmd [c.cmdRaset] ++ (unitEvents c .data (bytesOfRange y0 y1) ++ unitEvents c .cmd [c.cmdRamwr]))) := by
    simp [unitsEvents, windowUnits, bytesOfRange, cmdCaset]
  rw [e, ColorObserver.sees_append, ColorObserver.sees_cmd hs, ColorObserver.command_plain h2 (by simp [isWindowCommand]), ColorObserver.sees_append,
    ColorObserver.sees_data hs, ColorObserver.dataBytes_caset h1 h2 rfl rfl, ColorObserver.sees_append,
    ColorObserver.sees_cmd hs, ColorObserver.command_plain h3 (by simp [isWindowCommand]), ColorObserver.sees_append, ColorObserver.sees_data hs,
    ColorObserver.dataBytes_raset h1 h3 rfl rfl, ColorObserver.sees_cmd hs]
  simp [ColorObserver.command, windowStart, isWindowCommand]

/-- A word for a cell of the window that is a cell of the panel leaves nothing open. -/
theorem wordCases_nil {c : Cfg} {rows : Half × Half} {p : Nat × Nat} (hr : p.2 ≤ rows.2.toNat) (hx : p.1 < c.width.toNat)
    (hy : p.2 < c.height.toNat) : wordCases c rows p = [] := by
  rw [wordCases, if_neg (by omega), if_neg (by omega)]
  rfl

/-- A word whose cell is in the window and in the panel is written there and leaves nothing open (20_memory.md R107). -/
theorem ColorObserver.word_inside {c : Cfg} {o : ColorObserver} {p : Nat × Nat} {cols rows : Half × Half} (hp : o.pointer = some p)
    (hc : o.cols = some cols) (hrs : o.rows = some rows) (hr : p.2 ≤ rows.2.toNat) (hx : p.1 < c.width.toNat)
    (hy : p.2 < c.height.toNat) (w : Half) : o.word c w =
      { o with cells := (p, w) :: o.cells, pend := [], pointer := some (nextCell cols p) } := by
  simp only [ColorObserver.word, hp, hc, hrs, wordCases_nil hr hx hy, List.nil_append]

/-- A pixel word in the stream (20_memory.md R107). -/
theorem ColorObserver.dataBytes_word {c : Cfg} (hn : [cmdCaset, c.cmdRaset, c.cmdRamwr].Nodup) {o : ColorObserver}
    (ho : o.oc = some c.cmdRamwr) (hp : o.pend = []) (w : Half) (bs : List Byte) :
    o.dataBytes c (hiByte w :: loByte w :: bs) = (o.word c w).dataBytes c bs := by
  have h2 : c.cmdRamwr ≠ cmdCaset := by
    intro h
    simp [h] at hn
  have h3 : c.cmdRamwr ≠ c.cmdRaset := by
    intro h
    simp [h] at hn
  have e1 : o.dataByte c (hiByte w) = { o with pend := [hiByte w] } := by
    simp [ColorObserver.dataByte, ho, h2, h3, hp]
  have e2 : ({ o with pend := [hiByte w] } : ColorObserver).dataByte c (loByte w) = o.word c w := by
    simp only [ColorObserver.dataByte, ho, Option.some.injEq, h2, h3, if_false, if_true, joinBytes_hiByte_loByte]
    unfold ColorObserver.word
    cases o.pointer <;> cases o.cols <;> cases o.rows <;> simp [ho]
  show ((o.dataByte c (hiByte w)).dataByte c (loByte w)).dataBytes c bs = _
  rw [e1, e2]

/-- The cell that word number `k` of a window of width `w` from `(x0, y0)` goes to. -/
def cellAt (x0 y0 w k : Nat) : Nat × Nat := (x0 + k % w, y0 + k / w)

theorem nextCell_cellAt {x0 x1 : Half} (h : x0 ≤ x1) (y0 k : Nat) :
    nextCell (x0, x1) (cellAt x0.toNat y0 (x1.toNat - x0.toNat + 1) k) = cellAt x0.toNat y0 (x1.toNat - x0.toNat + 1) (k + 1) := by
  have hle : x0.toNat ≤ x1.toNat := h
  generalize hw : x1.toNat - x0.toNat + 1 = w
  have hw0 : 0 < w := by omega
  have hmod := Nat.mod_lt k hw0
  have hdiv := Nat.div_add_mod k w
  unfold nextCell cellAt
  simp only
  by_cases hlast : k % w = w - 1
  · have e : k + 1 = w * (k / w + 1) := by rw [Nat.mul_succ]; omega
    rw [if_pos (by omega), e, Nat.mul_mod_right, Nat.mul_div_cancel_left _ hw0, Nat.add_assoc]
    rfl
  · have hlt : k % w + 1 < w := by omega
    have e1 : (k + 1) % w = k % w + 1 := by
      rw [Nat.add_mod, Nat.mod_eq_of_lt (show 1 < w by omega), Nat.mod_eq_of_lt hlt]
    have e2 : (k + 1) / w = k / w := by
      have := Nat.div_add_mod (k + 1) w
      rw [e1] at this
      have hm : w * ((k + 1) / w) = w * (k / w) := by omega
      exact Nat.eq_of_mul_eq_mul_left hw0 hm
    rw [if_neg (by omega), e1, e2, Nat.add_assoc]

/-- A cell of the window is one of its words' and the other way round. -/
theorem cellAt_mem {x0 y0 w h : Nat} (hw : 0 < w) (i j : Nat) :
    (∃ k, k < w * h ∧ cellAt x0 y0 w k = (i, j)) ↔ (x0 ≤ i ∧ i < x0 + w) ∧ y0 ≤ j ∧ j < y0 + h := by
  constructor
  · rintro ⟨k, hk, he⟩
    simp only [cellAt, Prod.mk.injEq] at he
    obtain ⟨rfl, rfl⟩ := he
    have h1 := Nat.mod_lt k hw
    have h2 : k / w < h := Nat.div_lt_of_lt_mul hk
    generalize k % w = r at *
    generalize k / w = q at *
    refine ⟨⟨?_, ?_⟩, ?_, ?_⟩ <;> omega
  · rintro ⟨⟨h1, h2⟩, h3, h4⟩
    refine ⟨w * (j - y0) + (i - x0), ?_, ?_⟩
    · have : w * (j - y0) + w ≤ w * h := by
        rw [← Nat.mul_succ]
        exact Nat.mul_le_mul_left w (by omega)
      omega
    · unfold cellAt
      rw [Nat.mul_add_mod, Nat.mod_eq_of_lt (by omega), Nat.mul_add_div hw, Nat.div_eq_of_lt (by omega)]
      ext <;> simp <;> omega

/-- The observer in the stream of a window inside the panel, its write pointer on word number `k`. -/
structure ColorObserver.Streaming (c : Cfg) (o : ColorObserver) (x0 y0 x1 y1 : Half) (k : Nat) : Prop where
  command : o.oc = some c.cmdRamwr
  columns : o.cols = some (x0, x1)
  rows    : o.rows = some (y0, y1)
  pointer : o.pointer = some (cellAt x0.toNat y0.toNat (x1.toNat - x0.toNat + 1) k)
  pend    : o.pend = []

/-- `n` words of one colour, none past the window: the cells they go to take the colour (20_memory.md R107). -/
theorem ColorObserver.dataBytes_replicate {c : Cfg} (hn : [cmdCaset, c.cmdRaset, c.cmdRamwr].Nodup) {x0 y0 x1 y1 : Half}
    (hx : x0 ≤ x1) (hxw : x1 < c.width) (hy : y0 ≤ y1) (hyh : y1 < c.height) (w : Half) (n : Nat) {o : ColorObserver} {k : Nat}
    (hs : o.Streaming c x0 y0 x1 y1 k) (hk : k + n ≤ (x1.toNat - x0.toNat + 1) * (y1.toNat - y0.toNat + 1)) :
    ((o.dataBytes c (bytesOfWords (List.replicate n w))).Streaming c x0 y0 x1 y1 (k + n)) ∧
    (o.dataBytes c (bytesOfWords (List.replicate n w))).leftOpen = o.leftOpen ∧
    ∀ i j, ((∃ m, k ≤ m ∧ m < k + n ∧ cellAt x0.toNat y0.toNat (x1.toNat - x0.toNat + 1) m = (i, j)) →
        (o.dataBytes c (bytesOfWords (List.replicate n w))).pixel i j = some w) ∧
      ((¬ ∃ m, k ≤ m ∧ m < k + n ∧ cellAt x0.toNat y0.toNat (x1.toNat - x0.toNat + 1) m = (i, j)) →
        (o.dataBytes c (bytesOfWords (List.replicate n w))).pixel i j = o.pixel i j) := by
  induction n generalizing o k with
  | zero =>
    refine ⟨hs, rfl, fun i j => ⟨?_, fun _ => rfl⟩⟩
    rintro ⟨m, h1, h2, -⟩
    omega
  | succ n ih =>
    have hle : x0.toNat ≤ x1.toNat := hx
    have hcell := (cellAt_mem (x0 := x0.toNat) (y0 := y0.toNat) (h := y1.toNat - y0.toNat + 1)
      (show 0 < x1.toNat - x0.toNat + 1 by omega) (cellAt x0.toNat y0.toNat (x1.toNat - x0.toNat + 1) k).1
      (cellAt x0.toNat y0.toNat (x1.toNat - x0.toNat + 1) k).2).1 ⟨k, by omega, rfl⟩
    have hword : o.word c w = { o with
        cells := (cellAt x0.toNat y0.toNat (x1.toNat - x0.toNat + 1) k, w) :: o.cells
        pointer := some (cellAt x0.toNat y0.toNat (x1.toNat - x0.toNat + 1) (k + 1)) } := by
      have hy' : y0.toNat ≤ y1.toNat := hy
      have hxw' : x1.toNat < c.width.toNat := hxw
      have hyh' : y1.toNat < c.height.toNat := hyh
      rw [ColorObserver.word_inside hs.pointer hs.columns hs.rows (by simp only; omega) (by omega) (by omega), nextCell_cellAt hx]
      simp [hs.pend]
    have hstep : o.dataBytes c (bytesOfWords (List.replicate (n + 1) w)) =
        (o.word c w).dataBytes c (bytesOfWords (List.replicate n w)) := by
      rw [List.replicate_succ]
      exact ColorObserver.dataBytes_word hn hs.command hs.pend w _
    obtain ⟨h1, h2, h3⟩ := ih (o := o.word c w) (k := k + 1)
      (by rw [hword]; exact ⟨hs.command, hs.columns, hs.rows, rfl, hs.pend⟩) (by omega)
    rw [hstep]
    refine ⟨by rw [show k + (n + 1) = k + 1 + n by omega]; exact h1, by rw [h2, hword], fun i j => ⟨?_, fun hnot => ?_⟩⟩
    · rintro ⟨m, m1, m2, m3⟩
      by_cases hlater : ∃ m, k + 1 ≤ m ∧ m < k + 1 + n ∧ cellAt x0.toNat y0.toNat (x1.toNat - x0.toNat + 1) m = (i, j)
      · exact (h3 i j).1 hlater
      · rw [(h3 i j).2 hlater, hword]
        have hm : m = k := by
          rcases Nat.lt_or_ge k m with h | h
          · exact absurd ⟨m, h, by omega, m3⟩ hlater
          · omega
        rw [hm] at m3
        simp [ColorObserver.pixel, cellValue, m3]
    · rw [(h3 i j).2 (fun ⟨m, m1, m2, m3⟩ => hnot ⟨m, by omega, by omega, m3⟩), hword]
      have : cellAt x0.toNat y0.toNat (x1.toNat - x0.toNat + 1) k ≠ (i, j) := fun h => hnot ⟨k, Nat.le_refl k, by omega, h⟩
      simp [ColorObserver.pixel, cellValue, this]

/-! ### The monochrome observer -/

theorem UnitReader.sees_bytes (c : Cfg) {u : UnitReader} {k : Kind} (h : u.kind = some k) (bs : List Byte) :
    (bs.map Event.byte).foldl (UnitReader.see c) u = { u with bytes := u.bytes ++ bs } := by
  induction bs generalizing u with
  | nil => simp
  | cons b bs ih =>
    have h1 : u.see c (.byte b) = { u with bytes := u.bytes ++ [b] } := by simp [UnitReader.see, h]
    rw [List.map_cons, List.foldl_cons, h1, ih (u := { u with bytes := u.bytes ++ [b] }) h]
    simp

/-- A unit whose every byte was answered ok, as the unit reader gives it. -/
def wireUnit (v : Kind × List Byte) : WireUnit := ⟨v.1, v.2, false⟩

/-- A framed unit is read as it was sent, on SPI and on I2C. -/
theorem UnitReader.sees_unit (c : Cfg) (u : UnitReader) (k : Kind) (payload : List Byte) :
    ((unitEvents c k payload).foldl (UnitReader.see c) u).doneRev = wireUnit (k, payload) :: u.doneRev := by
  cases hs : c.transport.isSpi
  · have hk : kindOfControl c (controlByte c k) = k := by
      have := control_distinct c
      cases k
      · simp [kindOfControl, controlByte, this]
      · simp [kindOfControl, controlByte]
    simp only [unitEvents, openEvents, closeEvents, unitBytes, hs, Bool.false_eq_true, if_false, List.map_cons, List.foldl_append,
      List.foldl_cons, List.foldl_nil, List.cons_append, List.nil_append]
    rw [show UnitReader.see c (UnitReader.see c u .i2cStart) (.byte (controlByte c k)) =
        { u with kind := some k, bytes := [], failed := false } by simp [UnitReader.see, UnitReader.begin, hk]]
    rw [UnitReader.sees_bytes c rfl]
    simp [UnitReader.see, UnitReader.finish, wireUnit]
  · simp only [unitEvents, openEvents, closeEvents, unitBytes, hs, if_true, List.foldl_append, List.foldl_cons, List.foldl_nil,
      List.cons_append, List.nil_append]
    rw [UnitReader.sees_bytes c (k := k) rfl]
    simp [UnitReader.see, UnitReader.finish, UnitReader.begin, wireUnit]

theorem UnitReader.sees_units (c : Cfg) (u : UnitReader) (us : List (Kind × List Byte)) :
    ((unitsEvents c us).foldl (UnitReader.see c) u).doneRev = (us.map wireUnit).reverse ++ u.doneRev := by
  induction us generalizing u with
  | nil => rfl
  | cons v us ih =>
    rw [show unitsEvents c (v :: us) = unitEvents c v.1 v.2 ++ unitsEvents c us from rfl, List.foldl_append, ih,
      UnitReader.sees_unit]
    simp

theorem unitsOf_append (c : Cfg) (trace : List Event) (us : List (Kind × List Byte)) :
    unitsOf c (trace ++ unitsEvents c us) = unitsOf c trace ++ us.map wireUnit := by
  unfold unitsOf
  rw [List.foldl_append, UnitReader.sees_units]
  simp

/-- The monochrome observer after more units. -/
theorem observeMono_append (c : Cfg) (trace : List Event) (us : List (Kind × List Byte)) :
    observeMono c (trace ++ unitsEvents c us) = (us.map wireUnit).foldl (MonoObserver.see c) (observeMono c trace) := by
  rw [observeMono, unitsOf_append, List.foldl_append]
  rfl

theorem storeFrom_wf {m : Memory} (h : m.wf = true) (a : Nat) (bs : List Byte) : (storeFrom m a bs).wf = true := by
  induction bs generalizing m a with
  | nil => exact h
  | cons b bs ih => exact ih (Memory.wf_write h) _

/-- Reading what was stored. -/
theorem storeFrom_read {m : Memory} (h : m.wf = true) (a : Nat) (bs : List Byte) (x : Nat) : Memory.read (storeFrom m a bs) x =
    if a ≤ x ∧ x < a + bs.length then bs.getD (x - a) 0 else Memory.read m x := by
  induction bs generalizing m a with
  | nil =>
    rw [if_neg (by simp only [List.length_nil]; omega)]
    rfl
  | cons b bs ih =>
    rw [storeFrom, ih (Memory.wf_write h), Memory.read_write h, List.length_cons]
    by_cases h1 : x = a
    · subst h1
      rw [if_neg (by omega), if_pos rfl, if_pos (by omega), Nat.sub_self]
      rfl
    · by_cases h2 : a + 1 ≤ x ∧ x < a + 1 + bs.length
      · rw [if_pos h2, if_pos (by omega), show x - a = (x - (a + 1)) + 1 by omega]
        rfl
      · rw [if_neg h2, if_neg h1, if_neg (by omega)]

theorem MonoObserver.data_wf (c : Cfg) {o : MonoObserver} (h : o.panel.wf = true) (bs : List Byte) :
    (o.data c bs).panel.wf = true := by
  unfold MonoObserver.data
  split
  · exact storeFrom_wf h _ _
  · exact h

theorem MonoObserver.see_wf (c : Cfg) {o : MonoObserver} (h : o.panel.wf = true) (u : WireUnit) : (o.see c u).panel.wf = true := by
  unfold MonoObserver.see
  have h' : (if u.failed then { o with leftOpen := .failedByte :: o.leftOpen } else o : MonoObserver).panel.wf = true := by
    split <;> exact h
  cases u.kind with
  | cmd => exact h'
  | data => exact MonoObserver.data_wf c h' _

theorem MonoObserver.sees_wf (c : Cfg) {o : MonoObserver} (h : o.panel.wf = true) (us : List WireUnit) :
    (us.foldl (MonoObserver.see c) o).panel.wf = true := by
  induction us generalizing o with
  | nil => exact h
  | cons u us ih => exact ih (MonoObserver.see_wf c h u)

theorem observeMono_wf (c : Cfg) (trace : List Event) : (observeMono c trace).panel.wf = true :=
  MonoObserver.sees_wf c (o := MonoObserver.start) rfl _

theorem MonoObserver.sees_cmds (c : Cfg) (o : MonoObserver) (bs : List Byte) :
    (bs.map fun b => wireUnit (.cmd, [b])).foldl (MonoObserver.see c) o = { o with cmds := o.cmds ++ bs } := by
  induction bs generalizing o with
  | nil => simp
  | cons b bs ih =>
    rw [List.map_cons, List.foldl_cons, show o.see c (wireUnit (.cmd, [b])) = { o with cmds := o.cmds ++ [b] } from rfl, ih]
    simp

theorem pageBytes_length (c : Cfg) (m : Memory) (p : Nat) : (pageBytes c m p).length = c.width.toNat := by simp [pageBytes]

/-- A page whose preamble positions the panel at it. -/
theorem MonoObserver.sees_page {c : Cfg} {o : MonoObserver} {m : Memory} {p : Nat}
    (hpos : positionedAt c (o.cmds ++ c.preamble p) = some p) : ((pageUnits c m p).map wireUnit).foldl (MonoObserver.see c) o =
      ⟨[], storeFrom o.panel (p * c.width.toNat) (pageBytes c m p), o.leftOpen⟩ := by
  have e : (pageUnits c m p).map wireUnit =
      (c.preamble p).map (fun b => wireUnit (.cmd, [b])) ++ [wireUnit (.data, pageBytes c m p)] := by simp [pageUnits]
  have hlen := pageBytes_length c m p
  rw [e, List.foldl_append, MonoObserver.sees_cmds]
  simp [MonoObserver.see, MonoObserver.data, wireUnit, hpos, hlen, List.take_of_length_le (Nat.le_of_eq hlen)]

end Sys2Proof.Machine
end

