-- ==== Sys2Proof/Laws/PerInstr.lean ====
section
/-! SUPPORT. Statements made of every instruction as syntax, one lemma a constructor: the length of its encoding
(30_encoding.md R120, R127, R128, R131, R132, R135, R206). -/

namespace Sys2Proof

/-- The bytes of an instruction on its surface, by the lengths the spec gives. -/
def Instr.size (c : Cfg) : Instr → Nat
  | .init => 11
  | .setWindow _ _ _ _ => 11
  | .writeWord _ => 11
  | .putPixel _ _ _ => 11
  | .fillRect _ _ _ _ _ => 11
  | .monoSetPixel _ _ _ => 11
  | .monoGetPixel _ _ => 11
  | .monoClear => 11
  | .monoFlush => 11
  | .lockBuffer => 11
  | .unlockBuffer => 11
  | .reserved _ => 11
  | .caset _ _ => 5
  | .raset _ _ => 5
  | .ramwr => 1
  | .dispon => 1
  | .pagePreamble p => (c.preamble p).length
  | .tableEntry e => 6 + e.params.length
  | .tableImage es => 2 + (es.map fun e => 6 + e.params.length).sum

theorem bytesOfEntry_length (e : CommandEntry) : (bytesOfEntry e).length = 6 + e.params.length := by
  simp [bytesOfEntry]
  omega

end Sys2Proof

namespace Sys2Proof.Laws.EncodeLength

/-- The encoding is as long as the spec says. -/
def Statement (i : Instr) : Prop := ∀ c : Cfg, (encode c i).length = i.size c

theorem init : Statement .init := fun _ => rfl

theorem setWindow (x0 : Half) (y0 : Half) (x1 : Half) (y1 : Half) : Statement (.setWindow x0 y0 x1 y1) := fun _ => rfl

theorem writeWord (color : Half) : Statement (.writeWord color) := fun _ => rfl

theorem putPixel (x : Half) (y : Half) (color : Half) : Statement (.putPixel x y color) := fun _ => rfl

theorem fillRect (x0 : Half) (y0 : Half) (x1 : Half) (y1 : Half) (color : Half) : Statement (.fillRect x0 y0 x1 y1 color) := fun _ => rfl

theorem monoSetPixel (x : Half) (y : Half) (v : BitVec 1) : Statement (.monoSetPixel x y v) := fun _ => rfl

theorem monoGetPixel (x : Half) (y : Half) : Statement (.monoGetPixel x y) := fun _ => rfl

theorem monoClear : Statement .monoClear := fun _ => rfl

theorem monoFlush : Statement .monoFlush := fun _ => rfl

theorem lockBuffer : Statement .lockBuffer := fun _ => rfl

theorem unlockBuffer : Statement .unlockBuffer := fun _ => rfl

theorem reserved (op : Byte) : Statement (.reserved op) := fun _ => rfl

theorem caset (x0 : Half) (x1 : Half) : Statement (.caset x0 x1) := fun _ => rfl

theorem raset (y0 : Half) (y1 : Half) : Statement (.raset y0 y1) := fun _ => rfl

theorem ramwr : Statement .ramwr := fun _ => rfl

theorem dispon : Statement .dispon := fun _ => rfl

theorem pagePreamble (p : Nat) : Statement (.pagePreamble p) := fun _ => rfl

theorem tableEntry (e : CommandEntry) : Statement (.tableEntry e) := fun _ => bytesOfEntry_length e

theorem tableImage (es : List CommandEntry) : Statement (.tableImage es) := by
  intro c
  simp only [encode, bytesOfImage, Instr.size, List.length_cons, List.length_flatMap, bytesOfEntry_length]
  omega

end Sys2Proof.Laws.EncodeLength
end

