-- ==== Sys2Proof/Laws/Pins.lean ====
section
/-! SUPPORT. What stands on the SPI pins and on the I2C wire under a trace, event by event (20_memory.md R93 to R95,
30_encoding.md R134). -/

namespace Sys2Proof.Machine

/-- The failed bytes of a trace, which number the free values of log 14. -/
def failsIn (es : List Event) : Nat := es.countP fun e => match e with
  | .fail _ => true
  | _ => false

/-- Pins follow the trace: what an earlier trace put there stays. -/
theorem pinSteps_append (a b : List Event) (n : Nat) : pinSteps n (a ++ b) = pinSteps n a ++ pinSteps (n + failsIn a) b := by
  induction a generalizing n with
  | nil => rfl
  | cons e es ih =>
    cases e <;> simp [pinSteps, ih, failsIn, Nat.add_assoc, Nat.add_comm 1]

theorem i2cBytes_append (c : Cfg) (a b : List Event) (n : Nat) :
    i2cBytes c n (a ++ b) = i2cBytes c n a ++ i2cBytes c (n + failsIn a) b := by
  induction a generalizing n with
  | nil => rfl
  | cons e es ih =>
    cases e <;> simp [i2cBytes, ih, failsIn, Nat.add_assoc, Nat.add_comm 1]

theorem pinSteps_bytes (bs : List Byte) (n : Nat) : pinSteps n (bs.map .byte) = bs.flatMap byteSteps := by
  induction bs with
  | nil => rfl
  | cons b bs ih => simp [pinSteps, eventSteps, ih]

theorem i2cBytes_bytes (c : Cfg) (bs : List Byte) (n : Nat) : i2cBytes c n (bs.map .byte) = bs := by
  induction bs with
  | nil => rfl
  | cons b bs ih => simp [i2cBytes, ih]

@[simp] theorem failsIn_bytes (bs : List Byte) : failsIn (bs.map .byte) = 0 := by simp [failsIn]

/-- The bit-steps of a failed byte are first ones of the byte's (20_memory.md R94, log 14). -/
theorem failSteps_prefix (b : Byte) (n : Nat) : ∃ done, done ≤ 8 ∧
    ((bitsMsbFirst b).take n).flatMap bitStep = (byteSteps b).take (3 * done) := by
  refine ⟨min n 8, Nat.min_le_right _ _, ?_⟩
  rcases Nat.lt_or_ge n 8 with h | h
  · rw [Nat.min_eq_left (Nat.le_of_lt h)]
    have : n = 0 ∨ n = 1 ∨ n = 2 ∨ n = 3 ∨ n = 4 ∨ n = 5 ∨ n = 6 ∨ n = 7 := by omega
    rcases this with rfl | rfl | rfl | rfl | rfl | rfl | rfl | rfl <;> rfl
  · rw [Nat.min_eq_right h, List.take_of_length_le (show (bitsMsbFirst b).length ≤ n from h)]
    rfl

/-- The pins after more of the trace, on SPI. -/
theorem pinTrace_append {s t : State} {evs : List Event} (hs : s.cfg.transport.isSpi = true) (hc : t.cfg = s.cfg)
    (ht : t.trace = s.trace ++ evs) : t.pinTrace = some (pinSteps 0 s.trace ++ pinSteps (failsIn s.trace) evs) := by
  simp [State.pinTrace, hc, hs, ht, pinSteps_append]

/-- The wire after more of the trace, on I2C. -/
theorem i2cTrace_append {s t : State} {evs : List Event} (hs : s.cfg.transport.isSpi = false) (hc : t.cfg = s.cfg)
    (ht : t.trace = s.trace ++ evs) : t.i2cTrace = some (i2cBytes s.cfg 0 s.trace ++ i2cBytes s.cfg (failsIn s.trace) evs) := by
  simp [State.i2cTrace, hc, hs, ht, i2cBytes_append]

theorem i2cAddressByte_eq (c : Cfg) : i2cAddressByte c = BitVec.ofNat 8 (2 * c.i2cAddr.toNat) := by
  unfold i2cAddressByte
  bv_omega

/-- A whole unit on the pins. -/
theorem pinSteps_unit {c : Cfg} (h : c.transport.isSpi = true) (k : Kind) (payload : List Byte) (n : Nat) :
    pinSteps n (unitEvents c k payload) =
      .dc (k == .data) :: .cs true :: (payload.flatMap byteSteps ++ [.cs false]) := by
  simp [unitEvents, openEvents, closeEvents, unitBytes, h, pinSteps, eventSteps, pinSteps_append, pinSteps_bytes]

/-- A whole unit on the I2C wire (30_encoding.md R134). -/
theorem i2cBytes_unit {c : Cfg} (h : c.transport.isSpi = false) (k : Kind) (payload : List Byte) (n : Nat) :
    i2cBytes c n (unitEvents c k payload) = i2cAddressByte c :: controlByte c k :: payload := by
  simp [unitEvents, openEvents, closeEvents, unitBytes, h, i2cBytes, i2cBytes_append, i2cBytes_bytes]

end Sys2Proof.Machine
end

