-- ==== Sys2Proof/Laws/Step.lean ====
section
/-! SUPPORT. What a step can do, from what an instruction can do. -/

namespace Sys2Proof.Machine

/-- Taking a word given as bytes writes the request latch at most. -/
theorem State.issueBytes_latch (surface : Surface) (bytes : List Byte) (s : State) :
    ∃ l : Option Request, s.issueBytes surface bytes = { s with latch := l } := by
  unfold State.issueBytes State.issue
  repeat' split
  all_goals exact ⟨_, rfl⟩

/-- A step runs an instruction, or only tells the host something and takes its action. -/
theorem step_cases {s t : State} (h : step s = .next t) :
    (∃ (i : Instr) (later : List HostAct) (l : Option Request), exec i { s with inbox := later, latch := l } = .next t) ∨
    (∃ (later : List HostAct) (rs : List Reply), t = { s with inbox := later, repliesRev := rs }) := by
  unfold step at h
  split at h
  · cases h; exact .inr ⟨_, _, rfl⟩
  · next r later hin =>
    by_cases hb : s.ctl = .busy
    · refine .inl ⟨decodeRequest r, later, s.latch, ?_⟩
      simpa [State.issue, State.took, hb] using h
    · refine .inl ⟨decodeRequest r, later, some r, ?_⟩
      simpa [State.issue, State.took, hb] using h
  · cases h; exact .inr ⟨_, _, rfl⟩
  · cases h
    unfold State.hostPoll
    split
    · exact .inr ⟨_, _, rfl⟩
    · exact .inr ⟨_, _, rfl⟩
  · next surface bytes later hin =>
    split at h
    · obtain ⟨l, hl⟩ := State.issueBytes_latch surface bytes (s.took later)
      rw [hl] at h
      exact .inl ⟨_, _, _, h⟩
    · cases h

theorem usesWire_needsInit {i : Instr} (h : usesWire i = true) (hi : i ≠ .init) : acceptedUninitialized i = false := by
  cases i <;> first | rfl | exact absurd rfl hi | exact absurd h Bool.false_ne_true

end Sys2Proof.Machine
end

