-- ==== Sys2Proof/Laws/Transport.lean ====
section
/-! SUPPORT. Hardware and software transport: each operation of the wire does the same under the one as under the other
(20_memory.md R95), with nothing arriving in the gaps. -/

namespace Sys2Proof.Machine

/-- The state with another configuration. -/
def State.withCfg (c : Cfg) (s : State) : State := { s with cfg := c }

/-- Two configurations that differ in hardware or software transport only. -/
structure Twin (c d : Cfg) : Prop where
  spi : c.transport.isSpi = d.transport.isSpi
  raw : c.toRawCfg = { d.toRawCfg with transport := c.transport }

theorem Twin.form {c d : Cfg} (h : Twin c d) : ∃ tr h', c = ⟨{ d.toRawCfg with transport := tr }, h'⟩ := by
  obtain ⟨r, hr⟩ := c
  have := h.raw
  simp only at this
  exact ⟨r.transport, this ▸ hr, by congr⟩

theorem Twin.variant {c d : Cfg} (h : Twin c d) : c.variant = d.variant := by
  obtain ⟨_, _, rfl⟩ := h.form
  rfl

theorem Twin.height {c d : Cfg} (h : Twin c d) : c.height = d.height := by
  obtain ⟨_, _, rfl⟩ := h.form
  rfl

theorem emit_withCfg {c : Cfg} {s : State} (h : s.arrivals = []) (e : Event) : (s.withCfg c).emit e = (s.emit e).withCfg c ∧ (s.emit e).arrivals = [] ∧ (s.emit e).cfg = s.cfg := by
  have h' : (s.withCfg c).arrivals = [] := h
  refine ⟨?_, ?_, by simp⟩
  · simp only [State.emit, State.gap_of_no_arrivals h, State.gap_of_no_arrivals h']
    cases e <;> rfl
  · simp only [State.emit, State.gap_of_no_arrivals h]
    cases e <;> exact h

/-- An operation of the wire does the same under the other configuration. -/
def Agrees (c : Cfg) (f : State → State × Answer) (s : State) : Prop :=
  f (s.withCfg c) = ((f s).1.withCfg c, (f s).2) ∧ (f s).1.arrivals = [] ∧ (f s).1.cfg = s.cfg

theorem sendBytes_withCfg {c : Cfg} (bs : List Byte) {s : State} (h : s.arrivals = []) : Agrees c (sendBytes bs) s := by
  induction bs generalizing s with
  | nil => exact ⟨rfl, h, rfl⟩
  | cons b bs ih =>
    unfold Agrees
    have ha : ({ (s.withCfg c) with unitLeft := b :: bs } : State).answerAt 0 = ({ s with unitLeft := b :: bs } : State).answerAt 0 := rfl
    cases hc : ({ s with unitLeft := b :: bs } : State).answerAt 0 with
    | ok =>
      obtain ⟨e1, e2, e3⟩ := emit_withCfg (c := c) (s := ({ s with unitLeft := b :: bs } : State).takeAnswer) h (.byte b)
      rw [sendBytes, sendBytes, byteWrite_ok hc, byteWrite_ok (ha.trans hc)]
      obtain ⟨i1, i2, i3⟩ := ih e2
      refine ⟨?_, i2, i3.trans e3⟩
      rw [← e1] at i1
      exact i1
    | fail =>
      obtain ⟨e1, e2, e3⟩ := emit_withCfg (c := c) (s := ({ s with unitLeft := b :: bs } : State).takeAnswer) h (.fail b)
      rw [sendBytes, sendBytes, byteWrite_fail hc, byteWrite_fail (ha.trans hc)]
      refine ⟨?_, e2, e3⟩
      exact congrArg (fun x => (x, Answer.fail)) e1

theorem openUnit_withCfg {c : Cfg} {s : State} (k : Kind) (h : s.arrivals = []) (hs : c.transport.isSpi = s.cfg.transport.isSpi) :
   openUnit k (s.withCfg c) = (openUnit k s).withCfg c ∧ (openUnit k s).arrivals = [] ∧ (openUnit k s).cfg = s.cfg := by
  unfold openUnit
  rw [show (s.withCfg c).cfg = c from rfl, hs]
  split
  · obtain ⟨e1, e2, e3⟩ := emit_withCfg (c := c) h (.dc k)
    obtain ⟨f1, f2, f3⟩ := emit_withCfg (c := c) e2 .csAssert
    exact ⟨by rw [e1, f1], f2, f3.trans e3⟩
  · exact emit_withCfg h _

theorem closeUnit_withCfg {c : Cfg} {s : State} (h : s.arrivals = []) (hs : c.transport.isSpi = s.cfg.transport.isSpi) :
   closeUnit (s.withCfg c) = (closeUnit s).withCfg c ∧ (closeUnit s).arrivals = [] ∧ (closeUnit s).cfg = s.cfg := by
  unfold closeUnit
  rw [show (s.withCfg c).cfg = c from rfl, hs]
  split <;> exact emit_withCfg h _

theorem unitBytes_twin {c d : Cfg} (h : Twin c d) (k : Kind) (p : List Byte) : unitBytes c k p = unitBytes d k p := by
  unfold unitBytes controlByte
  rw [h.spi]
  have h1 : c.ctrlCmd = d.ctrlCmd := by obtain ⟨_, _, rfl⟩ := h.form; rfl
  have h2 : c.ctrlData = d.ctrlData := by obtain ⟨_, _, rfl⟩ := h.form; rfl
  rw [h1, h2]

theorem sendUnit_withCfg {c : Cfg} {s : State} (k : Kind) (p : List Byte) (h : s.arrivals = []) (ht : Twin c s.cfg) : Agrees c (sendUnit k p) s := by
  unfold Agrees sendUnit
  obtain ⟨o1, o2, o3⟩ := openUnit_withCfg (c := c) k h ht.spi
  rw [o1, show (s.withCfg c).cfg = c from rfl, unitBytes_twin ht]
  obtain ⟨b1, b2, b3⟩ := sendBytes_withCfg (c := c) (unitBytes s.cfg k p) o2
  rw [b1]
  obtain ⟨c1, c2, c3⟩ := closeUnit_withCfg (c := c) b2 (by rw [b3, o3]; exact ht.spi)
  exact ⟨congrArg (fun x => (x, _)) c1, c2, c3.trans (b3.trans o3)⟩

theorem doAct_withCfg {c : Cfg} {s : State} (a : Act) (h : s.arrivals = []) (ht : Twin c s.cfg) : Agrees c (doAct a) s := by
  cases a with
  | pinRst l =>
    obtain ⟨e1, e2, e3⟩ := emit_withCfg (c := c) h (.rst l)
    exact ⟨congrArg (fun x => (x, _)) e1, e2, e3⟩
  | wait n =>
    unfold Agrees
    simp only [doAct, waitFor]
    split
    · exact ⟨rfl, h, rfl⟩
    · obtain ⟨e1, e2, e3⟩ := emit_withCfg (c := c) h (.delay n)
      exact ⟨congrArg (fun x => (x, _)) e1, e2, e3⟩
  | cmdUnit b => exact sendUnit_withCfg _ _ h ht
  | dataUnit bs => exact sendUnit_withCfg _ _ h ht
  | seqStart => exact ⟨rfl, h, rfl⟩
  | seqNext => exact ⟨rfl, h, rfl⟩

theorem perform_withCfg {c : Cfg} {s : State} (as : List Act) (h : s.arrivals = []) (ht : Twin c s.cfg) : Agrees c (perform as) s := by
  induction as generalizing s with
  | nil => exact ⟨rfl, h, rfl⟩
  | cons a as ih =>
    unfold Agrees
    obtain ⟨a1, a2, a3⟩ := doAct_withCfg (c := c) (s := { s with script := a :: as }) a h ht
    rw [perform, perform]
    rw [show ({ (s.withCfg c) with script := a :: as } : State) = ({ s with script := a :: as } : State).withCfg c from rfl, a1]
    generalize doAct a { s with script := a :: as } = q at *
    obtain ⟨q, b⟩ := q
    cases b with
    | ok =>
      obtain ⟨i1, i2, i3⟩ := ih (s := q) a2 (by rw [show q.cfg = _ from a3]; exact ht)
      exact ⟨i1, i2, i3.trans a3⟩
    | fail => exact ⟨rfl, a2, a3⟩

theorem release_withCfg {c : Cfg} {s : State} (n : ControllerState) (k : Code) (h : s.arrivals = []) : (s.withCfg c).release n k = (s.release n k).withCfg c := by
  have h' : (s.withCfg c).arrivals = [] := h
  simp only [State.release, State.gap_of_no_arrivals h, State.gap_of_no_arrivals h']
  rfl

theorem abort_withCfg {c : Cfg} {s : State} (hd : Handler) (h : s.arrivals = []) : abort hd (s.withCfg c) = (abort hd s).withCfg c := by
  cases hd
  · exact release_withCfg (s := { s with failStep := s.seqIdx, initFailed := true }) _ _ h
  · exact release_withCfg (s := s.disarm) _ _ h
  · exact release_withCfg _ _ h

theorem tryScript_withCfg {c : Cfg} {s : State} (as : List Act) (hd : Handler) {done : State → State} (hdone : ∀ q : State, q.arrivals = [] → q.cfg = s.cfg → done (q.withCfg c) = (done q).withCfg c)
   (h : s.arrivals = []) (ht : Twin c s.cfg) : tryScript as hd done (s.withCfg c) = (tryScript as hd done s).withCfg c := by
  obtain ⟨p1, p2, p3⟩ := perform_withCfg as h ht
  unfold tryScript
  rw [p1]
  generalize perform as s = q at *
  obtain ⟨q, b⟩ := q
  cases b with
  | ok => exact hdone q p2 p3
  | fail => exact abort_withCfg hd p2

theorem performAlone_withCfg {c : Cfg} {s : State} (as : List Act) (h : s.arrivals = []) (ht : Twin c s.cfg) :
    performAlone as (s.withCfg c) = (performAlone as s).withCfg c := by
  obtain ⟨p1, -, -⟩ := perform_withCfg as h ht
  unfold performAlone
  rw [p1]
  generalize perform as s = q
  obtain ⟨q, b⟩ := q
  cases b <;> rfl

/-- What stands on the pins and on the I2C wire does not depend on hardware or software transport (20_memory.md R95). -/
theorem pinTrace_withCfg {c : Cfg} {s : State} (ht : Twin c s.cfg) : (s.withCfg c).pinTrace = s.pinTrace := by
  simp only [State.pinTrace, State.withCfg, ht.spi, State.trace]

theorem i2cBytes_twin {c d : Cfg} (h : Twin c d) (n : Nat) (es : List Event) : i2cBytes c n es = i2cBytes d n es := by
  have ha : i2cAddressByte c = i2cAddressByte d := by
    obtain ⟨_, _, rfl⟩ := h.form
    rfl
  induction es generalizing n with
  | nil => rfl
  | cons e es ih => cases e <;> simp only [i2cBytes, ih, ha]

theorem i2cTrace_withCfg {c : Cfg} {s : State} (ht : Twin c s.cfg) : (s.withCfg c).i2cTrace = s.i2cTrace := by
  simp only [State.i2cTrace, State.withCfg, ht.spi, State.trace, i2cBytes_twin ht]

theorem scriptOf_withCfg {c d : Cfg} (h : Twin c d) (i : Instr) (s : State) (hd : s.cfg = d) : scriptOf i (s.withCfg c) = scriptOf i s := by
  subst hd
  obtain ⟨_, _, rfl⟩ := h.form
  cases i <;> rfl

theorem acceptance_withCfg {c : Cfg} (i : Instr) (s : State) (h : Twin c s.cfg) : acceptance i (s.withCfg c) = acceptance i s := by
  obtain ⟨_, _, rfl⟩ := h.form
  cases i <;> rfl

end Sys2Proof.Machine
end

