-- ==== Sys2Proof/Tests/Slice0.lean ====
section
/-! SUPPORT. Tests: ill-formed terms that the checks refuse, words written out from the spec's encodings, single steps from
the spec's vectors (95_test_vectors.md), and a witness for the hypotheses of every obligation that has some. -/

namespace Sys2Proof.Tests.Slice0

open Sys2Proof Sys2Proof.Machine

/-! ### Small states -/

/-- An initialised block whose next bus answers are `as`. -/
def ready (c : Cfg) (as : List Answer) : State :=
  { State.blockReset c Unspecified.zero with
      ctl := .ready
      answers := as }

/-- A block after reset whose next bus answers are `as`. -/
def fresh (c : Cfg) (as : List Answer) : State := { State.blockReset c Unspecified.zero with answers := as }

def oks (n : Nat) : List Answer := List.replicate n .ok

/-- "fail@k+1" of the vectors. -/
def failAt (k : Nat) : List Answer := List.replicate k .ok ++ [.fail]

/-- The state after an instruction, the state before it where it stops. -/
def run (i : Instr) (s : State) : State :=
  match exec i s with
  | .next t => t
  | .fault _ => s
  | .refused _ => s

/-- CFG-C with the table of V12. -/
def cfgV12 : Cfg := ⟨{ RawCfg.referenceColor with initTable := [⟨0x01, [], 150, 0⟩, ⟨0x3A, [0x55], 10, 0⟩] }, by decide⟩

/-- A panel of one page of two columns, on I2C, with the preamble of CFG-M. -/
def cfgSmall : Cfg :=
  ⟨{ RawCfg.referenceMono with width := 2, height := 8, monoPagePreamble := [[0xB0, 0x00, 0x10]] }, by decide⟩

/-- The window (10, 20, 12, 21) of V32 after two words: cursor (12, 20), 4 cells left. -/
def midWindow (as : List Answer) : State :=
  { ready Cfg.referenceColor as with
      armed := true
      wx0 := 10
      wy0 := 20
      wx1 := 12
      wy1 := 21
      curX := 12
      curY := 20
      remaining := 4 }

/-- The same window before its last word. -/
def lastWord (as : List Answer) : State :=
  { midWindow as with
      curX := 12
      curY := 21
      remaining := 1 }

/-! ### The checks refuse (RawCfg.check, 00_scope.md R12 to R16; WellFormed) -/

theorem test_check_reference : RawCfg.referenceColor.check = true ∧ RawCfg.referenceMono.check = true := by decide
theorem test_check_width : ({ RawCfg.referenceColor with width := 0 } : RawCfg).check = false := by decide
theorem test_check_height : ({ RawCfg.referenceColor with height := 0 } : RawCfg).check = false := by decide
theorem test_check_color_depth : ({ RawCfg.referenceColor with colorDepth := 1 } : RawCfg).check = false := by decide
theorem test_check_color_i2c : ({ RawCfg.referenceColor with transport := .i2cHw } : RawCfg).check = false := by decide
theorem test_check_mono_depth : ({ RawCfg.referenceMono with colorDepth := 16 } : RawCfg).check = false := by decide
theorem test_check_mono_height : ({ RawCfg.referenceMono with height := 63 } : RawCfg).check = false := by decide
theorem test_check_preambles : ({ RawCfg.referenceMono with monoPagePreamble := [] } : RawCfg).check = false := by decide
theorem test_check_params :
    ({ RawCfg.referenceColor with initTable := [⟨0, List.replicate 256 0, 0, 0⟩] } : RawCfg).check = false := by decide +kernel
theorem test_check_table_length (e : CommandEntry) :
    ({ RawCfg.referenceColor with initTable := List.replicate 65536 e } : RawCfg).check = false := by
  refine Bool.eq_false_iff.2 fun h => ?_
  simp only [RawCfg.check, Bool.and_eq_true, decide_eq_true_eq, List.length_replicate] at h
  omega
theorem test_check_control : ({ RawCfg.referenceMono with ctrlData := 0x00 } : RawCfg).check = false := by decide
theorem test_check_rst_low : ({ RawCfg.referenceColor with tRstLowUs := 9999 } : RawCfg).check = false := by decide
theorem test_check_rst_high : ({ RawCfg.referenceColor with tRstHighUs := 9999 } : RawCfg).check = false := by decide

theorem test_wf_reserved : Instr.wellFormed Cfg.referenceColor (.reserved 0x21) = false := by decide
theorem test_wf_page : Instr.wellFormed Cfg.referenceMono (.pagePreamble 8) = false ∧
    Instr.wellFormed Cfg.referenceColor (.pagePreamble 0) = false := by decide
theorem test_wf_entry :
    Instr.wellFormed Cfg.referenceColor (.tableEntry ⟨0, List.replicate 256 0, 0, 0⟩) = false := by decide +kernel
theorem test_wf_image_entry :
    Instr.wellFormed Cfg.referenceColor (.tableImage [⟨0, List.replicate 256 0, 0, 0⟩]) = false := by decide +kernel
theorem test_wf_image_length (e : CommandEntry) :
    Instr.wellFormed Cfg.referenceColor (.tableImage (List.replicate 65536 e)) = false := by
  refine Bool.eq_false_iff.2 fun h => ?_
  simp only [Instr.wellFormed, Bool.and_eq_true, decide_eq_true_eq, List.length_replicate] at h
  omega

/-! ### Words written out from the encodings (30_encoding.md R120, R122, R123, R127, R128, R131, R132, R135) -/

theorem test_decode_init : decode Cfg.referenceColor .request [0x01, 0xFF, 0xFF, 0, 0, 0, 0, 0, 0, 0, 0] = .ok (.init) := by decide
theorem test_decode_setWindow : decode Cfg.referenceColor .request [0x02, 0x01, 0x00, 0x00, 0x02, 0x01, 0x3F, 0x00, 0xEF, 0xFF, 0xFF] = .ok (.setWindow 256 2 319 239) := by decide
theorem test_decode_writeWord : decode Cfg.referenceColor .request [0x03, 0x12, 0x34, 0xFF, 0xFF, 0, 0, 0, 0, 0, 0] = .ok (.writeWord 0x1234) := by decide
theorem test_decode_putPixel : decode Cfg.referenceColor .request [0x04, 0x00, 0xEF, 0x00, 0x86, 0x12, 0x34, 0, 0, 0, 0] = .ok (.putPixel 239 134 0x1234) := by decide
theorem test_decode_fillRect : decode Cfg.referenceColor .request [0x05, 0x00, 0x01, 0x00, 0x02, 0x00, 0x03, 0x00, 0x04, 0xF8, 0x00] = .ok (.fillRect 1 2 3 4 0xF800) := by decide
theorem test_decode_monoSetPixel : decode Cfg.referenceMono .request [0x10, 0x00, 0x03, 0x00, 0x09, 0x00, 0x03, 0, 0, 0, 0] = .ok (.monoSetPixel 3 9 1) := by decide
theorem test_decode_monoGetPixel : decode Cfg.referenceMono .request [0x11, 0x00, 0x00, 0x00, 0x07, 0, 0, 0, 0, 0, 0] = .ok (.monoGetPixel 0 7) := by decide
theorem test_decode_monoClear : decode Cfg.referenceMono .request [0x12, 0, 0, 0, 0, 0, 0, 0, 0, 0, 0] = .ok (.monoClear) := by decide
theorem test_decode_monoFlush : decode Cfg.referenceMono .request [0x13, 0, 0, 0, 0, 0, 0, 0, 0, 0, 0] = .ok (.monoFlush) := by decide
theorem test_decode_lockBuffer : decode Cfg.referenceMono .request [0x20, 0, 0, 0, 0, 0, 0, 0, 0, 0, 0] = .ok (.lockBuffer) := by decide
theorem test_decode_unlockBuffer : decode Cfg.referenceMono .request [0x21, 0, 0, 0, 0, 0, 0, 0, 0, 0, 0] = .ok (.unlockBuffer) := by decide
theorem test_decode_reserved : decode Cfg.referenceColor .request [0x22, 0, 0, 0, 0, 0, 0, 0, 0, 0, 0] = .ok (.reserved 0x22) := by decide
theorem test_decode_caset : decode Cfg.referenceColor .wire [0x2A, 0x01, 0x00, 0x01, 0x3F] = .ok (.caset 256 319) := by decide
theorem test_decode_raset : decode Cfg.referenceColor .wire [0x2B, 0x00, 0x14, 0x00, 0x15] = .ok (.raset 20 21) := by decide
theorem test_decode_ramwr : decode Cfg.referenceColor .wire [0x2C] = .ok (.ramwr) := by decide
theorem test_decode_dispon : decode Cfg.referenceMono .wire [0xAF] = .ok (.dispon) := by decide
theorem test_decode_pagePreamble : decode Cfg.referenceMono .wire [0xB7, 0x00, 0x10] = .ok (.pagePreamble 7) := by decide
theorem test_decode_tableEntry : decode Cfg.referenceColor .romEntry [0xC5, 0x02, 0x12, 0x34, 0x00, 0x0A, 0x05, 0xDC] = .ok (.tableEntry ⟨0xC5, [0x12, 0x34], 10, 1500⟩) := by decide
theorem test_decode_tableImage : decode Cfg.referenceColor .romImage [0x00, 0x02, 0x01, 0x00, 0x00, 0x96, 0x00, 0x00, 0x3A, 0x01, 0x55, 0x00, 0x0A, 0x00, 0x00] = .ok (.tableImage [⟨0x01, [], 150, 0⟩, ⟨0x3A, [0x55], 10, 0⟩]) := by decide

theorem test_decode_short_request : decode Cfg.referenceColor .request [0x01] = .error .notElevenBytes := by decide
theorem test_decode_unknown_command : decode Cfg.referenceColor .wire [0x2D] = .error .noSuchCommand := by decide
theorem test_decode_caset_short : decode Cfg.referenceColor .wire [0x2A, 0, 0, 0] = .error .wrongParameterCount := by decide
theorem test_decode_image_cut : decode Cfg.referenceColor .romImage [0x00, 0x01, 0x3A, 0x01, 0x55, 0, 0, 0] =
    .error .recordTruncated := by decide
theorem test_decode_image_over : decode Cfg.referenceColor .romImage [0x00, 0x00, 0x01] = .error .trailingBytes := by decide
theorem test_table_word_put_pixel : decodeTableWord 88 0x0000000034128600EF0004 = some (.putPixel 239 134 0x1234) := by decide
theorem test_table_word_caset : decodeTableWord 8 0x2A = some (.caset 0 0) := by decide
theorem test_table_word_wire : decodeTableWord 40 0xEF0000002B = some (.raset 0 239) ∧ decodeTableWord 8 0x2B = some (.raset 0 0) ∧
    decodeTableWord 8 0x2C = some .ramwr ∧ decodeTableWord 8 0x29 = some .dispon := by decide
theorem test_fetch_unlock : step (State.reset.withFetchWord 8 0x21) =
    .next { State.reset with
      latch := some ⟨0x21, 0, 0, 0, 0, 0⟩
      lastResult := .illegalRequest
      repliesRev := [.response .illegalRequest 0] } := rfl

/-- 30_encoding.md R120: the 11 bytes of LOCK_BUFFER run as its record does, the latch written (log 8). -/
theorem test_request_bytes : step { ready Cfg.referenceMono [] with inbox := [.sequence .request [0x20, 0, 0, 0, 0, 0, 0, 0, 0, 0, 0]] } =
    .next { ready Cfg.referenceMono [] with
      latch := some ⟨0x20, 0, 0, 0, 0, 0⟩
      lock := true
      repliesRev := [.response .ok 0] } := rfl

/-! ### Single steps (95_test_vectors.md; the vector is named) -/

/-- V12: the failing byte is the parameter 0x55. -/
theorem test_init_fails : (run .init (fresh cfgV12 (failAt 2))).trace =
    [.rst false, .delay 10000, .rst true, .delay 10000, .dc .cmd, .csAssert, .byte 0x01, .csDeassert, .delay 150000,
     .dc .cmd, .csAssert, .byte 0x3A, .csDeassert, .dc .data, .csAssert, .fail 0x55, .csDeassert] ∧
    (run .init (fresh cfgV12 (failAt 2))).failStep = 1 ∧ (run .init (fresh cfgV12 (failAt 2))).status = 0xA0 := by decide +kernel
/-- V3 and V19: the buffer is zeroed on success, the lock stays set. -/
theorem test_init_mono : (run .init { ready Cfg.referenceMono (oks 2) with lock := true, buf := [(5, 0xFF)] }).trace =
    [.i2cStart, .byte 0x00, .byte 0xAF, .i2cStop] ∧
    (run .init { ready Cfg.referenceMono (oks 2) with lock := true, buf := [(5, 0xFF)] }).buf = [] ∧
    (run .init { ready Cfg.referenceMono (oks 2) with lock := true, buf := [(5, 0xFF)] }).status = 0x05 := by decide +kernel
/-- V18: a request inside a running INIT gets BusyError and changes nothing. -/
theorem test_init_busy_rejection :
    (run .init { fresh cfgV12 (oks 4) with arrivals := [[], [], [], [], [], [], [], [], [.request ⟨4, 0, 0, 0, 0, 0⟩]] }).replies =
      [.response .busyError 0, .response .ok 0] := by decide +kernel

/-- 43_control.md R451, R454 and 10_state.md R53 b: in the first gap of a SET_WINDOW over an armed window a read finds it disarmed
and the block busy, in the last gap the new window's cells; the list after it is left for the next request. -/
theorem test_gap_reads :
    (run (.setWindow 5 5 6 5) { midWindow (oks 11) with
      arrivals := [.read 2, .read 0] :: List.replicate 25 [] ++ [[.request ⟨1, 0, 0, 0, 0, 0⟩, .read 2], [.read 6]] }).replies =
      [.value 0, .value 2, .response .busyError 0, .value 2, .response .ok 0] ∧
    (run (.setWindow 5 5 6 5) { midWindow (oks 11) with
      arrivals := [.read 2, .read 0] :: List.replicate 25 [] ++ [[.request ⟨1, 0, 0, 0, 0, 0⟩, .read 2], [.read 6]] }).arrivals =
      [[.read 6]] := by decide +kernel

/-- 20_memory.md R94: the byte 0x2C as a command unit, most significant bit first. -/
theorem test_pins_unit : (run .ramwr (fresh Cfg.referenceColor (oks 1))).pinTrace = some ([.dc false, .cs true] ++
    [.mosi false, .sclk true, .sclk false, .mosi false, .sclk true, .sclk false, .mosi true, .sclk true, .sclk false,
     .mosi false, .sclk true, .sclk false, .mosi true, .sclk true, .sclk false, .mosi true, .sclk true, .sclk false,
     .mosi false, .sclk true, .sclk false, .mosi false, .sclk true, .sclk false] ++ [.cs false]) := by decide +kernel
/-- 30_encoding.md R134: address byte 0x3C * 2, control byte, payload. -/
theorem test_i2c_unit : (run .dispon (fresh Cfg.referenceMono (oks 2))).i2cTrace = some [0x78, 0x00, 0xAF] := by decide +kernel

/-- V30. -/
theorem test_set_window : (run (.setWindow 0 0 239 134) (ready Cfg.referenceColor (oks 11))).trace =
    [.dc .cmd, .csAssert, .byte 0x2A, .csDeassert, .dc .data, .csAssert, .byte 0, .byte 0, .byte 0, .byte 0xEF, .csDeassert,
     .dc .cmd, .csAssert, .byte 0x2B, .csDeassert, .dc .data, .csAssert, .byte 0, .byte 0, .byte 0, .byte 0x86, .csDeassert,
     .dc .cmd, .csAssert, .byte 0x2C, .csDeassert] ∧
    (run (.setWindow 0 0 239 134) (ready Cfg.referenceColor (oks 11))).remaining = 32400 := by decide +kernel
/-- V39: the RASET byte fails. -/
theorem test_set_window_fails : (run (.setWindow 0 0 9 9) (ready Cfg.referenceColor (failAt 5))).trace =
    [.dc .cmd, .csAssert, .byte 0x2A, .csDeassert, .dc .data, .csAssert, .byte 0, .byte 0, .byte 0, .byte 9, .csDeassert,
     .dc .cmd, .csAssert, .fail 0x2B, .csDeassert] ∧
    (run (.setWindow 0 0 9 9) (ready Cfg.referenceColor (failAt 5))).status = 0x11 ∧
    (run (.setWindow 0 0 9 9) (ready Cfg.referenceColor (failAt 5))).wx1 = 9 := by decide +kernel
/-- V32, the third word: the cursor moves to the next row. -/
theorem test_write_word : (run (.writeWord 0x1234) (midWindow (oks 2))).readReg 3 = 0x0015000A ∧
    (run (.writeWord 0x1234) (midWindow (oks 2))).remaining = 3 ∧
    (run (.writeWord 0x1234) (midWindow (oks 2))).trace =
      [.dc .data, .csAssert, .byte 0x12, .byte 0x34, .csDeassert] := by decide +kernel
/-- V41. -/
theorem test_write_word_fails : (run (.writeWord 0x1234) (midWindow (failAt 1))).trace =
    [.dc .data, .csAssert, .byte 0x12, .fail 0x34, .csDeassert] ∧
    (run (.writeWord 0x1234) (midWindow (failAt 1))).armed = false := by decide +kernel
/-- V34: the last cell; the window's end is one past the panel. -/
theorem test_put_pixel : (run (.putPixel 239 134 0x1234) (ready Cfg.referenceColor (oks 13))).trace =
    [.dc .cmd, .csAssert, .byte 0x2A, .csDeassert, .dc .data, .csAssert, .byte 0, .byte 0xEF, .byte 0, .byte 0xF0, .csDeassert,
     .dc .cmd, .csAssert, .byte 0x2B, .csDeassert, .dc .data, .csAssert, .byte 0, .byte 0x86, .byte 0, .byte 0x87, .csDeassert,
     .dc .cmd, .csAssert, .byte 0x2C, .csDeassert, .dc .data, .csAssert, .byte 0x12, .byte 0x34, .csDeassert] := by decide +kernel
/-- V35. -/
theorem test_put_pixel_range : exec (.putPixel 0 135 0) (ready Cfg.referenceColor []) =
    .next (refusedWith .rangeError (ready Cfg.referenceColor [])) := rfl
/-- V37. -/
theorem test_fill_rect : (run (.fillRect 0 0 1 0 0xF800) (ready Cfg.referenceColor (oks 15))).trace.drop 26 =
    [.dc .data, .csAssert, .byte 0xF8, .byte 0x00, .byte 0xF8, .byte 0x00, .csDeassert] := by decide +kernel
/-- V40: the second 0xF8 fails; the observer holds the first word. -/
theorem test_fill_rect_fails : (run (.fillRect 0 0 1 0 0xF800) (ready Cfg.referenceColor (failAt 13))).trace.drop 26 =
    [.dc .data, .csAssert, .byte 0xF8, .byte 0x00, .fail 0xF8, .csDeassert] ∧
    (observe Cfg.referenceColor (run (.fillRect 0 0 1 0 0xF800) (ready Cfg.referenceColor (failAt 13))).trace).pixel 0 0 =
      some 0xF800 := by decide +kernel
/-- V50. -/
theorem test_mono_set_pixel : (run (.monoSetPixel 127 63 1) (ready Cfg.referenceMono [])).buf = [(1023, 0x80)] ∧
    (run (.monoSetPixel 3 9 1) (ready Cfg.referenceMono [])).buf = [(131, 0x02)] := by decide +kernel
/-- V50, V51: clearing the last set bit of a byte. -/
theorem test_mono_clear_pixel :
    (run (.monoSetPixel 0 0 0) { ready Cfg.referenceMono [] with buf := [(0, 0x81)] }).buf = [(0, 0x80)] ∧
    (run (.monoSetPixel 3 9 0) { ready Cfg.referenceMono [] with buf := [(131, 0x02)] }).buf = [] := by decide +kernel
/-- V50: the response carries the bit. -/
theorem test_mono_get_pixel :
    (run (.monoGetPixel 0 7) { ready Cfg.referenceMono [] with buf := [(0, 0x81)] }).repliesRev = [.response .ok 1] ∧
    (run (.monoGetPixel 0 6) { ready Cfg.referenceMono [] with buf := [(0, 0x81)] }).rdata = 0 := by decide +kernel
/-- V52. -/
theorem test_mono_range : exec (.monoGetPixel 0 64) (ready Cfg.referenceMono []) =
    .next (refusedWith .rangeError (ready Cfg.referenceMono [])) := rfl
/-- V53. -/
theorem test_mono_clear : (run .monoClear { ready Cfg.referenceMono [] with buf := [(0, 0x81), (131, 2)] }).buf = [] := by
  decide +kernel
/-- V54 and V55 on a panel of one page: preamble, then the page's bytes. -/
theorem test_mono_flush : (run .monoFlush { ready cfgSmall (oks 9) with buf := [(1, 0x02)] }).trace =
    [.i2cStart, .byte 0x00, .byte 0xB0, .i2cStop, .i2cStart, .byte 0x00, .byte 0x00, .i2cStop,
     .i2cStart, .byte 0x00, .byte 0x10, .i2cStop, .i2cStart, .byte 0x40, .byte 0x00, .byte 0x02, .i2cStop] := by decide +kernel
/-- V56 (and V57's last event): the lock, and a failing control byte. -/
theorem test_mono_flush_fails : exec .monoFlush { ready cfgSmall [] with lock := true } =
      .next (refusedWith .busyError { ready cfgSmall [] with lock := true }) ∧
    (run .monoFlush (ready cfgSmall (failAt 2))).trace =
      [.i2cStart, .byte 0x00, .byte 0xB0, .i2cStop, .i2cStart, .fail 0x00, .i2cStop] := ⟨rfl, by decide +kernel⟩
/-- V56. -/
theorem test_lock : (run .lockBuffer (ready Cfg.referenceMono [])).status = 0x05 := by decide +kernel
theorem test_unlock : (run .unlockBuffer { ready Cfg.referenceMono [] with lock := true }).status = 0x01 := by decide +kernel
/-- V44 and 30_encoding.md R123. -/
theorem test_reserved : (run (.reserved 0x14) (ready Cfg.referenceColor [])).status = 0x61 ∧
    (run .lockBuffer (ready Cfg.referenceColor [])).repliesRev = [.response .illegalRequest 0] := by decide +kernel
/-- V1, the units of the table entry 0x2A. -/
theorem test_caset : (run (.caset 0 239) (fresh Cfg.referenceColor (oks 5))).trace =
    [.dc .cmd, .csAssert, .byte 0x2A, .csDeassert,
     .dc .data, .csAssert, .byte 0, .byte 0, .byte 0, .byte 0xEF, .csDeassert] := by decide +kernel
theorem test_raset : (run (.raset 20 21) (fresh Cfg.referenceColor (oks 5))).trace =
    [.dc .cmd, .csAssert, .byte 0x2B, .csDeassert,
     .dc .data, .csAssert, .byte 0, .byte 0x14, .byte 0, .byte 0x15, .csDeassert] := by decide +kernel
theorem test_ramwr : (run .ramwr (fresh Cfg.referenceColor (oks 1))).trace =
    [.dc .cmd, .csAssert, .byte 0x2C, .csDeassert] := by decide +kernel
theorem test_dispon : (run .dispon (fresh Cfg.referenceMono (oks 2))).trace =
    [.i2cStart, .byte 0x00, .byte 0xAF, .i2cStop] := by decide +kernel
theorem test_page : (run (.pagePreamble 0) { ready cfgSmall (oks 9) with buf := [(0, 0x81)] }).trace.drop 12 =
    [.i2cStart, .byte 0x40, .byte 0x81, .byte 0x00, .i2cStop] := by decide +kernel
/-- 20_memory.md R74, R76: there is no page 8. -/
theorem test_page_fault : exec (.pagePreamble 8) (ready Cfg.referenceMono []) = .fault .noSuchPage := rfl
/-- 93_implementation_defined.md U22: the buffer of an uninitialized block is not read. -/
theorem test_page_uninitialized : exec (.pagePreamble 0) (fresh Cfg.referenceMono []) = .fault .bufferUnreadable := rfl
/-- 10_state.md R33 and R42: `seq_idx` stays, a failed byte disarms. -/
theorem test_rom_registers : (run (.tableImage [⟨0x01, [], 0, 0⟩]) { midWindow (oks 1) with seqIdx := 7 }).seqIdx = 7 ∧
    (run .ramwr (midWindow (failAt 0))).armed = false ∧ (run .ramwr (midWindow (failAt 0))).remaining = 0 := by decide +kernel
/-- V1. -/
theorem test_table_entry : (run (.tableEntry ⟨0x2A, [0x00, 0x00, 0x00, 0xEF], 0, 0⟩) (fresh Cfg.referenceColor (oks 5))).trace =
    [.dc .cmd, .csAssert, .byte 0x2A, .csDeassert,
     .dc .data, .csAssert, .byte 0, .byte 0, .byte 0, .byte 0xEF, .csDeassert] := by decide +kernel
/-- V6: a delay in milliseconds and one in microseconds. -/
theorem test_table_image : (run (.tableImage [⟨0x01, [], 150, 0⟩, ⟨0xB0, [], 1, 1500⟩]) (fresh Cfg.referenceColor (oks 2))).trace =
    [.dc .cmd, .csAssert, .byte 0x01, .csDeassert, .delay 150000,
     .dc .cmd, .csAssert, .byte 0xB0, .csDeassert, .delay 2500] := by decide +kernel

/-- 30_encoding.md R142: the spec's example line, its record and the written form. -/
theorem test_assemble_line : assembleLine Cfg.referenceColor "SET_WINDOW 0, 0, 239, 134 ; whole panel".toList =
    .ok [.request ⟨0x02, 0, 0, 239, 134, 0⟩] ∧
    requestText ⟨0x02, 0, 0, 239, 134, 0⟩ = "02:0000,0000,00EF,0086,0000".toList := ⟨by rfl, by decide⟩
/-- 30_encoding.md R143: the spec's example, whose record is `3A 01 55 00 0A 00 00`. -/
theorem test_assemble_entry : assembleEntry "ENTRY 0x3A [0x55] 10 ms 0 us".toList = .ok ⟨0x3A, [0x55], 10, 0⟩ ∧
    bytesOfEntry ⟨0x3A, [0x55], 10, 0⟩ = [0x3A, 0x01, 0x55, 0x00, 0x0A, 0x00, 0x00] := ⟨by rfl, by decide⟩
/-- 30_encoding.md R142, R143: "comma-separated"; a comma at the end is no separator. -/
theorem test_assemble_trailing_comma : assembleLine Cfg.referenceColor "WRITE_WORD 5,".toList = .error .wrongOperands ∧
    assembleEntry "ENTRY 0x3A [0x55,] 10 ms 0 us".toList = .error .wrongOperands := ⟨by rfl, by rfl⟩
/-- 30_encoding.md R144. -/
theorem test_assemble_clear : assembleLine Cfg.referenceColor "CLEAR".toList =
    .ok [.request ⟨0x05, 0, 0, 239, 134, 0⟩] := by rfl

/-- 20_memory.md R108 (c), (d): a failed byte (the fill of V40) and a table command are recorded. -/
theorem test_color_left_open :
    (observe Cfg.referenceColor (run (.fillRect 0 0 1 0 0xF800) (ready Cfg.referenceColor (failAt 13))).trace).leftOpen =
      [.failedByte] ∧
    (observe Cfg.referenceColor (run .dispon (fresh Cfg.referenceColor (oks 1))).trace).leftOpen = [.tableCommand] := by
  decide +kernel
/-- 93_implementation_defined.md U23: a failed flush, in a control byte and in the page's data, is recorded. -/
theorem test_mono_left_open : (observeMono cfgSmall (run .monoFlush (ready cfgSmall (failAt 2))).trace).leftOpen = [.failedByte] ∧
    (observeMono cfgSmall (run .monoFlush (ready cfgSmall (failAt 8))).trace).leftOpen = [.failedByte] ∧
    (observeMono cfgSmall (run .monoFlush (ready cfgSmall (oks 9))).trace).leftOpen = [] := by decide +kernel

/-! ### Witnesses: each shows that the hypotheses of an obligation can be met, at the edges of its clauses -/

theorem ok_bus (c : Cfg) (n : Nat) : (ready c (oks n)).busOk n := State.busOk_of_answers rfl

theorem ok_bus_fresh (c : Cfg) (n : Nat) : (fresh c (oks n)).busOk n := State.busOk_of_answers rfl

theorem failing_bus (c : Cfg) (k : Nat) : (ready c (failAt k)).busFailsAt k := State.busFailsAt_of_answers rfl

theorem failing_bus_fresh (c : Cfg) (k : Nat) : (fresh c (failAt k)).busFailsAt k := State.busFailsAt_of_answers rfl

theorem wit_ImageConstruction :
    (([⟨0x3A, [0x55], 10, 0⟩] : List CommandEntry).length ≤ 65535 ∧
      ∀ e ∈ ([⟨0x3A, [0x55], 10, 0⟩] : List CommandEntry), e.params.length ≤ 255) ∧
    ∀ es : List CommandEntry, es.length ≤ 65535 → (∀ e ∈ es, e.params.length ≤ 255) → ([0x00] : List Byte) ≠ bytesOfImage es := by
  refine ⟨by decide, fun es _ _ h => ?_⟩
  simp [bytesOfImage] at h

theorem wit_RegisterPort : 7 ≤ (7 : Byte).toNat ∧ 7 ≤ (255 : Byte).toNat := by decide

theorem wit_ReadChangesNothing : ({ State.reset with inbox := [.read 0] } : State).inbox = .read 0 :: [] := rfl

theorem wit_OpcodeMap : ∀ op ∈ ([0x00, 0x06, 0x0F, 0x14, 0x1F, 0x22, 0xFF] : List Byte),
    op = 0x00 ∨ (0x06 ≤ op ∧ op ≤ 0x0F) ∨ (0x14 ≤ op ∧ op ≤ 0x1F) ∨ 0x22 ≤ op := by decide

theorem wit_RecordLayout : (⟨0, List.replicate 255 0, 0, 0⟩ : CommandEntry).params.length ≤ 255 := by decide +kernel

theorem wit_DecodeEncode : Cfg.referenceMono.wireWordsDistinct = true ∧ Cfg.referenceColor.wireWordsDistinct = true ∧
    Instr.wellFormed Cfg.referenceMono (.pagePreamble 7) = true ∧
    Instr.wellFormed Cfg.referenceColor (.tableEntry ⟨0x3A, [0x55], 10, 0⟩) = true := by decide +kernel

/-- One cell, and the whole panel. -/
theorem wit_CellCountExact : ((0 : Half) ≤ 0 ∧ (0 : Half) < Cfg.referenceColor.width ∧ (0 : Half) < Cfg.referenceColor.height) ∧
    (0 : Half) ≤ 239 ∧ (239 : Half) < Cfg.referenceColor.width ∧ (0 : Half) ≤ 134 ∧ (134 : Half) < Cfg.referenceColor.height := by
  decide

theorem wit_StepRunsRequest :
    ({ State.reset with inbox := [.request ⟨1, 0, 0, 0, 0, 0⟩] } : State).inbox = .request ⟨1, 0, 0, 0, 0, 0⟩ :: [] := rfl

theorem wit_StepRunsSequencerWord :
    decode State.reset.cfg .wire [0x2C] = .ok .ramwr ∧ decode State.reset.cfg .wire [0x2D] = .error .noSuchCommand ∧
    requestOfBytes [0x20, 0, 0, 0, 0, 0, 0, 0, 0, 0, 0] = .ok ⟨0x20, 0, 0, 0, 0, 0⟩ := by decide

theorem wit_FetchedWordRuns : State.reset.cfg.variant = .color ∧ decodeTableWord 8 0x2A = some (.caset 0 0) ∧
    (State.reset.cfg.cmdRaset = 0x2B ∧ State.reset.cfg.cmdRamwr = 0x2C ∧ State.reset.cfg.cmdDispon = 0x29) ∧
    decodeTableWord 8 0x2C = some .ramwr ∧ decodeTableWord 8 0x13 = some .monoFlush ∧ Instr.monoFlush.surface = .request := by
  decide

theorem wit_IdleAndPoll : State.reset.inbox = [] ∧ ({ State.reset with inbox := [.waitIdle] } : State).inbox = .waitIdle :: [] :=
  ⟨rfl, rfl⟩

theorem wit_BusyErrorRule : ({ ready Cfg.referenceColor [] with ctl := .busy } : State).ctl = .busy ∧
    ({ ready Cfg.referenceMono [] with lock := true } : State).ctl = .ready ∧
    ({ ready Cfg.referenceMono [] with lock := true } : State).cfg.variant = .mono ∧
    ({ ready Cfg.referenceMono [] with lock := true } : State).lock = true := by decide

/-- A reserved opcode, a Mono opcode on Color, a Color opcode on Mono. -/
theorem wit_IllegalRequestRule : (ready Cfg.referenceColor []).ctl ≠ .busy ∧
    illegalFor Cfg.referenceColor (decodeRequest ⟨0x00, 0, 0, 0, 0, 0⟩) ∧
    illegalFor Cfg.referenceColor (decodeRequest ⟨0x13, 0, 0, 0, 0, 0⟩) ∧
    illegalFor Cfg.referenceMono (decodeRequest ⟨0x02, 0, 0, 0, 0, 0⟩) :=
  ⟨by decide, .inl ⟨0, rfl⟩, .inr (.inr ⟨trivial, rfl⟩), .inr (.inl ⟨trivial, rfl⟩)⟩

theorem wit_ReservedOpcode : (∀ op ∈ ([0x00, 0x06, 0x0F, 0x14, 0x1F, 0x22, 0xFF] : List Byte),
    op = 0x00 ∨ (0x06 ≤ op ∧ op ≤ 0x0F) ∨ (0x14 ≤ op ∧ op ≤ 0x1F) ∨ 0x22 ≤ op) ∧ State.reset.ctl ≠ .busy := by decide

theorem wit_NotReadyRule : State.reset.ctl = .uninitialized ∧
    ¬ illegalFor State.reset.cfg (decodeRequest ⟨0x02, 0, 0, 999, 999, 0⟩) ∧ needsInit (decodeRequest ⟨0x02, 0, 0, 999, 999, 0⟩) ∧
    (ready Cfg.referenceColor []).ctl ≠ .busy ∧ (ready Cfg.referenceColor []).cfg.variant = .color ∧
    (ready Cfg.referenceColor []).armed = false := by
  refine ⟨rfl, ?_, trivial, by decide, rfl, rfl⟩
  rintro (⟨op, h⟩ | ⟨-, h⟩ | ⟨h, -⟩)
  · simp [decodeRequest] at h
  · exact absurd h (by decide)
  · exact h

theorem not_illegal_range (op : Byte) (h : op = 0x02 ∨ op = 0x04 ∨ op = 0x05) (a b c d e : Half) :
    ¬ illegalFor Cfg.referenceColor (decodeRequest ⟨op, a, b, c, d, e⟩) := by
  rcases h with rfl | rfl | rfl <;>
    (rintro (⟨op, h⟩ | ⟨-, h⟩ | ⟨h, -⟩)
     · simp [decodeRequest] at h
     · exact absurd h (by decide)
     · exact h)

/-- V4, V35: one past the panel on each side, and the ends in the wrong order. -/
theorem wit_RangeErrorRule : (ready Cfg.referenceColor []).ctl = .ready ∧
    (¬ illegalFor Cfg.referenceColor (decodeRequest ⟨0x02, 0, 0, 240, 0, 0⟩)) ∧
    outOfRange Cfg.referenceColor (decodeRequest ⟨0x02, 0, 0, 240, 0, 0⟩) ∧
    outOfRange Cfg.referenceColor (decodeRequest ⟨0x02, 0, 0, 0, 135, 0⟩) ∧
    outOfRange Cfg.referenceColor (decodeRequest ⟨0x02, 5, 0, 4, 0, 0⟩) ∧
    outOfRange Cfg.referenceColor (decodeRequest ⟨0x05, 0, 9, 0, 8, 0⟩) ∧
    outOfRange Cfg.referenceColor (decodeRequest ⟨0x04, 240, 0, 0, 0, 0⟩) ∧
    outOfRange Cfg.referenceMono (decodeRequest ⟨0x10, 128, 0, 1, 0, 0⟩) ∧
    outOfRange Cfg.referenceMono (decodeRequest ⟨0x11, 0, 64, 0, 0, 0⟩) := by
  refine ⟨rfl, not_illegal_range _ (by decide) _ _ _ _ _, ?_, ?_, ?_, ?_, ?_, ?_, ?_⟩
  · show (240 : Half) < 0 ∨ Cfg.referenceColor.width ≤ 240 ∨ (0 : Half) < 0 ∨ Cfg.referenceColor.height ≤ 0
    decide
  · show (0 : Half) < 0 ∨ Cfg.referenceColor.width ≤ 0 ∨ (135 : Half) < 0 ∨ Cfg.referenceColor.height ≤ 135
    decide
  · show (4 : Half) < 5 ∨ Cfg.referenceColor.width ≤ 4 ∨ (0 : Half) < 0 ∨ Cfg.referenceColor.height ≤ 0
    decide
  · show (0 : Half) < 0 ∨ Cfg.referenceColor.width ≤ 0 ∨ (8 : Half) < 9 ∨ Cfg.referenceColor.height ≤ 8
    decide
  · show Cfg.referenceColor.width ≤ 240 ∨ Cfg.referenceColor.height ≤ 0
    decide
  · show Cfg.referenceMono.width ≤ 128 ∨ Cfg.referenceMono.height ≤ 0
    decide
  · show Cfg.referenceMono.width ≤ 0 ∨ Cfg.referenceMono.height ≤ 64
    decide

/-- The clauses of the check order, each met: busy, illegal, not ready twice, out of range, locked, and past every check. -/
theorem wit_AcceptanceOrder : ({ State.reset with ctl := .busy } : State).ctl = .busy ∧
    illegalFor State.reset.cfg (decodeRequest ⟨0x13, 0, 0, 0, 0, 0⟩) ∧
    (State.reset.ctl = .uninitialized ∧ needsInit (decodeRequest ⟨0x02, 0, 0, 999, 999, 0⟩)) ∧
    ((ready Cfg.referenceColor []).armed = false ∧ ∃ color, decodeRequest ⟨0x03, 7, 0, 0, 0, 0⟩ = .writeWord color) ∧
    ((ready Cfg.referenceColor []).ctl ≠ .busy ∧ outOfRange Cfg.referenceColor (decodeRequest ⟨0x04, 240, 0, 0, 0, 0⟩)) ∧
    (({ ready Cfg.referenceMono [] with lock := true } : State).lock = true ∧
      decodeRequest ⟨0x13, 0, 0, 0, 0, 0⟩ = .monoFlush) ∧
    (¬ outOfRange Cfg.referenceColor (decodeRequest ⟨0x04, 239, 134, 0, 0, 0⟩) ∧
      ¬ illegalFor Cfg.referenceColor (decodeRequest ⟨0x04, 239, 134, 0, 0, 0⟩)) := by
  refine ⟨rfl, .inr (.inr ⟨trivial, rfl⟩), ⟨rfl, trivial⟩, ⟨rfl, 7, rfl⟩, ⟨by decide, wit_RangeErrorRule.2.2.2.2.2.2.1⟩,
    ⟨rfl, rfl⟩, ?_, not_illegal_range _ (by decide) _ _ _ _ _⟩
  show ¬ (Cfg.referenceColor.width ≤ 239 ∨ Cfg.referenceColor.height ≤ 134)
  decide

theorem wit_InitSucceeds : (fresh Cfg.referenceColor (oks 1)).ctl ≠ .busy ∧
    (fresh Cfg.referenceColor (oks 1)).busOk (initWrites (fresh Cfg.referenceColor (oks 1)).cfg) ∧
    (ready Cfg.referenceMono (oks 2)).busOk (initWrites (ready Cfg.referenceMono (oks 2)).cfg) :=
  ⟨by decide, ok_bus_fresh _ 1, ok_bus _ 2⟩

/-- V12, V13: a parameter byte, and the display-on byte. -/
theorem wit_InitFails : (fresh cfgV12 (failAt 2)).ctl ≠ .busy ∧ 2 < initWrites cfgV12 ∧ (fresh cfgV12 (failAt 2)).busFailsAt 2 ∧
    3 < initWrites cfgV12 ∧ (fresh cfgV12 (failAt 3)).busFailsAt 3 ∧ entryOfWrite cfgV12 3 cfgV12.initTable = 2 :=
  ⟨by decide, by decide +kernel, failing_bus_fresh _ 2, by decide +kernel, failing_bus_fresh _ 3, by decide +kernel⟩

/-- The whole panel, and one cell. -/
theorem wit_SetWindowArms : (ready Cfg.referenceColor (oks 11)).ctl = .ready ∧
    (ready Cfg.referenceColor (oks 11)).cfg.variant = .color ∧ (0 : Half) ≤ 239 ∧ (239 : Half) < Cfg.referenceColor.width ∧
    (0 : Half) ≤ 134 ∧ (134 : Half) < Cfg.referenceColor.height ∧
    unitsWrites Cfg.referenceColor (windowUnits Cfg.referenceColor 0 0 239 134) = 11 ∧
    (ready Cfg.referenceColor (oks 11)).busOk 11 :=
  ⟨rfl, rfl, by decide, by decide, by decide, by decide, by decide +kernel, ok_bus _ 11⟩

theorem wit_SetWindowSegment : (ready Cfg.referenceColor (oks 11)).ctl = .ready ∧
    (ready Cfg.referenceColor (oks 11)).cfg.variant = .color ∧ (239 : Half) ≤ 239 ∧ (239 : Half) < Cfg.referenceColor.width ∧
    (134 : Half) ≤ 134 ∧ (134 : Half) < Cfg.referenceColor.height ∧ (ready Cfg.referenceColor (oks 11)).busOk 11 :=
  ⟨rfl, rfl, by decide, by decide, by decide, by decide, ok_bus _ 11⟩

theorem midWindow_ok (as : List Answer) : (midWindow as).WindowOk where
  initialised := ControllerState.noConfusion
  columns := by
    show (10 : Half) ≤ 12 ∧ (12 : Half) ≤ 12 ∧ (12 : Half) < Cfg.referenceColor.width
    decide
  rows := by
    show (20 : Half) ≤ 20 ∧ (20 : Half) ≤ 21 ∧ (21 : Half) < Cfg.referenceColor.height
    decide
  cells := rfl

theorem lastWord_ok (as : List Answer) : (lastWord as).WindowOk where
  initialised := ControllerState.noConfusion
  columns := by
    show (10 : Half) ≤ 12 ∧ (12 : Half) ≤ 12 ∧ (12 : Half) < Cfg.referenceColor.width
    decide
  rows := by
    show (20 : Half) ≤ 21 ∧ (21 : Half) ≤ 21 ∧ (21 : Half) < Cfg.referenceColor.height
    decide
  cells := rfl

/-- At the end of a row, and before the window's last word. -/
theorem wit_WriteWordAdvances : (midWindow (oks 2)).ctl = .ready ∧ (midWindow (oks 2)).cfg.variant = .color ∧
    (midWindow (oks 2)).armed = true ∧ (midWindow (oks 2)).busOk 2 ∧ (midWindow (oks 2)).WindowOk ∧
    (lastWord (oks 2)).WindowOk ∧ (lastWord (oks 2)).remaining = 1 ∧ (lastWord (oks 2)).busOk 2 :=
  ⟨rfl, rfl, rfl, State.busOk_of_answers rfl, midWindow_ok _, lastWord_ok _, rfl, State.busOk_of_answers rfl⟩

/-- V34: the last cell. -/
theorem wit_PutPixelWrites : (ready Cfg.referenceColor (oks 13)).ctl = .ready ∧
    (ready Cfg.referenceColor (oks 13)).cfg.variant = .color ∧ (239 : Half) < Cfg.referenceColor.width ∧
    (134 : Half) < Cfg.referenceColor.height ∧
    unitsWrites Cfg.referenceColor (putPixelUnits Cfg.referenceColor 239 134 0x1234) = 13 ∧
    (ready Cfg.referenceColor (oks 13)).busOk 13 :=
  ⟨rfl, rfl, by decide, by decide, by decide +kernel, ok_bus _ 13⟩

/-- V36, and the whole panel (V38). -/
theorem wit_FillRectWrites : (ready Cfg.referenceColor (oks 13)).ctl = .ready ∧
    (ready Cfg.referenceColor (oks 13)).cfg.variant = .color ∧
    ((3 : Half) ≤ 3 ∧ (3 : Half) < Cfg.referenceColor.width ∧ (4 : Half) ≤ 4 ∧ (4 : Half) < Cfg.referenceColor.height) ∧
    (ready Cfg.referenceColor (oks 13)).busOk (11 + 2 * ((3 - 3 + 1) * (4 - 4 + 1))) ∧
    (ready Cfg.referenceColor (oks 64811)).busOk (11 + 2 * ((239 - 0 + 1) * (134 - 0 + 1))) :=
  ⟨rfl, rfl, by decide, ok_bus _ 13, ok_bus _ 64811⟩

/-- V39, V40, V41: in the window group, in the fill's data, in a streamed word. -/
theorem wit_WindowRequestFails : (ready Cfg.referenceColor (failAt 5)).ctl = .ready ∧
    (ready Cfg.referenceColor (failAt 5)).cfg.variant = .color ∧ (ready Cfg.referenceColor (failAt 5)).busFailsAt 5 ∧
    5 < unitsWrites Cfg.referenceColor (windowUnits Cfg.referenceColor 0 0 9 9) ∧
    (ready Cfg.referenceColor (failAt 13)).busFailsAt 13 ∧ 13 < 11 + 2 * ((1 - 0 + 1) * (0 - 0 + 1)) ∧
    (ready Cfg.referenceColor (failAt 12)).busFailsAt 12 ∧
    12 < unitsWrites Cfg.referenceColor (putPixelUnits Cfg.referenceColor 239 134 0) ∧
    (midWindow (failAt 1)).busFailsAt 1 ∧ (midWindow (failAt 1)).armed = true :=
  ⟨rfl, rfl, failing_bus _ 5, by decide +kernel, failing_bus _ 13, by decide, failing_bus _ 12, by decide +kernel,
    State.busFailsAt_of_answers rfl, rfl⟩

/-- V50: the last bit of the buffer. -/
theorem wit_MonoSetPixelWrites : (ready Cfg.referenceMono []).ctl = .ready ∧ (ready Cfg.referenceMono []).cfg.variant = .mono ∧
    (127 : Half) < Cfg.referenceMono.width ∧ (63 : Half) < Cfg.referenceMono.height ∧
    (ready Cfg.referenceMono []).buf.wf = true := by decide

theorem wit_MonoGetPixelReads : (ready Cfg.referenceMono []).ctl = .ready ∧ (ready Cfg.referenceMono []).cfg.variant = .mono ∧
    (127 : Half) < Cfg.referenceMono.width ∧ (63 : Half) < Cfg.referenceMono.height := by decide

theorem wit_MonoClearZeroes : ({ ready Cfg.referenceMono [] with lock := true } : State).ctl = .ready ∧
    ({ ready Cfg.referenceMono [] with lock := true } : State).cfg.variant = .mono := by decide

theorem wit_MonoFlushStreams : (ready cfgSmall (oks 9)).ctl = .ready ∧ (ready cfgSmall (oks 9)).cfg.variant = .mono ∧
    (ready cfgSmall (oks 9)).lock = false ∧ unitsWrites cfgSmall (flushUnits cfgSmall []) = 9 ∧ (ready cfgSmall (oks 9)).busOk 9 :=
  ⟨rfl, rfl, rfl, by decide +kernel, ok_bus _ 9⟩

/-- The first write, and the last. -/
theorem wit_MonoFlushFails : (ready cfgSmall (failAt 0)).ctl = .ready ∧ (ready cfgSmall (failAt 0)).cfg.variant = .mono ∧
    (ready cfgSmall (failAt 0)).lock = false ∧ 8 < unitsWrites cfgSmall (flushUnits cfgSmall []) ∧
    (ready cfgSmall (failAt 0)).busFailsAt 0 ∧ (ready cfgSmall (failAt 8)).busFailsAt 8 :=
  ⟨rfl, rfl, rfl, by decide +kernel, failing_bus _ 0, failing_bus _ 8⟩

theorem wit_LockAndUnlock : (fresh Cfg.referenceMono []).ctl ≠ .busy ∧ (fresh Cfg.referenceMono []).cfg.variant = .mono ∧
    ({ fresh Cfg.referenceMono [] with ctl := .busy } : State).ctl = .busy ∧ (ready Cfg.referenceColor []).ctl ≠ .busy ∧
    (ready Cfg.referenceColor []).cfg.variant = .color := by decide

theorem wit_PixelRoundTrip : ∃ t u : State, (ready Cfg.referenceMono []).buf.wf = true ∧
    (ready Cfg.referenceMono []).ctl = .ready ∧ (ready Cfg.referenceMono []).cfg.variant = .mono ∧
    (127 : Half) < Cfg.referenceMono.width ∧ (63 : Half) < Cfg.referenceMono.height ∧
    exec (.monoSetPixel 127 63 1) (ready Cfg.referenceMono []) = .next t ∧ exec (.monoGetPixel 127 63) t = .next u :=
  ⟨_, _, rfl, rfl, rfl, by decide, by decide, rfl, rfl⟩

/-- Two points of one byte. -/
theorem wit_PixelIndependence : ∃ t u w : State, (ready Cfg.referenceMono []).buf.wf = true ∧
    (ready Cfg.referenceMono []).ctl = .ready ∧ (ready Cfg.referenceMono []).cfg.variant = .mono ∧
    ((0 : Half) < Cfg.referenceMono.width ∧ (7 : Half) < Cfg.referenceMono.height ∧ (0 : Half) < Cfg.referenceMono.height) ∧
    ((0, 0) : Half × Half) ≠ (0, 7) ∧ exec (.monoSetPixel 0 7 1) (ready Cfg.referenceMono []) = .next t ∧
    exec (.monoGetPixel 0 0) t = .next u ∧ exec (.monoGetPixel 0 0) (ready Cfg.referenceMono []) = .next w :=
  ⟨_, _, _, rfl, rfl, rfl, by decide, by decide, rfl, rfl, rfl⟩

theorem wit_FlushIdempotent : (ready cfgSmall (oks 18)).ctl = .ready ∧ (ready cfgSmall (oks 18)).cfg.variant = .mono ∧
    (ready cfgSmall (oks 18)).lock = false ∧ 2 * unitsWrites cfgSmall (flushUnits cfgSmall []) = 18 ∧
    (ready cfgSmall (oks 18)).busOk 18 :=
  ⟨rfl, rfl, rfl, by decide +kernel, ok_bus _ 18⟩

/-- The last page; and for the fault, the first page that is not there, and a Color block. -/
theorem wit_WireWordsSend : (7 < Cfg.referenceMono.pageCount ∧ (ready Cfg.referenceMono (oks 1)).ctl ≠ .uninitialized) ∧
    (unitsWrites cfgSmall (pageUnits cfgSmall [] 0) = 9 ∧ (ready cfgSmall (oks 9)).busOk 9) ∧
    (Cfg.referenceMono.variant = .mono ∧ 7 < Cfg.referenceMono.height.toNat / 8 ∧
      (fresh Cfg.referenceMono []).ctl = .uninitialized) ∧ (fresh Cfg.referenceColor (oks 5)).busOk 5 ∧
    unitsWrites Cfg.referenceColor [(.cmd, [0x2A]), (.data, [0, 0, 0, 0xEF])] = 5 ∧
    (fresh Cfg.referenceColor (failAt 4)).busFailsAt 4 ∧ Cfg.referenceMono.height.toNat / 8 ≤ 8 ∧
    Cfg.referenceColor.variant = .color :=
  ⟨by decide, ⟨by decide +kernel, ok_bus _ 9⟩, by decide, ok_bus_fresh _ 5, by decide +kernel, failing_bus_fresh _ 4, by decide, rfl⟩

theorem wit_RomWordsReplay : entryWrites Cfg.referenceColor ⟨0x3A, [0x55], 10, 0⟩ = 2 ∧ (fresh Cfg.referenceColor (oks 2)).busOk 2 ∧
    (fresh Cfg.referenceColor (failAt 1)).busFailsAt 1 ∧
    (([⟨0x01, [], 150, 0⟩, ⟨0x3A, [0x55], 10, 0⟩] : List CommandEntry).map (entryWrites Cfg.referenceColor)).sum = 3 ∧
    (fresh Cfg.referenceColor (oks 3)).busOk 3 ∧ (fresh Cfg.referenceColor (failAt 2)).busFailsAt 2 :=
  ⟨by decide +kernel, ok_bus_fresh _ 2, failing_bus_fresh _ 1, by decide +kernel, ok_bus_fresh _ 3, failing_bus_fresh _ 2⟩

theorem wit_PinAndWait : State.reset.arrivals = [] ∧ (1 : Long) ≠ 0 := by decide

theorem wit_UnitFraming : (ready Cfg.referenceColor (oks 2)).cfg.transport.isSpi = true ∧
    (ready Cfg.referenceColor (oks 2)).busOk ([0x12, 0x34] : List Byte).length ∧
    (ready Cfg.referenceColor (failAt 1)).busFailsAt ([0x12] : List Byte).length ∧
    (ready Cfg.referenceMono (oks 3)).cfg.transport.isSpi = false ∧
    (ready Cfg.referenceMono (oks 3)).busOk (([0x12, 0x34] : List Byte).length + 1) ∧
    (ready Cfg.referenceMono (failAt 0)).busFailsAt 0 ∧
    (ready Cfg.referenceMono (failAt 2)).busFailsAt (([0x12] : List Byte).length + 1) ∧
    ([0x12, 0x34] : List Byte) = [0x12] ++ 0x34 :: [] :=
  ⟨rfl, ok_bus _ 2, failing_bus _ 1, rfl, ok_bus _ 3, failing_bus _ 0, failing_bus _ 2, rfl⟩

/-- On each bus a state with an empty trace, one event more, and a unit answered ok. -/
theorem wit_BitBangedByte : (ready Cfg.referenceColor (oks 2)).cfg.transport.isSpi = true ∧
    (ready Cfg.referenceColor (oks 2)).trace = [] ∧ (ready Cfg.referenceColor (oks 2)).busOk ([0x12, 0x34] : List Byte).length ∧
    ((ready Cfg.referenceColor (oks 2)).emit (.fail 0x12)).trace = (ready Cfg.referenceColor (oks 2)).trace ++ [.fail 0x12] ∧
    (ready Cfg.referenceMono (oks 3)).cfg.transport.isSpi = false ∧ (ready Cfg.referenceMono (oks 3)).trace = [] ∧
    (ready Cfg.referenceMono (oks 3)).busOk (([0x12, 0x34] : List Byte).length + 1) ∧
    ((ready Cfg.referenceMono (oks 3)).emit .i2cStart).trace = (ready Cfg.referenceMono (oks 3)).trace ++ [.i2cStart] :=
  ⟨rfl, rfl, ok_bus _ 2, rfl, rfl, rfl, ok_bus _ 3, rfl⟩

theorem wit_InvAtReset : Memory.wf (Unspecified.zero).buf = true ∧
    Memory.within (bufferSize Cfg.referenceMono) (Unspecified.zero).buf = true := by decide

/-- An armed window, and a step that writes a word of it. -/
theorem wit_StepKeepsInv : ∃ s t : State, s.Inv ∧ step s = .next t ∧ s.armed = true := by
  refine ⟨{ midWindow (oks 2) with inbox := [.request ⟨3, 0x1234, 0, 0, 0, 0⟩] }, _, ?_, rfl, rfl⟩
  exact
    { armed := fun _ => ⟨ControllerState.noConfusion, (midWindow_ok []).columns, (midWindow_ok []).rows, rfl⟩
      unarmed := Bool.noConfusion
      ready := fun _ => ⟨rfl, rfl⟩
      failedInit := Bool.noConfusion
      failStep := .inl rfl
      buffer := ⟨rfl, rfl⟩
      colorLock := fun _ => rfl
      monoWindow := fun h => absurd (show Variant.color = .mono from h) (by decide) }

theorem wit_ConfigurationFixed : ∃ t : State, step (State.reset.withFetchWord 8 0x02) = .next t := ⟨_, rfl⟩

/-- On SPI with chip-select released, and on an I2C block whose chip-select is asserted at reset (10_state.md R50). -/
theorem wit_StepKeepsFraming : (∃ t : State, (fresh Cfg.referenceColor (failAt 0)).wellFramed ∧
    (fresh Cfg.referenceColor (failAt 0)).pinCs = false ∧
    step ((fresh Cfg.referenceColor (failAt 0)).withFetchWord 8 0x01) = .next t) ∧
    ∃ t : State, ({ fresh Cfg.referenceMono (failAt 0) with pinCs := true } : State).wellFramed ∧
      step (({ fresh Cfg.referenceMono (failAt 0) with pinCs := true } : State).withFetchWord 8 0x01) = .next t :=
  ⟨⟨_, rfl, rfl, rfl⟩, _, rfl, rfl⟩

theorem wit_StepKeepsQuiet : ∃ t : State, State.reset.Quiet ∧ step State.reset = .next t := ⟨_, ⟨by decide, rfl, rfl⟩, rfl⟩

/-- An INIT that fails, from a block that was initialised (D14). -/
theorem wit_StateTransitions : ∃ t : State, exec .init (ready Cfg.referenceColor (failAt 0)) = .next t ∧ t.ctl = .uninitialized :=
  ⟨_, rfl, rfl⟩

theorem wit_WhoWritesWhat : ∃ t : State, exec .lockBuffer (fresh Cfg.referenceMono []) = .next t ∧ t.lock ≠ false :=
  ⟨_, rfl, by decide⟩

theorem wit_OneCompletion : State.reset.ctl ≠ .busy ∧ State.reset.arrivals = [] ∧
    ({ State.reset with ctl := .busy } : State).ctl = .busy := by decide

theorem wit_OneFailAtMost : ∃ t : State, exec .init (ready Cfg.referenceColor (failAt 0)) = .next t ∧
    Instr.init.surface = .request := ⟨_, rfl, rfl⟩

theorem wit_ArrivalsDoNotDisturb : ∃ t u : State,
    exec (decodeRequest ⟨1, 0, 0, 0, 0, 0⟩) { fresh Cfg.referenceColor (oks 1) with
      arrivals := [[.request ⟨4, 0, 0, 0, 0, 0⟩, .read 0]] } = .next t ∧
    exec (decodeRequest ⟨1, 0, 0, 0, 0, 0⟩) { { fresh Cfg.referenceColor (oks 1) with
      arrivals := [[.request ⟨4, 0, 0, 0, 0, 0⟩, .read 0]] } with arrivals := [] } = .next u ∧ t.trace ≠ [] :=
  ⟨_, _, rfl, rfl, List.cons_ne_nil _ _⟩

/-- Both premises on `q`, a request that emits nothing, and a word run by itself while something arrives. -/
theorem wit_ArrivalsDoNotDisturb_told : (decodeRequest ⟨3, 7, 0, 0, 0, 0⟩ = .monoFlush ∨
      ∃ color, decodeRequest ⟨3, 7, 0, 0, 0, 0⟩ = .writeWord color) ∧
    ¬ (decodeRequest ⟨1, 0, 0, 0, 0, 0⟩ = .monoFlush ∨ ∃ color, decodeRequest ⟨1, 0, 0, 0, 0, 0⟩ = .writeWord color) ∧
    (∃ t : State, exec (decodeRequest ⟨0, 0, 0, 0, 0, 0⟩) { fresh Cfg.referenceColor [] with arrivals := [[.read 0]] } = .next t) ∧
    Instr.ramwr.surface ≠ .request ∧
    ∃ t : State, exec .ramwr { fresh Cfg.referenceColor (oks 1) with arrivals := [[.request ⟨1, 0, 0, 0, 0, 0⟩, .read 0]] } = .next t := by
  refine ⟨.inr ⟨7, rfl⟩, ?_, ⟨_, rfl⟩, by decide, _, rfl⟩
  rintro (h | ⟨color, h⟩) <;> simp [decodeRequest] at h

/-- CFG-C on software SPI. -/
theorem wit_TransportsAgree : ∃ c : Cfg, c.transport.isSpi = Cfg.referenceColor.transport.isSpi ∧
    c.toRawCfg = { Cfg.referenceColor.toRawCfg with transport := c.transport } ∧ c.transport = .spiSw ∧ State.reset.arrivals = [] :=
  ⟨⟨{ RawCfg.referenceColor with transport := .spiSw }, by decide⟩, rfl, rfl, rfl, rfl⟩

theorem wit_PanelAfterPutPixel : [cmdCaset, Cfg.referenceColor.cmdRaset, Cfg.referenceColor.cmdRamwr].Nodup ∧
    (239 : Half) < Cfg.referenceColor.width ∧ (134 : Half) < Cfg.referenceColor.height ∧
    unitsWrites Cfg.referenceColor (putPixelUnits Cfg.referenceColor 239 134 0x1234) = 13 ∧
    (ready Cfg.referenceColor (oks 13)).busOk 13 ∧ (ready Cfg.referenceColor (oks 13)).ctl = .ready ∧
    (ready Cfg.referenceColor (oks 13)).cfg.variant = .color :=
  ⟨by decide, by decide, by decide, by decide +kernel, ok_bus _ 13, rfl, rfl⟩

theorem wit_PanelAfterFillRect : [cmdCaset, Cfg.referenceColor.cmdRaset, Cfg.referenceColor.cmdRamwr].Nodup ∧
    ((238 : Half) ≤ 239 ∧ (239 : Half) < Cfg.referenceColor.width ∧ (133 : Half) ≤ 134 ∧ (134 : Half) < Cfg.referenceColor.height) ∧
    (ready Cfg.referenceColor (oks 19)).busOk (11 + 2 * ((239 - 238 + 1) * (134 - 133 + 1))) ∧
    (ready Cfg.referenceColor (oks 19)).ctl = .ready ∧ (ready Cfg.referenceColor (oks 19)).cfg.variant = .color :=
  ⟨by decide, by decide, ok_bus _ 19, rfl, rfl⟩

/-- After SET_WINDOW 5, 5, 6, 5 of CFG-C (the example of 41_window_write.md R303) the observer follows the cursor. -/
theorem wit_PanelFollowsCursor : ∃ s : State, s.ctl = .ready ∧ s.cfg.variant = .color ∧
    [cmdCaset, s.cfg.cmdRaset, s.cfg.cmdRamwr].Nodup ∧ s.armed = true ∧ s.WindowOk ∧ s.Follows (observe s.cfg s.trace) ∧ s.busOk 2 := by
  refine ⟨{ run (.setWindow 5 5 6 5) (ready Cfg.referenceColor (oks 11)) with answers := oks 2 }, rfl, rfl, by decide +kernel, rfl,
    ⟨ControllerState.noConfusion, ?_, ?_, rfl⟩, ⟨rfl, rfl, rfl, rfl, rfl⟩, State.busOk_of_answers rfl⟩
  · show (5 : Half) ≤ 5 ∧ (5 : Half) ≤ 6 ∧ (6 : Half) < Cfg.referenceColor.width
    decide
  · show (5 : Half) ≤ 5 ∧ (5 : Half) ≤ 5 ∧ (5 : Half) < Cfg.referenceColor.height
    decide

/-- The preamble of CFG-M: its first byte names the page. -/
theorem wit_PanelAfterFlush : (ready cfgSmall (oks 9)).ctl = .ready ∧ (ready cfgSmall (oks 9)).cfg.variant = .mono ∧
    (ready cfgSmall (oks 9)).lock = false ∧ unitsWrites cfgSmall (flushUnits cfgSmall []) = 9 ∧ (ready cfgSmall (oks 9)).busOk 9 ∧
    ∀ p, p < cfgSmall.pageCount → ∀ cmds : List Byte, positionedAt cfgSmall (cmds ++ cfgSmall.preamble p) = some p := by
  refine ⟨rfl, rfl, rfl, by decide +kernel, ok_bus _ 9, fun p hp cmds => ?_⟩
  obtain rfl : p = 0 := by
    have : cfgSmall.pageCount = 1 := rfl
    omega
  have h : (cfgSmall.preamble 0).isSuffixOf (cmds ++ cfgSmall.preamble 0) = true :=
    List.isSuffixOf_iff_suffix.2 (List.suffix_append _ _)
  rw [positionedAt, show List.range cfgSmall.pageCount = [0] from rfl, List.find?_cons, h]

/-- The same for the eight preambles of CFG-M. -/
theorem wit_PanelAfterFlush_eight : ∀ p, p < Cfg.referenceMono.pageCount → ∀ cmds : List Byte,
    positionedAt Cfg.referenceMono (cmds ++ Cfg.referenceMono.preamble p) = some p := by
  have h : ∀ p, p < 8 → Cfg.referenceMono.preamble p = [BitVec.ofNat 8 (0xB0 + p), 0x00, 0x10] := by decide
  intro p hp cmds
  have hp : p < 8 := hp
  rw [positionedAt, show List.range Cfg.referenceMono.pageCount = [0, 1, 2, 3, 4, 5, 6, 7] from rfl]
  interval_cases p <;>
    simp [h, List.isSuffixOf, List.isPrefixOf]

end Sys2Proof.Tests.Slice0
end

section
/-! Construction (00_scope.md R12 to R16, R19; 10_state.md R50) and the fixed configuration (00_scope.md R11). -/

namespace Sys2Proof

theorem Transport.isSpi_iff (t : Transport) : t.isSpi = true ↔ t = .spiHw ∨ t = .spiSw := by
  cases t <;> decide

theorem RawCfg.checkColor_iff (raw : RawCfg) :
    raw.checkColor = true ↔ raw.colorDepth = 16 ∧ (raw.transport = .spiHw ∨ raw.transport = .spiSw) := by
  rw [RawCfg.checkColor, Bool.and_eq_true, beq_iff_eq, Transport.isSpi_iff]

theorem RawCfg.checkMono_iff (raw : RawCfg) :
    raw.checkMono = true ↔ raw.colorDepth = 1 ∧ raw.height.toNat % 8 = 0 ∧
      raw.monoPagePreamble.length = raw.height.toNat / 8 := by
  simp only [RawCfg.checkMono, Bool.and_eq_true, beq_iff_eq, and_assoc]

/-- The check is 00_scope.md R12 to R16, clause by clause. -/
theorem RawCfg.check_iff (raw : RawCfg) :
    raw.check = true ↔
      1 ≤ raw.width.toNat ∧ 1 ≤ raw.height.toNat ∧
      (raw.variant = .color → raw.colorDepth = 16 ∧ (raw.transport = .spiHw ∨ raw.transport = .spiSw)) ∧
      (raw.variant = .mono → raw.colorDepth = 1 ∧ raw.height.toNat % 8 = 0 ∧
        raw.monoPagePreamble.length = raw.height.toNat / 8) ∧
      raw.initTable.length ≤ 65535 ∧ (∀ e ∈ raw.initTable, e.params.length ≤ 255) ∧
      raw.ctrlData ≠ raw.ctrlCmd ∧ 10000 ≤ raw.tRstLowUs.toNat ∧ 10000 ≤ raw.tRstHighUs.toNat := by
  rw [← raw.checkColor_iff, ← raw.checkMono_iff]
  cases hv : raw.variant <;>
    simp only [RawCfg.check, hv, CommandEntry.check, Bool.and_eq_true, decide_eq_true_eq, List.all_eq_true, bne_iff_ne,
      and_assoc, reduceCtorEq, false_implies, true_implies, true_and]

namespace Machine

theorem construct_refused_iff (raw : RawCfg) (u : Unspecified) :
    construct raw u = .refused .invalidConfiguration ↔ ¬ raw.check = true := by
  unfold construct
  split <;> simp_all

theorem construct_valid (c : Cfg) (u : Unspecified) : construct c.toRawCfg u = .next (State.blockReset c u) :=
  dif_pos c.valid

theorem State.blockReset_buf {c : Cfg} (h : c.variant = .mono) (u : Unspecified) :
    (State.blockReset c u).buf = u.buf := by
  simp only [State.blockReset, h]

/-- Settles O1: the check is R12 to R16 clause by clause, and a checked record constructs `State.blockReset`, whose fields
are those of 10_state.md R50. -/
theorem constructionIsBlockReset : Obligations.ConstructionIsBlockReset := by
  refine ⟨fun raw u => ?_, fun c u => ?_⟩
  · rw [construct_refused_iff, raw.check_iff]
  · exact ⟨State.blockReset c u, construct_valid c u, rfl, rfl, rfl, rfl, rfl, rfl, rfl, rfl, rfl, rfl, rfl, rfl, rfl,
      rfl, rfl, rfl, fun hm => State.blockReset_buf hm u, rfl⟩

/-- Settles O48: a step runs an instruction, which keeps the configuration (`exec_cfg`), or only answers the host. -/
theorem configurationFixed : Obligations.ConfigurationFixed := by
  intro s t h
  rcases step_cases h with ⟨i, later, l, hexec⟩ | ⟨later, rs, rfl⟩
  · have hkept := exec_cfg hexec
    exact hkept
  · rfl

end Machine

end Sys2Proof
end

section
/-! The invariant of every step (10_state.md R53). -/

namespace Sys2Proof.Machine

/-! ### What keeps the invariant -/

/-- A window stays sound where its own registers, the panel and an initialised block stay. -/
theorem State.WindowOk.congr {s t : State} (h : s.WindowOk) (hctl : t.ctl ≠ .uninitialized)
    (hcfg : t.cfg = s.cfg) (hx : (t.wx0, t.curX, t.wx1) = (s.wx0, s.curX, s.wx1))
    (hy : (t.wy0, t.curY, t.wy1) = (s.wy0, s.curY, s.wy1)) (hr : t.remaining = s.remaining) : t.WindowOk := by
  obtain ⟨-, hcols, hrows, hcells⟩ := h
  simp only [Prod.mk.injEq] at hx hy
  exact ⟨hctl, by simpa [hx, hcfg] using hcols, by simpa [hy, hcfg] using hrows,
    by simpa [State.cellsLeft, hx, hy, hr] using hcells⟩

/-- The invariant looks at none of these registers. -/
theorem State.Inv.unwatched {s : State} (hi : s.Inv) (c : Code) (v : BitVec 1) (p : Bool) (n : Long) (l : Option Request) :
    ({ s with lastResult := c, rdata := v, pinRst := p, seqIdx := n, latch := l } : State).Inv :=
  { hi with armed := fun ha => (hi.armed ha).congr (hi.armed ha).initialised rfl rfl rfl rfl }

theorem State.Inv.enterBusy {s : State} (hi : s.Inv) : s.enterBusy.Inv :=
  { hi with
    armed := fun ha => (hi.armed ha).congr (by simp) rfl rfl rfl rfl
    ready := fun h => by simp at h
    failedInit := fun _ => .inr rfl }

theorem State.Inv.disarm {s : State} (hi : s.Inv) : s.disarm.Inv :=
  { hi with
    armed := fun ha => by simp [State.disarm] at ha
    unarmed := fun _ => rfl
    monoWindow := fun _ => rfl }

/-- The window latch is free while no window is armed. -/
theorem State.Inv.latchWindow {s : State} (hi : s.Inv) (ha : s.armed = false) (x0 y0 x1 y1 : Half) :
    (s.latchWindow x0 y0 x1 y1).Inv :=
  { hi with armed := fun h => by simp [ha] at h }

theorem State.Inv.openWindow {s : State} (hi : s.Inv) (x0 y0 x1 y1 : Half) : (s.openWindow x0 y0 x1 y1).Inv :=
  hi.enterBusy.disarm.latchWindow rfl x0 y0 x1 y1

/-- A request's script starts in a state that meets the invariant. -/
theorem State.Inv.opened {s : State} (hi : s.Inv) (i : Instr) : (opened i s).Inv := by
  cases i
  case init => exact hi.enterBusy.disarm
  case setWindow => exact hi.openWindow _ _ _ _
  case putPixel => exact hi.openWindow _ _ _ _
  case fillRect => exact hi.openWindow _ _ _ _
  all_goals exact hi.enterBusy

/-- A script moves the reset line and `seq_idx` at most, which the invariant does not look at. -/
theorem State.Inv.script {s : State} (hi : s.Inv) (script : List Act) : (scriptRegisters s script).Inv := by
  obtain ⟨p, n, h⟩ := scriptRegisters_only s script
  rw [h]
  exact hi.unwatched s.lastResult s.rdata p n s.latch

theorem State.Inv.scriptFail {s : State} (hi : s.Inv) (j : Nat) (script : List Act) :
    (scriptFailRegisters s j script).Inv := by
  obtain ⟨p, n, h⟩ := scriptFailRegisters_only s j script
  rw [h]
  exact hi.unwatched s.lastResult s.rdata p n s.latch

/-- The buffer may hold any canonical memory of its size (20_memory.md R74). -/
theorem State.Inv.setBuf {s : State} (hi : s.Inv) {m : Memory} (hm : m.wf = true ∧ m.within (bufferSize s.cfg) = true) :
    ({ s with buf := m } : State).Inv :=
  { hi with
    armed := fun ha => (hi.armed ha).congr (hi.armed ha).initialised rfl rfl rfl rfl
    buffer := hm }

/-- Only a Mono block's lock may be set (10_state.md R36). -/
theorem State.Inv.setLock {s : State} (hi : s.Inv) (hv : s.cfg.variant = .mono) (b : Bool) :
    ({ s with lock := b } : State).Inv :=
  { hi with
    armed := fun ha => (hi.armed ha).congr (hi.armed ha).initialised rfl rfl rfl rfl
    colorLock := fun h => by simp [hv] at h }

/-- The record of a successful INIT (40_init_sequencer.md R207, 10_state.md R53 c). -/
theorem State.Inv.clearFailure {s : State} (hi : s.Inv) :
    ({ s with initFailed := false, failStep := 0xFFFFFFFF } : State).Inv :=
  { hi with
    armed := fun ha => (hi.armed ha).congr (hi.armed ha).initialised rfl rfl rfl rfl
    ready := fun _ => ⟨rfl, rfl⟩
    failedInit := fun h => by simp at h
    failStep := .inl rfl }

/-- Ready may be entered while no failure is on record (10_state.md R53 c). -/
theorem State.Inv.enterReady {s : State} (hi : s.Inv) (hf : s.initFailed = false ∧ s.failStep = 0xFFFFFFFF) (c : Code) :
    ({ s with ctl := .ready, lastResult := c } : State).Inv :=
  { hi with
    armed := fun ha => (hi.armed ha).congr (by simp) rfl rfl rfl rfl
    ready := fun _ => hf
    failedInit := fun h => by simp [hf] at h }

/-- A failed INIT's record names an entry of the table, or its length (10_state.md R38). -/
theorem State.Inv.enterUninitialized {s : State} (hi : s.Inv) (ha : s.armed = false) {n : Long}
    (hn : n.toNat ≤ s.cfg.initTable.length) (c : Code) :
    ({ s with failStep := n, initFailed := true, ctl := .uninitialized, lastResult := c } : State).Inv :=
  { hi with
    armed := fun h => by simp [ha] at h
    ready := fun h => by simp at h
    failedInit := fun _ => .inl rfl
    failStep := .inr hn }

/-- A valid window of a Color block may be armed, its cursor on the first cell (41_window_write.md R302). -/
theorem State.Inv.armWindow {s : State} (hi : s.Inv) (hctl : s.ctl ≠ .uninitialized) (hv : s.cfg.variant = .color)
    (h : validWindow s.cfg s.wx0 s.wy0 s.wx1 s.wy1 = true) :
    ({ s with
      curX := s.wx0, curY := s.wy0, remaining := cellCount s.wx0 s.wy0 s.wx1 s.wy1, armed := true } : State).Inv := by
  obtain ⟨hx, hxw, hy, hyh⟩ := (validWindow_iff _ _ _ _ _).1 h
  refine { hi with armed := fun _ => ?_, unarmed := fun h => by simp at h, monoWindow := fun h => by simp [hv] at h }
  refine ⟨hctl, ⟨BitVec.le_refl _, hx, hxw⟩, ⟨BitVec.le_refl _, hy, hyh⟩, ?_⟩
  rw [cellCount_toNat hx hxw hy hyh, State.cellsLeft]
  ring

/-- `Advance()` keeps the invariant; after the last cell the window is disarmed (41_window_write.md R307). -/
theorem State.Inv.advance {s : State} (hi : s.Inv) (ha : s.armed = true) : s.advance.Inv := by
  have hw : s.advance.armed = true → s.advance.WindowOk := by
    intro h
    refine State.advance_windowOk (hi.armed ha) fun hr => ?_
    simp [State.advance_eq, hr] at h
  rw [State.advance_eq] at hw ⊢
  refine { hi with armed := hw, unarmed := fun h => ?_, monoWindow := fun h => ?_ }
  · simpa [ha] using h
  · simp [hi.monoWindow h] at ha

/-- A write inside the buffer keeps its canonical form and size (20_memory.md R74, R76). -/
theorem State.Inv.writeBuf {s : State} (hi : s.Inv) {a : Nat} (ha : a < bufferSize s.cfg) (v : Byte) :
    ({ s with buf := Memory.write s.buf a v } : State).Inv :=
  hi.setBuf ⟨Memory.wf_write hi.buffer.1, Memory.within_write ha hi.buffer.2⟩

/-! ### Every step keeps the invariant -/

/-- A request that emits no event keeps the invariant. -/
theorem effectOf_inv {i : Instr} {s : State} (hi : s.Inv) (ha : acceptance i s = .accept) : (effectOf i s).Inv := by
  obtain ⟨-, hlegal, -, -, hrange, -⟩ := acceptance_accept ha
  cases i
  case monoSetPixel x y v =>
    obtain ⟨hx, hy⟩ := (validPoint_iff _ _ _).1 hrange
    exact hi.writeBuf (pixelIndex_lt (by simpa [legalIn] using hlegal) hx hy) _
  case monoGetPixel x y => exact hi.unwatched s.lastResult _ s.pinRst s.seqIdx s.latch
  case monoClear => exact hi.setBuf ⟨rfl, rfl⟩
  case lockBuffer => exact hi.setLock (by simpa [legalIn] using hlegal) true
  case unlockBuffer => exact hi.setLock (by simpa [legalIn] using hlegal) false
  all_goals exact hi

/-- INIT's success zeroes the buffer on Mono and clears the failure record (40_init_sequencer.md R207). -/
theorem finishInit_inv {s : State} (hi : s.Inv) : (finish .init s).Inv := by
  refine (hi.setBuf (m := match s.cfg.variant with | .color => s.buf | .mono => []) ?_).clearFailure
  split
  · exact hi.buffer
  · exact ⟨rfl, rfl⟩

/-- What an accepted request has written once its script has succeeded. -/
theorem finish_inv {i : Instr} {s : State} (hi : s.Inv) (ha : acceptance i s = .accept) :
    (finish i (scriptRegisters (opened i s) (scriptOf i s))).Inv := by
  obtain ⟨-, hlegal, -, harmed, hrange, -⟩ := acceptance_accept ha
  have hscript := (hi.opened i).script (scriptOf i s)
  cases i
  case init => exact finishInit_inv hscript
  case setWindow x0 y0 x1 y1 =>
    rw [scriptRegisters_units (scriptOf_units (by simp))]
    have hcolor : s.cfg.variant = .color := by simpa [legalIn] using hlegal
    exact (hi.openWindow x0 y0 x1 y1).armWindow (by simp [State.openWindow]) hcolor hrange
  case writeWord color =>
    rw [scriptRegisters_units (scriptOf_units (by simp))]
    exact hi.enterBusy.advance (harmed rfl)
  all_goals exact hscript

/-- An accepted request but INIT, LOCK_BUFFER and UNLOCK_BUFFER finds the block Ready (60_exceptions.md R606). -/
theorem accepted_ready {i : Instr} {s : State} (ha : acceptance i s = .accept) (hu : acceptedUninitialized i = false) :
    s.ctl = .ready := by
  obtain ⟨hbusy, -, huninit, -, -, -⟩ := acceptance_accept ha
  cases hc : s.ctl
  case uninitialized => simp [huninit hc] at hu
  case ready => rfl
  case busy => exact absurd hc hbusy

/-- The failure record that an accepted request leaves when its script succeeds. -/
theorem finish_failRecord {i : Instr} {s : State} (hi : s.Inv) (hw : usesWire i = true) (ha : acceptance i s = .accept) :
    (finish i (scriptRegisters (opened i s) (scriptOf i s))).initFailed = false ∧
      (finish i (scriptRegisters (opened i s) (scriptOf i s))).failStep = 0xFFFFFFFF := by
  by_cases hinit : i = .init
  · subst hinit
    exact ⟨rfl, rfl⟩
  · have hready := hi.ready (accepted_ready ha (usesWire_needsInit hw hinit))
    rw [scriptRegisters_units (scriptOf_units hinit)]
    cases i
    case init => exact absurd rfl hinit
    case writeWord => simpa [finish, opened, State.advance_eq] using hready
    all_goals exact hready

/-- INIT_FAIL leaves the index of an entry of the table, or the table's length (10_state.md R38). -/
theorem abortInit_inv {s : State} (hi : s.Inv) (ha : s.armed = false) {k : Nat} (hk : k < initWrites s.cfg) (c : Code) :
    ({ abortState .initFail (scriptFailRegisters s k (initScript s.cfg)) with
      ctl := .uninitialized, lastResult := c } : State).Inv := by
  have hle : (BitVec.ofNat 32 (entryOfWrite s.cfg k s.cfg.initTable)).toNat ≤ s.cfg.initTable.length := by
    rw [BitVec.toNat_ofNat]
    exact (Nat.mod_le _ _).trans (entryOfWrite_le _ _ _)
  have hscript := hi.scriptFail k (initScript s.cfg)
  rw [initScript_failRegisters hk] at hscript ⊢
  exact hscript.enterUninitialized ha hle c

/-- What a failure handler leaves (60_exceptions.md R612). -/
theorem abort_inv {i : Instr} {s : State} (hi : s.Inv) (hw : usesWire i = true) (ha : acceptance i s = .accept)
    {k : Nat} (hk : k < scriptWrites s.cfg (scriptOf i s)) :
    ({ abortState (handlerOf i) (scriptFailRegisters (opened i s) k (scriptOf i s)) with
      ctl := abortCtl (handlerOf i), lastResult := abortCode (handlerOf i) } : State).Inv := by
  by_cases hinit : i = .init
  · subst hinit
    rw [scriptOf, initScript_writes] at hk
    exact abortInit_inv (hi.opened .init) rfl hk _
  · have hready := hi.ready (accepted_ready ha (usesWire_needsInit hw hinit))
    rw [scriptFailRegisters_units (scriptOf_units hinit)]
    have hopened := hi.opened i
    cases i
    case init => exact absurd rfl hinit
    case monoFlush => exact hopened.enterReady hready _
    all_goals exact hopened.disarm.enterReady hready _

/-- Every instruction keeps the invariant. -/
theorem exec_inv {i : Instr} {s t : State} (hi : s.Inv) (h : exec i s = .next t) : t.Inv := by
  cases exec_ran h with
  | rejected _ _ ht => exact hi.congr (by rw [ht]; rfl)
  | refused _ _ code _ _ ht => exact (hi.result code).congr (by rw [ht]; rfl)
  | completed _ _ ha ht => exact ((effectOf_inv hi ha).result .ok).congr (by rw [ht, State.complete_registers])
  | succeeded hw ha _ hr _ => exact ((finish_inv hi ha).enterReady (finish_failRecord hi hw ha) .ok).congr hr
  | aborted hw ha k hk _ hr _ => exact (abort_inv hi hw ha hk).congr hr
  | sent _ _ hr _ => exact hi.congr hr
  | stopped _ k _ _ hr _ => exact hi.disarm.congr hr

/-- Settles O47: a step runs an instruction (`exec_inv`) on a state that differs in the host's actions and the latch only,
or it answers the host. -/
theorem stepKeepsInv : Obligations.StepKeepsInv := by
  intro s t hi h
  rcases step_cases h with ⟨i, later, l, hexec⟩ | ⟨later, rs, rfl⟩
  · refine exec_inv ?_ hexec
    exact State.Inv.congr (s := { s with latch := l }) rfl
      (hi.unwatched s.lastResult s.rdata s.pinRst s.seqIdx l)
  · exact State.Inv.congr (s := s) rfl hi

/-! ### The invariant at reset -/

/-- The invariant after block reset: nothing is armed, and no INIT has failed yet (10_state.md R50). -/
theorem State.blockReset_inv {c : Cfg} {u : Unspecified} (hwf : u.buf.wf = true)
    (hin : u.buf.within (bufferSize c) = true) : (State.blockReset c u).Inv where
  armed h := by simp [State.blockReset] at h
  unarmed _ := rfl
  ready h := by simp [State.blockReset] at h
  failedInit h := by simp [State.blockReset] at h
  failStep := .inl rfl
  buffer := by
    cases hv : c.variant
    · simp [State.blockReset, hv, Memory.wf, Memory.within]
    · rw [State.blockReset_buf hv]
      exact ⟨hwf, hin⟩
  colorLock _ := rfl
  monoWindow _ := rfl

/-- Settles O46: `State.blockReset_inv`, and the empty buffer of `State.reset`. -/
theorem invAtReset : Obligations.InvAtReset :=
  ⟨fun _ _ hwf hin => State.blockReset_inv hwf hin, State.blockReset_inv rfl rfl⟩

end Sys2Proof.Machine
end

section
/-! Host actions in the gaps of a running request (10_state.md R47; 43_control.md R451, R454). -/

namespace Sys2Proof.Machine

/-! ### A request ends in the same way, whatever arrives -/

/-- A request that began in `s` ends in `t`: the registers and the context are those of `r`, the events `evs` were appended,
`n` bus answers taken, and the host was told `code` and `v` last, after what the gaps told it. -/
structure EndsAs (s r t : State) (evs : List Event) (n : Nat) (code : Code) (v : Byte) : Prop where
  registers : t.registers = r.registers
  context   : t.script = r.script ∧ t.unitLeft = r.unitLeft
  trace     : t.trace = s.trace ++ evs
  pins      : (t.pinCs, t.pinDc) = pinsAfter evs (s.pinCs, s.pinDc)
  oracle    : ∀ k, t.answerAt k = s.answerAt (n + k)
  inbox     : t.inbox = s.inbox
  told      : ∃ l : List Reply, (∀ reply ∈ l, reply.inGap) ∧ t.repliesRev = .response code v :: (l ++ s.repliesRev) ∧
    (s.arrivals = [] → l = [])

/-- A request that emits no event: its registers `q`, then the response. -/
theorem EndsAs.of_reply {s q r : State} (hq : SameWire s q) (hr : q.registers = r.registers)
    (hc : q.script = r.script ∧ q.unitLeft = r.unitLeft) (code : Code) (v : Byte) :
    EndsAs s r (q.reply (.response code v)) [] 0 code v where
  registers := hr
  context := hc
  trace := by simp [State.trace, hq.trace]
  pins := by simp [pinsAfter, hq.cs, hq.dc]
  oracle k := by
    rw [Nat.zero_add]
    exact State.answerAt_congr hq.answers hq.writes k
  inbox := hq.inbox
  told := ⟨[], by simp, by simp [hq.replies], fun _ => rfl⟩

/-- Completion writes the result, which is no part of the wire side. -/
theorem SameWire.result {s q : State} (h : SameWire s q) (code : Code) : SameWire s { q with lastResult := code } :=
  { h with }

/-- A request that emits no event and completes. -/
theorem EndsAs.of_complete {s q r : State} (hq : SameWire s q) (hr : q.registers = r.registers)
    (hc : q.script = r.script ∧ q.unitLeft = r.unitLeft) (code : Code) (v : Byte) :
    EndsAs s { r with lastResult := code } (q.complete code v) [] 0 code v :=
  .of_reply (r := { r with lastResult := code }) (hq.result code)
    (congrArg (fun p : State => ({ p with lastResult := code } : State)) hr) hc code v

/-- A request that ran its script. -/
theorem EndsAs.of_ended {s r t : State} {evs : List Event} {n : Nat} {code : Code} {v : Byte} (he : Ended s t evs n code v)
    (hr : t.registers = r.registers) : EndsAs s r.dropContext t evs n code v where
  registers := hr
  context := he.quiet
  trace := he.trace
  pins := he.pins
  oracle := he.oracle
  inbox := he.inbox
  told := by
    obtain ⟨l, hgap, hreplies, hnone⟩ := he.told
    exact ⟨l, hgap, hreplies, fun h => (hnone h).1⟩

/-- Two states in which a request does the same: they differ in the wire trace, its pins, what the host was told and what it
is yet to do. -/
structure Alike (s s' : State) : Prop where
  registers : s'.registers = s.registers
  context   : s'.script = s.script ∧ s'.unitLeft = s.unitLeft
  answers   : s'.answers = s.answers
  writes    : s'.writes = s.writes

theorem Alike.ctl {s s' : State} (h : Alike s s') : s'.ctl = s.ctl := registers_ctl h.registers

theorem Alike.cfg {s s' : State} (h : Alike s s') : s'.cfg = s.cfg := registers_cfg h.registers

theorem Alike.answerAt {s s' : State} (h : Alike s s') (k : Nat) : s'.answerAt k = s.answerAt k :=
  State.answerAt_congr h.answers h.writes k

theorem Alike.acceptance {s s' : State} (h : Alike s s') (i : Instr) : acceptance i s' = acceptance i s :=
  (congrArg (Machine.acceptance i) h.registers :)

theorem Alike.scriptOf {s s' : State} (h : Alike s s') (i : Instr) : scriptOf i s' = scriptOf i s := by
  have hq : ∀ q : State, Machine.scriptOf i q = Machine.scriptOf i q.registers := fun q => by cases i <;> rfl
  rw [hq, h.registers, ← hq]

theorem Alike.valueOf {s s' : State} (h : Alike s s') (i : Instr) : valueOf i s' = valueOf i s := by
  have hq : ∀ q : State, Machine.valueOf i q = Machine.valueOf i q.registers := fun q => by cases i <;> rfl
  rw [hq, h.registers, ← hq]

theorem Alike.opened {s s' : State} (h : Alike s s') (i : Instr) : (opened i s').registers = (opened i s).registers :=
  registers_map (fun q => by cases i <;> rfl) h.registers

theorem Alike.effectOf {s s' : State} (h : Alike s s') (i : Instr) :
    (effectOf i s').registers = (effectOf i s).registers :=
  registers_map (fun q => by cases i <;> rfl) h.registers

theorem effectOf_context (i : Instr) (s : State) :
    (effectOf i s).script = s.script ∧ (effectOf i s).unitLeft = s.unitLeft := by
  cases i <;> exact ⟨rfl, rfl⟩

/-- The controller state and the result are written over equal registers. -/
theorem setOutcome_registers {q q' : State} (h : q'.registers = q.registers) (next : ControllerState) (code : Code) :
    ({ q' with ctl := next, lastResult := code } : State).registers =
      ({ q with ctl := next, lastResult := code } : State).registers :=
  congrArg (fun p : State => ({ p with ctl := next, lastResult := code } : State)) h

/-- What a successful request leaves in its registers. -/
def succeededState (i : Instr) (s : State) : State :=
  { finish i (scriptRegisters (opened i s) (scriptOf i s)) with ctl := .ready, lastResult := .ok }

/-- What a request leaves in its registers when byte write number `k` fails. -/
def abortedState (i : Instr) (s : State) (k : Nat) : State :=
  { abortState (handlerOf i) (scriptFailRegisters (opened i s) k (scriptOf i s)) with
    ctl := abortCtl (handlerOf i), lastResult := abortCode (handlerOf i) }

theorem Alike.succeededState {s s' : State} (h : Alike s s') (i : Instr) :
    (succeededState i s').registers = (succeededState i s).registers := by
  unfold Machine.succeededState
  rw [h.scriptOf]
  exact setOutcome_registers (registers_map (finish_registers i) (scriptRegisters_congr (h.opened i) _)) _ _

theorem Alike.abortedState {s s' : State} (h : Alike s s') (i : Instr) (k : Nat) :
    (abortedState i s' k).registers = (abortedState i s k).registers := by
  unfold Machine.abortedState
  rw [h.scriptOf]
  refine setOutcome_registers (registers_map (fun q => ?_) (scriptFailRegisters_congr (h.opened i) k _)) _ _
  cases handlerOf i <;> rfl

/-- The way `r`, `evs`, `n`, `code`, `v` in which the instruction `i` ends from every state like `s`. -/
def EndsFrom (i : Instr) (s r : State) (evs : List Event) (n : Nat) (code : Code) (v : Byte) : Prop :=
  ∀ s' t : State, Alike s s' → exec i s' = .next t → EndsAs s' r t evs n code v

/-- An accepted request that uses the wire, on a bus that answers ok. -/
theorem exec_ok_ends {i : Instr} {s : State} (hw : usesWire i = true) (ha : acceptance i s = .accept)
    (hok : s.busOk (scriptWrites s.cfg (scriptOf i s))) : EndsFrom i s (succeededState i s).dropContext
      (scriptEvents s.cfg (scriptOf i s)) (scriptWrites s.cfg (scriptOf i s)) .ok 0 := by
  intro s' t hl h
  rw [exec_wire hw, request_accept ((hl.acceptance i).trans ha)] at h
  cases h
  have hok' : s'.busOk (scriptWrites s'.cfg (scriptOf i s')) := by
    rw [hl.scriptOf, hl.cfg]
    exact fun k hk => (hl.answerAt k).trans (hok k hk)
  obtain ⟨t, ht, hr, he⟩ := tryScript_ok (h := handlerOf i) (next := .ready) (opened_sameWire i s') (opened_ctl i s')
    (opened_cfg i s') (finish_sameWire i) (finish_ctl i) (finish_registers i) hok'
  rw [ht]
  rw [hl.scriptOf, hl.cfg] at he
  exact .of_ended he (hr.trans (hl.succeededState i))

/-- An accepted request whose byte write number `k` fails (60_exceptions.md R612). -/
theorem exec_fails_ends {i : Instr} {s : State} {k : Nat} (hw : usesWire i = true) (ha : acceptance i s = .accept)
    (hk : k < scriptWrites s.cfg (scriptOf i s)) (hf : s.busFailsAt k) : EndsFrom i s (abortedState i s k).dropContext
      (scriptFailEvents s.cfg k (scriptOf i s)) (k + 1) (abortCode (handlerOf i)) 0 := by
  intro s' t hl h
  rw [exec_wire hw, request_accept ((hl.acceptance i).trans ha)] at h
  cases h
  have hf' : s'.busFailsAt k := ⟨fun j hj => (hl.answerAt j).trans (hf.1 j hj), (hl.answerAt k).trans hf.2⟩
  have hk' : k < scriptWrites s'.cfg (scriptOf i s') := by rwa [hl.scriptOf, hl.cfg]
  obtain ⟨t, ht, hr, he⟩ := tryScript_fails (h := handlerOf i) (done := fun t => (finish i t).release .ready .ok)
    (opened_sameWire i s') (opened_ctl i s') (opened_cfg i s') hk' hf'
  rw [ht]
  rw [hl.scriptOf, hl.cfg] at he
  exact .of_ended he (hr.trans (hl.abortedState i k))

/-- An accepted request that emits no event. -/
theorem exec_local_ends {i : Instr} {s : State} (hw : usesWire i = false) (hs : i.surface = .request)
    (ha : acceptance i s = .accept) : EndsFrom i s { effectOf i s with lastResult := .ok } [] 0 .ok (valueOf i s) := by
  have hr : ∀ op, i ≠ .reserved op := by
    rintro op rfl
    exact absurd (acceptance_accept ha).2.1 (by simp [legalIn])
  intro s' t hl h
  rw [exec_local hw hs hr, request_accept ((hl.acceptance i).trans ha), hl.valueOf] at h
  cases h
  exact .of_complete (effectOf_sameWire i s') (hl.effectOf i) (by simp only [effectOf_context, hl.context, and_self]) _ _

/-- The first `n` answers of the bus are all ok, or one of them is the first failure. -/
theorem State.busOk_or_fails (s : State) (n : Nat) : s.busOk n ∨ ∃ k, k < n ∧ s.busFailsAt k := by
  induction n with
  | zero => exact .inl s.busOk_zero
  | succ n ih =>
    rcases ih with hok | ⟨k, hk, hf⟩
    · rcases Answer.eq_ok_or_fail (s.answerAt n) with ha | ha
      · refine .inl fun k hk => ?_
        rcases Nat.lt_succ_iff_lt_or_eq.1 hk with hlt | rfl
        · exact hok k hlt
        · exact ha
      · exact .inr ⟨n, Nat.lt_succ_self n, hok, ha⟩
    · exact .inr ⟨k, Nat.lt_succ_of_lt hk, hf⟩

/-- How a request ends does not depend on what arrives while it runs (43_control.md R451). -/
theorem exec_ends {i : Instr} (hs : i.surface = .request) (s : State) :
    ∃ (r : State) (evs : List Event) (n : Nat) (code : Code) (v : Byte), EndsFrom i s r evs n code v := by
  obtain ⟨body, hbody⟩ := exec_request hs
  rcases request_cases i body s with ⟨hb, -⟩ | ⟨-, code, hcode, -⟩ | ⟨-, ha, -⟩
  · refine ⟨s, [], 0, .busyError, 0, fun s' t hl h => ?_⟩
    rw [hbody, request_busy (hl.ctl.trans hb)] at h
    cases h
    exact .of_reply (SameWire.refl s') hl.registers hl.context _ _
  · refine ⟨{ s with lastResult := code }, [], 0, code, 0, fun s' t hl h => ?_⟩
    rw [hbody, request_refuse ((hl.acceptance i).trans hcode)] at h
    cases h
    exact .of_complete (SameWire.refl s') hl.registers hl.context _ _
  · cases hw : usesWire i
    · exact ⟨_, _, _, _, _, exec_local_ends hw hs ha⟩
    · rcases State.busOk_or_fails s (scriptWrites s.cfg (scriptOf i s)) with hok | ⟨k, hk, hf⟩
      · exact ⟨_, _, _, _, _, exec_ok_ends hw ha hok⟩
      · exact ⟨_, _, _, _, _, exec_fails_ends hw ha hk hf⟩

/-! ### What the gaps of a request tell the host -/

/-- No register of the port shows the window latch (10_state.md R48). -/
theorem gapReply_latchWindow (x0 y0 x1 y1 : Half) (s : State) : gapReply (s.latchWindow x0 y0 x1 y1) = gapReply s := by
  funext a
  cases a <;> rfl

/-- What the gaps before a request's events show: `Busy`, and the window disarmed by every request but WRITE_WORD and
MONO_FLUSH (41_window_write.md R302, 40_init_sequencer.md R201). -/
theorem gapReply_opened {i : Instr} {s q : State} (hw : usesWire i = true)
    (hkeep : (i = .monoFlush ∨ ∃ color, i = .writeWord color) → q = { s with ctl := .busy })
    (hdisarm : ¬ (i = .monoFlush ∨ ∃ color, i = .writeWord color) →
      q = { s with ctl := .busy, armed := false, remaining := 0 }) : gapReply (opened i s) = gapReply q := by
  cases i <;> first | exact absurd hw Bool.false_ne_true | skip
  case monoFlush =>
    rw [hkeep (.inl rfl)]
    rfl
  case writeWord color =>
    rw [hkeep (.inr ⟨color, rfl⟩)]
    rfl
  case init =>
    rw [hdisarm (by simp)]
    rfl
  all_goals
    rw [hdisarm (by simp)]
    exact gapReply_latchWindow _ _ _ _ s.enterBusy.disarm

theorem opened_lastResult (i : Instr) (s : State) : (opened i s).lastResult = s.lastResult := by cases i <;> rfl

/-- An accepted request with the events `evs`: one gap before each, and one before the response (log 4). -/
theorem exec_wire_told {i : Instr} {s t : State} {evs : List Event} (hw : usesWire i = true)
    (ha : acceptance i s = .accept) (h : exec i s = .next t) (htrace : t.trace = s.trace ++ evs) :
    ∃ code : Code, t.arrivals = s.arrivals.drop (evs.length + 1) ∧
      t.replies = s.replies ++ (s.arrivals.take evs.length).flatten.flatMap (gapReply (opened i s)) ++
        (s.arrivals.getD evs.length []).flatMap (gapReply { t with ctl := .busy, lastResult := s.lastResult }) ++
        [.response code 0] := by
  obtain ⟨n, code, hevents, harrivals, hreplies⟩ := exec_released hw ha h
  have hsame := opened_sameWire i s
  rw [hsame.trace] at hevents
  obtain rfl := events_length htrace hevents
  have hr : (opened i s).replies = s.replies := by simp [State.replies, hsame.replies]
  rw [hsame.arrivals] at harrivals
  rw [hsame.arrivals, hr, opened_ctl, opened_lastResult] at hreplies
  exact ⟨code, harrivals, hreplies⟩

/-- What a request tells the host: `q` is what the gaps before its events show. -/
structure Told (s t q : State) (evs : List Event) (code : Code) (v : Byte) : Prop where
  trace  : t.trace = s.trace ++ evs
  silent : evs = [] → t.arrivals = s.arrivals ∧ t.replies = s.replies ++ [.response code v]
  gaps   : evs ≠ [] → t.arrivals = s.arrivals.drop (evs.length + 1) ∧
    t.replies = s.replies ++ (s.arrivals.take evs.length).flatten.flatMap (gapReply q) ++
      (s.arrivals.getD evs.length []).flatMap (gapReply { t with ctl := .busy, lastResult := s.lastResult }) ++
      [.response code v]

/-- A request that emits nothing takes no gap. -/
theorem Told.of_reply {s u : State} (hu : SameWire s u) (q : State) (code : Code) (v : Byte) :
    Told s (u.reply (.response code v)) q [] code v where
  trace := by simp [State.trace, hu.trace]
  silent _ := ⟨hu.arrivals, by simp [State.replies, hu.replies]⟩
  gaps h := absurd rfl h

theorem exec_told {i : Instr} {s t q : State} (hi : i.surface = .request) (h : exec i s = .next t)
    (hq : usesWire i = true → gapReply (opened i s) = gapReply q) :
    ∃ (evs : List Event) (code : Code) (v : Byte), Told s t q evs code v := by
  have hwire : ∀ evs : List Event, usesWire i = true → acceptance i s = .accept → evs ≠ [] → t.trace = s.trace ++ evs →
      ∃ (evs : List Event) (code : Code) (v : Byte), Told s t q evs code v := by
    intro evs hw ha hne htrace
    obtain ⟨code, harrivals, hreplies⟩ := exec_wire_told hw ha h htrace
    rw [hq hw] at hreplies
    exact ⟨evs, code, 0, htrace, fun he => absurd he hne, fun _ => ⟨harrivals, hreplies⟩⟩
  cases exec_ran h with
  | rejected _ _ ht =>
    rw [ht]
    exact ⟨[], .busyError, 0, .of_reply (SameWire.refl s) q _ _⟩
  | refused _ _ code _ _ ht =>
    rw [ht]
    exact ⟨[], code, 0, .of_reply ((SameWire.refl s).result code) q _ _⟩
  | completed _ _ _ ht =>
    rw [ht]
    exact ⟨[], .ok, _, .of_reply ((effectOf_sameWire i s).result .ok) q _ _⟩
  | succeeded hw ha _ _ he => exact hwire _ hw ha (scriptEvents_ne_nil hw ha) he.trace
  | aborted hw ha k hk _ _ he =>
    obtain ⟨before, b, hevs, -⟩ := FailsLast.script hk
    exact hwire _ hw ha (by simp [hevs]) he.trace
  | sent hs => exact absurd hi hs
  | stopped hs => exact absurd hi hs

/-! ### A word of the wire or of the ROM -/

/-- A word run by itself runs its script alone (log 8). -/
theorem exec_word {i : Instr} {s t : State} (hi : i.surface ≠ .request) (h : exec i s = .next t) :
    t = performAlone (scriptOf i s) s := by
  cases i <;> first | exact absurd rfl hi | skip
  case pagePreamble p =>
    simp only [exec, execPagePreamble] at h
    split at h
    · cases h
    split at h
    · cases h
    cases h
    rfl
  all_goals
    cases h
    rfl

/-- Settles O55: a request ends in one way from states that differ in what arrives (`exec_ends`); what the gaps tell the
host is `exec_told` for a request and `performAlone_gapped` for a word. -/
theorem arrivalsDoNotDisturb : Obligations.ArrivalsDoNotDisturb := by
  refine ⟨fun r s t u ht hu => ?_, fun r s t q ht hkeep hdisarm => ?_, fun i s t hi ht => ?_⟩
  · obtain ⟨e, evs, n, code, v, hends⟩ := exec_ends (decodeRequest_surface r) s
    have et := hends s t ⟨rfl, ⟨rfl, rfl⟩, rfl, rfl⟩ ht
    have eu := hends { s with arrivals := [] } u ⟨rfl, ⟨rfl, rfl⟩, rfl, rfl⟩ hu
    obtain ⟨l, hgap, htold, -⟩ := et.told
    obtain ⟨l', -, hutold, hnone⟩ := eu.told
    obtain rfl := hnone rfl
    exact ⟨et.registers.trans eu.registers.symm, et.trace.trans eu.trace.symm, et.pins.trans eu.pins.symm,
      fun k => (et.oracle k).trans (eu.oracle k).symm, et.inbox.trans eu.inbox.symm,
      et.context.1.trans eu.context.1.symm, et.context.2.trans eu.context.2.symm, code, v, l, hgap, hutold, htold⟩
  · obtain ⟨evs, code, v, htold⟩ := exec_told (decodeRequest_surface r) ht fun hw => gapReply_opened hw hkeep hdisarm
    exact ⟨evs, code, v, htold.trace, htold.silent, htold.gaps⟩
  · obtain ⟨evs, htrace, -, -⟩ := exec_framed ht
    obtain rfl := exec_word hi ht
    obtain ⟨n, hevents, harrivals, hreplies, hinbox⟩ := performAlone_gapped (scriptOf i s) s
    obtain rfl := events_length htrace hevents
    exact ⟨evs, htrace, harrivals, hreplies, hinbox⟩

end Sys2Proof.Machine
end

section
/-! Which instruction writes which state (10_state.md R33, R35, R42, R46, R52). -/

namespace Sys2Proof.Machine

/-! ### The controller state -/

theorem abortCtl_of_ne_init {i : Instr} (hw : usesWire i = true) (hi : i ≠ .init) : abortCtl (handlerOf i) = .ready := by
  cases i <;> first | rfl | exact absurd rfl hi

theorem effectOf_ctl (i : Instr) (s : State) : (effectOf i s).ctl = s.ctl := by cases i <;> rfl

/-- A request but INIT that goes busy found the block Ready and leaves it so; nothing else moves the controller state. -/
theorem exec_ctl_of_ne_init {i : Instr} {s t : State} (hi : i ≠ .init) (h : exec i s = .next t) : t.ctl = s.ctl := by
  have hready : usesWire i = true → acceptance i s = .accept → s.ctl = .ready :=
    fun hw ha => accepted_ready ha (usesWire_needsInit hw hi)
  cases exec_ran h with
  | rejected _ _ ht => rw [ht]; rfl
  | refused _ _ code _ _ ht => rw [ht]; rfl
  | completed _ _ _ ht => rw [ht, State.complete_ctl, effectOf_ctl]
  | succeeded hw ha _ hr _ => exact (registers_ctl hr).trans (hready hw ha).symm
  | aborted hw ha k _ _ hr _ => exact ((registers_ctl hr).trans (abortCtl_of_ne_init hw hi)).trans (hready hw ha).symm
  | sent _ _ hr _ => exact registers_ctl hr
  | stopped _ k _ _ hr _ => exact (registers_ctl hr).trans s.disarm_ctl

/-- Settles O51: INIT ends in one of its two ways unless acceptance stops it, and no other instruction moves the
controller state (`exec_ctl_of_ne_init`). -/
theorem stateTransitions : Obligations.StateTransitions := by
  intro i s t h
  by_cases hi : i = .init
  · subst hi
    cases exec_ran h with
    | rejected _ _ ht => exact .inl (by rw [ht]; rfl)
    | refused _ _ code _ _ ht => exact .inl (by rw [ht]; rfl)
    | completed _ hw => exact absurd hw.symm Bool.false_ne_true
    | succeeded _ ha _ hr _ =>
      exact .inr ⟨rfl, (acceptance_accept ha).1, .inl ⟨registers_ctl hr, (congrArg State.lastResult hr :)⟩⟩
    | aborted _ ha k _ _ hr _ =>
      exact .inr ⟨rfl, (acceptance_accept ha).1, .inr ⟨registers_ctl hr, (congrArg State.lastResult hr :)⟩⟩
    | sent hs => exact absurd rfl hs
    | stopped hs => exact absurd rfl hs
  · exact .inl (exec_ctl_of_ne_init hi h)

/-! ### The registers an instruction leaves alone -/

/-- What an instruction leaves alone (10_state.md R52): the registers, but blank where it may write, and in the controller
state and the result, which every request may write. -/
def keptBy (i : Instr) (s : State) : State :=
  let k : State := { s.registers with ctl := .busy, lastResult := .ok }
  match i with
  | .init => { k.disarm with initFailed := false, failStep := 0, pinRst := false, seqIdx := 0, buf := [] }
  | .setWindow _ _ _ _ => { k.disarm.latchWindow 0 0 0 0 with curX := 0, curY := 0 }
  | .writeWord _ => { k.disarm with curX := 0, curY := 0 }
  | .putPixel _ _ _ => k.disarm.latchWindow 0 0 0 0
  | .fillRect _ _ _ _ _ => k.disarm.latchWindow 0 0 0 0
  | .monoSetPixel _ _ _ => { k with buf := [] }
  | .monoGetPixel _ _ => { k with rdata := 0 }
  | .monoClear => { k with buf := [] }
  | .monoFlush => k
  | .lockBuffer => { k with lock := false }
  | .unlockBuffer => { k with lock := false }
  | .reserved _ => k
  | .caset _ _ => k.disarm
  | .raset _ _ => k.disarm
  | .ramwr => k.disarm
  | .dispon => k.disarm
  | .pagePreamble _ => k.disarm
  | .tableEntry _ => k.disarm
  | .tableImage _ => k.disarm

theorem keptBy_congr {s t : State} (h : t.registers = s.registers) (i : Instr) : keptBy i t = keptBy i s := by
  have hq : ∀ q : State, keptBy i q = keptBy i q.registers := fun q => by cases i <;> rfl
  rw [hq, h, ← hq]

theorem keptBy_outcome (i : Instr) (s : State) (next : ControllerState) (code : Code) :
    keptBy i { s with ctl := next, lastResult := code } = keptBy i s := by cases i <;> rfl

theorem keptBy_opened (i : Instr) (s : State) : keptBy i (opened i s) = keptBy i s := by cases i <;> rfl

theorem keptBy_effectOf (i : Instr) (s : State) : keptBy i (effectOf i s) = keptBy i s := by cases i <;> rfl

theorem keptBy_finish (i : Instr) (s : State) : keptBy i (finish i s) = keptBy i s := by
  cases i
  case writeWord =>
    rw [finish, State.advance_eq]
    rfl
  all_goals rfl

theorem keptBy_abortState {i : Instr} (hw : usesWire i = true) (s : State) :
    keptBy i (abortState (handlerOf i) s) = keptBy i s := by
  cases i <;> first | rfl | exact absurd hw Bool.false_ne_true

theorem keptBy_disarm {i : Instr} (hi : i.surface ≠ .request) (s : State) : keptBy i s.disarm = keptBy i s := by
  cases i <;> first | rfl | exact absurd rfl hi

/-- Only INIT's script moves the reset line or `seq_idx` (10_state.md R33, R46). -/
theorem keptBy_script (i : Instr) (s q : State) : keptBy i (scriptRegisters q (scriptOf i s)) = keptBy i q := by
  by_cases hi : i = .init
  · subst hi
    obtain ⟨p, n, h⟩ := scriptRegisters_only q (scriptOf .init s)
    rw [h]
    rfl
  · rw [scriptRegisters_units (scriptOf_units hi)]

theorem keptBy_scriptFail (i : Instr) (s q : State) (k : Nat) :
    keptBy i (scriptFailRegisters q k (scriptOf i s)) = keptBy i q := by
  by_cases hi : i = .init
  · subst hi
    obtain ⟨p, n, h⟩ := scriptFailRegisters_only q k (scriptOf .init s)
    rw [h]
    rfl
  · rw [scriptFailRegisters_units (scriptOf_units hi)]

/-- The frame of every instruction. -/
theorem exec_keptBy {i : Instr} {s t : State} (h : exec i s = .next t) : keptBy i t = keptBy i s := by
  cases exec_ran h with
  | rejected _ _ ht => exact keptBy_congr (by rw [ht]; rfl) i
  | refused _ _ code _ _ ht => exact (keptBy_congr (by rw [ht]; rfl) i).trans (keptBy_outcome i s s.ctl code)
  | completed _ _ _ ht =>
    rw [ht, keptBy_congr (State.complete_registers _ _ _), ← keptBy_effectOf i s]
    exact keptBy_outcome i (effectOf i s) (effectOf i s).ctl .ok
  | succeeded _ _ _ hr _ => rw [keptBy_congr hr, keptBy_outcome, keptBy_finish, keptBy_script, keptBy_opened]
  | aborted hw _ k _ _ hr _ =>
    rw [keptBy_congr hr, keptBy_outcome, keptBy_abortState hw, keptBy_scriptFail, keptBy_opened]
  | sent _ _ hr _ => exact keptBy_congr hr i
  | stopped hi k _ _ hr _ => exact (keptBy_congr hr i).trans (keptBy_disarm hi s)

theorem usesWire_surface {i : Instr} (hw : usesWire i = true) : i.surface = .request := by
  cases i <;> first | rfl | exact absurd hw Bool.false_ne_true

/-- A word of the wire or of the ROM writes no register, but for the window that its failed byte disarms (log 8). -/
theorem exec_word_registers {i : Instr} {s t : State} (hi : i.surface ≠ .request) (h : exec i s = .next t) :
    t.registers = s.registers ∨
      (t.registers = s.disarm.registers ∧ ∃ evs b, t.trace = s.trace ++ evs ∧ Event.fail b ∈ evs) := by
  cases exec_ran h with
  | rejected hs => exact absurd hs hi
  | refused hs => exact absurd hs hi
  | completed hs => exact absurd hs hi
  | succeeded hw => exact absurd (usesWire_surface hw) hi
  | aborted hw => exact absurd (usesWire_surface hw) hi
  | sent _ _ hr _ => exact .inl hr
  | stopped _ k hk _ hr he =>
    obtain ⟨before, b, hevs, -⟩ := FailsLast.script hk
    exact .inr ⟨hr, _, b, he.trace, by simp [hevs]⟩

/-! ### Who writes a register, from the frames -/

section
variable {i : Instr} {s t : State}

theorem lock_writer (hkept : keptBy i t = keptBy i s) (hne : t.lock ≠ s.lock) : i = .lockBuffer ∨ i = .unlockBuffer := by
  cases i
  case lockBuffer => exact .inl rfl
  case unlockBuffer => exact .inr rfl
  all_goals exact absurd (congrArg State.lock hkept :) hne

/-- The failure record, the reset line and `seq_idx` are INIT's (10_state.md R33, R46, R52). -/
theorem initRecord_kept (hkept : keptBy i t = keptBy i s) (hi : i ≠ .init) :
    (t.initFailed, t.failStep, t.pinRst, t.seqIdx) = (s.initFailed, s.failStep, s.pinRst, s.seqIdx) := by
  cases i
  case init => exact absurd rfl hi
  all_goals exact (congrArg (fun q : State => (q.initFailed, q.failStep, q.pinRst, q.seqIdx)) hkept :)

theorem rdata_writer (hkept : keptBy i t = keptBy i s) (hne : t.rdata ≠ s.rdata) : ∃ x y, i = .monoGetPixel x y := by
  cases i
  case monoGetPixel x y => exact ⟨x, y, rfl⟩
  all_goals exact absurd (congrArg State.rdata hkept :) hne

theorem buf_writer (hkept : keptBy i t = keptBy i s) (hne : t.buf ≠ s.buf) :
    i = .init ∨ i = .monoClear ∨ ∃ x y v, i = .monoSetPixel x y v := by
  cases i
  case init => exact .inl rfl
  case monoClear => exact .inr (.inl rfl)
  case monoSetPixel x y v => exact .inr (.inr ⟨x, y, v, rfl⟩)
  all_goals exact absurd (congrArg State.buf hkept :) hne

theorem windowLatch_writer (hkept : keptBy i t = keptBy i s)
    (hne : (t.wx0, t.wy0, t.wx1, t.wy1) ≠ (s.wx0, s.wy0, s.wx1, s.wy1)) :
    (∃ x0 y0 x1 y1, i = .setWindow x0 y0 x1 y1) ∨ (∃ x y color, i = .putPixel x y color) ∨
      ∃ x0 y0 x1 y1 color, i = .fillRect x0 y0 x1 y1 color := by
  cases i
  case setWindow => exact .inl ⟨_, _, _, _, rfl⟩
  case putPixel => exact .inr (.inl ⟨_, _, _, rfl⟩)
  case fillRect => exact .inr (.inr ⟨_, _, _, _, _, rfl⟩)
  all_goals exact absurd (congrArg (fun q : State => (q.wx0, q.wy0, q.wx1, q.wy1)) hkept :) hne

theorem cursor_writer (hkept : keptBy i t = keptBy i s) (hne : (t.curX, t.curY) ≠ (s.curX, s.curY)) :
    (∃ x0 y0 x1 y1, i = .setWindow x0 y0 x1 y1) ∨ ∃ color, i = .writeWord color := by
  cases i
  case setWindow => exact .inl ⟨_, _, _, _, rfl⟩
  case writeWord => exact .inr ⟨_, rfl⟩
  all_goals exact absurd (congrArg (fun q : State => (q.curX, q.curY)) hkept :) hne

/-- Of the requests, INIT and those of the Color variant arm or disarm the window (10_state.md R42). -/
theorem armed_writer (hkept : keptBy i t = keptBy i s) (hi : i.surface = .request)
    (hne : t.armed ≠ s.armed ∨ t.remaining ≠ s.remaining) : i = .init ∨ colorOnly i := by
  cases i
  case init => exact .inl rfl
  case setWindow | writeWord | putPixel | fillRect => exact .inr trivial
  case caset | raset | ramwr | dispon | pagePreamble | tableEntry | tableImage => cases hi
  all_goals exact hne.elim (absurd (congrArg State.armed hkept :)) (absurd (congrArg State.remaining hkept :))

theorem latch_kept (hkept : keptBy i t = keptBy i s) : t.latch = s.latch := by
  cases i <;> exact (congrArg State.latch hkept :)

end

/-- The window's arming, the failed byte of a word included (10_state.md R42). -/
theorem exec_armed {i : Instr} {s t : State} (h : exec i s = .next t)
    (hne : t.armed ≠ s.armed ∨ t.remaining ≠ s.remaining) :
    i = .init ∨ colorOnly i ∨ (i.surface ≠ .request ∧ t.armed = false ∧ t.remaining = 0 ∧
      ∃ evs b, t.trace = s.trace ++ evs ∧ Event.fail b ∈ evs) := by
  by_cases hi : i.surface = .request
  · exact (armed_writer (exec_keptBy h) hi hne).imp_right .inl
  · rcases exec_word_registers hi h with hr | ⟨hr, hfail⟩
    · exact hne.elim (absurd (congrArg State.armed hr :)) (absurd (congrArg State.remaining hr :))
    · exact .inr (.inr ⟨hi, (congrArg State.armed hr :), (congrArg State.remaining hr :), hfail⟩)

/-- A word has no result (log 8). -/
theorem lastResult_writer {i : Instr} {s t : State} (h : exec i s = .next t) (hne : t.lastResult ≠ s.lastResult) :
    i.surface = .request := by
  by_contra hi
  rcases exec_word_registers hi h with hr | ⟨hr, -⟩ <;> exact hne (congrArg State.lastResult hr :)

/-- Settles O52: an instruction writes nothing outside its frame (`exec_keptBy`), a word nothing but the window that its
failed byte disarms (`exec_word_registers`). -/
theorem whoWritesWhat : Obligations.WhoWritesWhat := by
  intro i s t h
  have hkept := exec_keptBy h
  refine ⟨lock_writer hkept, fun hne => ?_, rdata_writer hkept, buf_writer hkept, exec_armed h, windowLatch_writer hkept,
    cursor_writer hkept, fun hne => ?_, lastResult_writer h, exec_cfg h, latch_kept hkept⟩
  all_goals
    by_contra hi
    have hrecord := initRecord_kept hkept hi
    simp only [Prod.mk.injEq] at hrecord
    simp [hrecord] at hne

end Sys2Proof.Machine
end

section
/-! The register port (10_state.md R34, R48, R49) and the step that runs a request (10_state.md R30, R32). -/

namespace Sys2Proof.Machine

/-! ### STATUS, field by field -/

theorem ControllerState.bits_lt (c : ControllerState) : c.bits.toNat < 4 := by cases c <;> decide

theorem Code.bits_lt (c : Code) : c.bits.toNat < 8 := by cases c <;> decide

theorem State.lockBit_iff (s : State) : s.lockBit = true ↔ s.cfg.variant = .mono ∧ s.lock = true := by
  rw [State.lockBit, Bool.and_eq_true, beq_iff_eq, and_comm]

theorem State.armedBit_iff (s : State) : s.armedBit = true ↔ s.cfg.variant = .color ∧ s.armed = true := by
  rw [State.armedBit, Bool.and_eq_true, beq_iff_eq, and_comm]

/-- A field at bit `k` over a value that ends below it adds its place value. -/
theorem or_shiftLeft_toNat {a b : Byte} {n k : Nat} (ha : a.toNat = n) (hn : n < 2 ^ k) (hb : 2 ^ k * b.toNat < 256) :
    (a ||| b <<< k).toNat = n + 2 ^ k * b.toNat := by
  subst ha
  rw [BitVec.toNat_or, BitVec.toNat_shiftLeft, Nat.shiftLeft_eq, Nat.mul_comm, Nat.mod_eq_of_lt hb, Nat.or_comm,
    ← Nat.two_pow_add_eq_or_of_lt hn, Nat.add_comm]

theorem or_flagAt_toNat {a : Byte} {n k : Nat} {v : Bool} (ha : a.toNat = n) (hn : n < 2 ^ k) (hk : k < 8) :
    (a ||| flagAt k v).toNat = n + 2 ^ k * v.toNat := by
  have hplace : 2 ^ k < 256 := Nat.pow_lt_pow_right (by decide) hk
  cases v
  · exact or_shiftLeft_toNat (b := 0) ha hn (by simp)
  · exact or_shiftLeft_toNat (b := 1) ha hn (by simpa using hplace)

/-- STATUS is the sum of its fields, each at its place (10_state.md R49). -/
theorem State.status_toNat (s : State) : s.status.toNat = s.ctl.bits.toNat + 4 * s.lockBit.toNat +
    8 * s.armedBit.toNat + 16 * s.lastResult.bits.toNat + 128 * s.initFailed.toNat := by
  have hctl := s.ctl.bits_lt
  have hcode := s.lastResult.bits_lt
  have hlock := s.lockBit.toNat_lt
  have harmed := s.armedBit.toNat_lt
  have h2 := or_flagAt_toNat (k := 2) (v := s.lockBit) rfl hctl (by decide)
  have h3 := or_flagAt_toNat (k := 3) (v := s.armedBit) h2 (by omega) (by decide)
  have h4 := or_shiftLeft_toNat (k := 4) (b := s.lastResult.bits) h3 (by omega) (by omega)
  exact or_flagAt_toNat (k := 7) h4 (by omega) (by decide)

/-- Bit `k` of a byte, read off its number. -/
theorem getLsbD_iff_toNat (b : Byte) (k : Nat) : b.getLsbD k = true ↔ b.toNat / 2 ^ k % 2 = 1 := by
  rw [BitVec.getLsbD, Nat.testBit_eq_decide_div_mod_eq, decide_eq_true_eq]

/-- Each field is read back from the sum: no field reaches the next one's place. -/
theorem State.status_fields (s : State) :
    (s.status.extractLsb' 0 2).toNat = s.ctl.bits.toNat ∧ (s.status.getLsbD 2 = true ↔ s.lockBit = true) ∧
      (s.status.getLsbD 3 = true ↔ s.armedBit = true) ∧ (s.status.extractLsb' 4 3).toNat = s.lastResult.bits.toNat ∧
      (s.status.getLsbD 7 = true ↔ s.initFailed = true) := by
  have hctl := s.ctl.bits_lt
  have hcode := s.lastResult.bits_lt
  have hlock := s.lockBit.toNat_lt
  have harmed := s.armedBit.toNat_lt
  have hfailed := s.initFailed.toNat_lt
  simp only [getLsbD_iff_toNat, BitVec.extractLsb'_toNat, Nat.shiftRight_eq_div_pow, State.status_toNat]
  simp only [← Bool.toNat_eq_one]
  refine ⟨?_, ?_, ?_, ?_, ?_⟩ <;> omega

/-- Settles O3: the fields of STATUS (`State.status_fields`) and the encodings of their values. -/
theorem statusFields : Obligations.StatusFields := by
  intro s
  obtain ⟨hctl, hlock, harmed, hcode, hfailed⟩ := s.status_fields
  refine ⟨?_, hlock.trans s.lockBit_iff, harmed.trans s.armedBit_iff, ?_, hfailed⟩
  · rw [hctl]
    cases s.ctl <;> rfl
  · rw [hcode]
    cases s.lastResult <;> rfl

/-! ### The register port -/

theorem cfgKind_toNat (c : Cfg) : (cfgKind c).toNat =
    (match c.variant with | .color => 0 | .mono => 1) +
    2 * (match c.transport with | .spiHw => 0 | .spiSw => 1 | .i2cHw => 2 | .i2cSw => 3) +
    8 * (if c.hasResetPin = true then 1 else 0) := by
  have htransport : (transportBits c.transport).toNat < 4 := by cases c.transport <;> decide
  have hvariant := (c.variant == .mono).toNat_lt
  have h0 : (flagAt 0 (c.variant == .mono)).toNat = (c.variant == .mono).toNat := by
    cases c.variant <;> rfl
  have h1 := or_shiftLeft_toNat (k := 1) (b := transportBits c.transport) h0 hvariant (by omega)
  have h3 := or_flagAt_toNat (k := 3) (v := c.hasResetPin) h1 (by omega) (by decide)
  refine h3.trans (congrArg₂ _ (congrArg₂ _ ?_ (congrArg _ ?_)) (congrArg _ ?_))
  · cases c.variant <;> rfl
  · cases c.transport <;> rfl
  · cases c.hasResetPin <;> rfl

/-- Settles O4: each register under its number, by the port's own lemmas (`State.readReg_0` and those after it). -/
theorem registerPort : Obligations.RegisterPort := by
  intro s
  refine ⟨?_, rfl, rfl, ?_, ?_, ?_, ?_, fun reg h => s.readReg_reserved h⟩
  · rw [State.readReg_0, BitVec.toNat_setWidth_of_le (by decide)]
  · rw [State.readReg_3]
    split
    · exact append_toNat _ _
    · rfl
  · rw [State.readReg_4, BitVec.toNat_setWidth_of_le (by decide)]
  · rw [State.readReg_5]
    exact append_toNat _ _
  · rw [State.readReg_6, BitVec.toNat_setWidth_of_le (by decide)]
    exact cfgKind_toNat s.cfg

/-! ### The step that runs a request -/

/-- Settles O14: the action at the head is taken and its request put into the latch unless the block is busy. -/
theorem stepRunsRequest : Obligations.StepRunsRequest := by
  intro s r later h
  have hissue : (s.took later).issue r =
      { s with inbox := later, latch := if s.ctl = .busy then s.latch else some r } := by
    unfold State.issue State.took
    by_cases hb : s.ctl = .busy
    · simp only [hb, reduceIte]
    · simp only [hb, reduceIte]
  rw [step, h, ← hissue]

end Sys2Proof.Machine
end

section
/-! Framing of the trace (20_memory.md R89, R90; 43_control.md R456). -/

namespace Sys2Proof.Machine

/-- A framed segment after a framed trace. -/
theorem State.wellFramed.append {s t : State} {evs : List Event} (hs : s.wellFramed) (hc : t.cfg = s.cfg)
    (ht : t.trace = s.trace ++ evs) (hf : Framed s.cfg evs) : t.wellFramed := by
  unfold State.wellFramed at *
  rw [hc, ht, framingAfter_append, hs]
  exact hf.1

/-- Every instruction keeps the framing, and a released chip-select released. -/
theorem exec_keepsFraming {i : Instr} {s t : State} (h : exec i s = .next t) :
    (s.wellFramed → t.wellFramed) ∧ (s.pinCs = false → t.pinCs = false) := by
  obtain ⟨evs, htrace, hpins, hframed⟩ := exec_framed h
  refine ⟨fun hs => hs.append (exec_cfg h) htrace hframed, fun hcs => ?_⟩
  have hreleased := hframed.2 (s.pinCs, s.pinDc) hcs
  rwa [← hpins] at hreleased

/-- Settles O49: a step runs an instruction, whose segment is framed (`exec_framed`), or it appends no event and moves no
pin. -/
theorem stepKeepsFraming : Obligations.StepKeepsFraming := by
  intro s t h
  rcases step_cases h with ⟨i, later, l, hexec⟩ | ⟨later, rs, rfl⟩
  · have hkept := exec_keepsFraming hexec
    exact hkept
  · exact ⟨id, id⟩

end Sys2Proof.Machine
end

section
/-! Hardware and software transport (20_memory.md R95): an instruction commutes with the exchange of the transport. -/

namespace Sys2Proof.Machine

/-- An outcome with another configuration in its next state. -/
def withCfgOutcome (c : Cfg) : Host.Outcome State Fault Refusal → Host.Outcome State Fault Refusal
  | .next t => .next (t.withCfg c)
  | .fault f => .fault f
  | .refused r => .refused r

section
variable {c : Cfg} {s : State}

theorem pageCount_twin {d : Cfg} (h : Twin c d) : c.pageCount = d.pageCount := by
  rw [Cfg.pageCount, Cfg.pageCount, h.variant, h.height]

theorem opened_withCfg (i : Instr) : opened i (s.withCfg c) = (opened i s).withCfg c := by
  cases i <;> rfl

/-- The end of a request writes the same under both transports: INIT looks at the variant only. -/
theorem finish_withCfg (i : Instr) (ht : Twin c s.cfg) : finish i (s.withCfg c) = (finish i s).withCfg c := by
  obtain ⟨_, _, rfl⟩ := ht.form
  cases i
  case writeWord => simp only [finish, State.advance_eq, State.withCfg]
  all_goals rfl

theorem effectOf_withCfg (i : Instr) (ht : Twin c s.cfg) : effectOf i (s.withCfg c) = (effectOf i s).withCfg c := by
  obtain ⟨_, _, rfl⟩ := ht.form
  cases i <;> rfl

theorem valueOf_withCfg (i : Instr) (ht : Twin c s.cfg) : valueOf i (s.withCfg c) = valueOf i s := by
  obtain ⟨_, _, rfl⟩ := ht.form
  cases i <;> rfl

/-- Acceptance decides the same, so a request does the same where its body does. -/
theorem request_withCfg (i : Instr) {body : State → State} (ht : Twin c s.cfg)
    (hbody : body (s.withCfg c) = (body s).withCfg c) :
    request i body (s.withCfg c) = (request i body s).withCfg c := by
  unfold request
  rw [acceptance_withCfg i s ht]
  cases acceptance i s with
  | reject => rfl
  | refuse code => rfl
  | accept => exact hbody

/-- A request that uses the wire: its script, its end and its abort. -/
theorem exec_wire_withCfg {i : Instr} (hw : usesWire i = true) (h : s.arrivals = []) (ht : Twin c s.cfg) :
    exec i (s.withCfg c) = withCfgOutcome c (exec i s) := by
  have hopened : (opened i s).cfg = s.cfg := opened_cfg i s
  rw [exec_wire hw, exec_wire hw]
  refine congrArg Host.Outcome.next (request_withCfg i ht ?_)
  rw [scriptOf_withCfg ht i s rfl, opened_withCfg]
  refine tryScript_withCfg _ _ (fun q hq hcfg => ?_) ((opened_sameWire i s).arrivals.trans h) (hopened ▸ ht)
  rw [finish_withCfg i (by rw [hcfg, hopened]; exact ht)]
  exact release_withCfg _ _ ((finish_sameWire i q).arrivals.trans hq)

/-- A request that emits no event; of a reserved opcode acceptance is all there is. -/
theorem exec_local_withCfg {i : Instr} (hw : usesWire i = false) (hi : i.surface = .request) (ht : Twin c s.cfg) :
    exec i (s.withCfg c) = withCfgOutcome c (exec i s) := by
  by_cases hr : ∃ op, i = .reserved op
  · obtain ⟨op, rfl⟩ := hr
    exact congrArg Host.Outcome.next (request_withCfg _ ht rfl)
  · rw [not_exists] at hr
    rw [exec_local hw hi hr, exec_local hw hi hr]
    refine congrArg Host.Outcome.next (request_withCfg i ht ?_)
    rw [effectOf_withCfg i ht, valueOf_withCfg i ht]
    rfl

/-- A word of the wire or of the ROM; of PAGE_PREAMBLE both faults depend on the page count and the controller state. -/
theorem exec_word_withCfg {i : Instr} (hi : i.surface ≠ .request) (h : s.arrivals = []) (ht : Twin c s.cfg) :
    exec i (s.withCfg c) = withCfgOutcome c (exec i s) := by
  have hword : performAlone (scriptOf i (s.withCfg c)) (s.withCfg c) = (performAlone (scriptOf i s) s).withCfg c := by
    rw [scriptOf_withCfg ht i s rfl, performAlone_withCfg _ h ht]
  cases i <;> first | exact absurd rfl hi | skip
  case pagePreamble p =>
    have hpages : (s.withCfg c).cfg.pageCount = s.cfg.pageCount := pageCount_twin ht
    have hctl : (s.withCfg c).ctl = s.ctl := rfl
    simp only [exec, execPagePreamble, hpages, hctl]
    split
    · rfl
    split
    · rfl
    exact congrArg Host.Outcome.next hword
  all_goals exact congrArg Host.Outcome.next hword

/-- Every instruction commutes with the exchange of the transport. -/
theorem exec_withCfg (i : Instr) (h : s.arrivals = []) (ht : Twin c s.cfg) :
    exec i (s.withCfg c) = withCfgOutcome c (exec i s) := by
  by_cases hi : i.surface = .request
  · cases hw : usesWire i with
    | true => exact exec_wire_withCfg hw h ht
    | false => exact exec_local_withCfg hw hi ht
  · exact exec_word_withCfg hi h ht

end

/-- Settles O56: an instruction commutes with the exchange of the transport (`exec_withCfg`), and the pins and the I2C bytes
are functions of the trace and of what the two configurations share. -/
theorem transportsAgree : Obligations.TransportsAgree := by
  intro i s c h hspi hraw
  have ht : Twin c s.cfg := ⟨hspi, hraw⟩
  have hexec := exec_withCfg i h ht
  cases he : exec i s with
  | next t =>
    rw [he] at hexec
    have htwin : Twin c t.cfg := exec_cfg he ▸ ht
    exact ⟨hexec, pinTrace_withCfg htwin, i2cTrace_withCfg htwin⟩
  | fault f => exact hexec.trans (congrArg _ he)
  | refused r => exact hexec.trans (congrArg _ he)

end Sys2Proof.Machine
end

section
/-! Pins, waits and units on the wire (20_memory.md R82 to R86, R93 to R95; 30_encoding.md R134). -/

namespace Sys2Proof.Machine

/-- With no host action waiting, an event is appended and drives its pin, and nothing else happens. -/
theorem State.emit_of_no_arrivals {s : State} (h : s.arrivals = []) (e : Event) :
    s.emit e = ({ s with traceRev := e :: s.traceRev } : State).drive e := by
  rw [State.emit, State.gap_of_no_arrivals h]

/-- Settles O43: each of the two primitives is one event (`State.emit_of_no_arrivals`) or, for `Wait(0)`, none. -/
theorem pinAndWait : Obligations.PinAndWait := by
  intro s level n h
  refine ⟨?_, rfl, fun hn => ?_⟩
  · rw [doAct, State.emit_of_no_arrivals h]
    rfl
  · rw [doAct, waitFor, if_neg hn, State.emit_of_no_arrivals h]
    rfl

/-! ### A unit on a bus that answers ok, and on one that fails within it -/

theorem sendUnit_ok {s : State} {k : Kind} {payload : List Byte} (h : s.busOk (unitBytes s.cfg k payload).length) :
    ∃ t, sendUnit k payload s = (t, .ok) ∧
      Wired s t s (unitEvents s.cfg k payload) (unitBytes s.cfg k payload).length := by
  rcases sendUnit_cases k payload s with ⟨-, hsent⟩ | ⟨j, hj, hfails, -⟩
  · exact hsent
  · exact absurd hfails (State.busOk_not_fails h hj)

theorem sendUnit_fails {s : State} {k : Kind} {payload : List Byte} {j : Nat}
    (hj : j < (unitBytes s.cfg k payload).length) (h : s.busFailsAt j) :
    ∃ t, sendUnit k payload s = (t, .fail) ∧ Wired s t s (unitFailEvents s.cfg k payload j) (j + 1) := by
  rcases sendUnit_cases k payload s with ⟨hok, -⟩ | ⟨i, -, hfails, hsent⟩
  · exact absurd h (State.busOk_not_fails hok hj)
  · rwa [State.busFailsAt_unique hfails h] at hsent

section
variable {c : Cfg}

theorem unitBytes_spi (h : c.transport.isSpi = true) (k : Kind) (payload : List Byte) :
    unitBytes c k payload = payload := by simp [unitBytes, h]

theorem unitBytes_i2c (h : c.transport.isSpi = false) (k : Kind) (payload : List Byte) :
    unitBytes c k payload = controlByte c k :: payload := by simp [unitBytes, h]

theorem unitEvents_spi (h : c.transport.isSpi = true) (k : Kind) (payload : List Byte) :
    unitEvents c k payload = .dc k :: .csAssert :: (payload.map .byte ++ [.csDeassert]) := by
  simp [unitEvents, openEvents, closeEvents, unitBytes_spi, h]

theorem unitEvents_i2c (h : c.transport.isSpi = false) (k : Kind) (payload : List Byte) :
    unitEvents c k payload = .i2cStart :: .byte (controlByte c k) :: (payload.map .byte ++ [.i2cStop]) := by
  simp [unitEvents, openEvents, closeEvents, unitBytes_i2c, h]

/-- The events of a unit whose byte write after `sent` fails. -/
theorem unitFailEvents_of_unitBytes {k : Kind} {payload sent after : List Byte} {b : Byte}
    (h : unitBytes c k payload = sent ++ b :: after) :
    unitFailEvents c k payload sent.length = openEvents c k ++ sent.map .byte ++ [.fail b] ++ closeEvents c := by
  simp [unitFailEvents, h]

theorem unitFailEvents_spi (h : c.transport.isSpi = true) (k : Kind) (before after : List Byte) (b : Byte) :
    unitFailEvents c k (before ++ b :: after) before.length =
      .dc k :: .csAssert :: (before.map .byte ++ [.fail b, .csDeassert]) := by
  rw [unitFailEvents_of_unitBytes (unitBytes_spi h k _)]
  simp [openEvents, closeEvents, h]

/-- On I2C the control byte is the first that can fail. -/
theorem unitFailEvents_i2c_control (h : c.transport.isSpi = false) (k : Kind) (payload : List Byte) :
    unitFailEvents c k payload 0 = [.i2cStart, .fail (controlByte c k), .i2cStop] := by
  rw [show 0 = ([] : List Byte).length from rfl, unitFailEvents_of_unitBytes (unitBytes_i2c h k payload)]
  simp [openEvents, closeEvents, h]

theorem unitFailEvents_i2c (h : c.transport.isSpi = false) (k : Kind) (before after : List Byte) (b : Byte) :
    unitFailEvents c k (before ++ b :: after) (before.length + 1) =
      .i2cStart :: .byte (controlByte c k) :: (before.map .byte ++ [.fail b, .i2cStop]) := by
  rw [show before.length + 1 = (controlByte c k :: before).length from rfl,
    unitFailEvents_of_unitBytes (unitBytes_i2c h k _)]
  simp [openEvents, closeEvents, h]

end

/-- The SPI levels after a unit, whole or not: chip-select released, the data/command line at the unit's kind (R85, R90). -/
theorem Wired.unit_pins {s t r : State} {k : Kind} {sent : List Byte} {closing : List Event} {n : Nat}
    (hw : Wired s t r (.dc k :: .csAssert :: (sent.map .byte ++ closing)) n)
    (hclosing : pinsAfter closing (true, k == .data) = (false, k == .data)) :
    t.pinCs = false ∧ t.pinDc = (k == .data) := by
  have hpins := hw.pins
  rw [show Event.dc k :: .csAssert :: (sent.map .byte ++ closing) =
    [.dc k, .csAssert] ++ (sent.map .byte ++ closing) from rfl, pinsAfter_append, pinsAfter_append, pinsAfter_bytes] at hpins
  exact Prod.mk.inj (hpins.trans hclosing)

/-- Settles O44: a unit is whole on a bus that answers ok (`sendUnit_ok`) and closed after its first failed byte
(`sendUnit_fails`), and the events of either are those of its bus. -/
theorem unitFraming : Obligations.UnitFraming := by
  intro s k payload
  refine ⟨fun hs => ⟨fun hok => ?_, ?_⟩, fun hs control hcontrol => ?_⟩
  · obtain ⟨t, hsend, hw⟩ := sendUnit_ok (k := k) (by rwa [unitBytes_spi hs])
    rw [unitEvents_spi hs] at hw
    exact ⟨t, hsend, hw.registers, hw.trace, hw.unit_pins rfl⟩
  · rintro before after b rfl hfails
    obtain ⟨t, hsend, hw⟩ := sendUnit_fails (k := k) (payload := before ++ b :: after) (by simp [unitBytes_spi hs]) hfails
    rw [unitFailEvents_spi hs] at hw
    exact ⟨t, hsend, hw.registers, hw.trace, hw.unit_pins rfl⟩
  · obtain rfl : control = controlByte s.cfg k := by
      rw [hcontrol]
      cases k <;> rfl
    refine ⟨fun hok => ?_, fun hfails => ?_, ?_⟩
    · obtain ⟨t, hsend, hw⟩ := sendUnit_ok (k := k) (by rwa [unitBytes_i2c hs])
      rw [unitEvents_i2c hs] at hw
      exact ⟨t, hsend, hw.registers, hw.trace⟩
    · obtain ⟨t, hsend, hw⟩ := sendUnit_fails (k := k) (payload := payload) (by simp [unitBytes_i2c hs]) hfails
      rw [unitFailEvents_i2c_control hs] at hw
      exact ⟨t, hsend, hw.registers, hw.trace⟩
    · rintro before after b rfl hfails
      obtain ⟨t, hsend, hw⟩ := sendUnit_fails (k := k) (payload := before ++ b :: after) (by simp [unitBytes_i2c hs]) hfails
      rw [unitFailEvents_i2c hs] at hw
      exact ⟨t, hsend, hw.registers, hw.trace⟩

/-! ### The SPI pins and the I2C bytes under one more event -/

section
variable {s t : State}

theorem pinTrace_event {e : Event} (hs : s.cfg.transport.isSpi = true) (hc : t.cfg = s.cfg) (ht : t.trace = s.trace ++ [e])
    (he : ∀ b, e ≠ .fail b) : t.pinTrace = some (pinSteps 0 s.trace ++ eventSteps 0 e) := by
  rw [pinTrace_append hs hc ht]
  cases e
  case fail b => exact absurd rfl (he b)
  all_goals simp [pinSteps]

/-- Of a failed byte some first bit-steps took place (20_memory.md R94, log 14). -/
theorem pinTrace_fail {b : Byte} (hs : s.cfg.transport.isSpi = true) (hc : t.cfg = s.cfg)
    (ht : t.trace = s.trace ++ [.fail b]) :
    ∃ done, done ≤ 8 ∧ t.pinTrace = some (pinSteps 0 s.trace ++ (byteSteps b).take (3 * done)) := by
  obtain ⟨done, hle, hsteps⟩ := failSteps_prefix b (Config.bitsBeforeFail (failsIn s.trace))
  refine ⟨done, hle, ?_⟩
  rw [pinTrace_append hs hc ht, ← hsteps]
  simp [pinSteps, eventSteps]

/-- A failed byte stands on the wire or not (20_memory.md R88, log 14). -/
theorem i2cTrace_fail {b : Byte} (hs : s.cfg.transport.isSpi = false) (hc : t.cfg = s.cfg)
    (ht : t.trace = s.trace ++ [.fail b]) :
    t.i2cTrace = some (i2cBytes s.cfg 0 s.trace ++ [b]) ∨ t.i2cTrace = some (i2cBytes s.cfg 0 s.trace) := by
  rw [i2cTrace_append hs hc ht]
  by_cases hall : 8 ≤ Config.bitsBeforeFail (failsIn s.trace)
  · exact .inl (by simp [i2cBytes, hall])
  · exact .inr (by simp [i2cBytes, hall])

/-- A whole unit on the SPI pins. -/
theorem sendUnit_pinTrace {k : Kind} {payload : List Byte} (hs : s.cfg.transport.isSpi = true)
    (hok : s.busOk payload.length) : ∃ t : State, sendUnit k payload s = (t, .ok) ∧ t.pinTrace =
      some (pinSteps 0 s.trace ++ .dc (k == .data) :: .cs true :: (payload.flatMap byteSteps ++ [.cs false])) := by
  obtain ⟨t, hsend, hw⟩ := sendUnit_ok (k := k) (by rwa [unitBytes_spi hs])
  exact ⟨t, hsend, by rw [pinTrace_append hs hw.cfg hw.trace, pinSteps_unit hs]⟩

/-- A whole unit on the I2C wire (30_encoding.md R134). -/
theorem sendUnit_i2cTrace {k : Kind} {payload : List Byte} (hs : s.cfg.transport.isSpi = false)
    (hok : s.busOk (payload.length + 1)) : ∃ t : State, sendUnit k payload s = (t, .ok) ∧ t.i2cTrace =
      some (i2cBytes s.cfg 0 s.trace ++ i2cAddressByte s.cfg :: controlByte s.cfg k :: payload) := by
  obtain ⟨t, hsend, hw⟩ := sendUnit_ok (k := k) (by rwa [unitBytes_i2c hs])
  exact ⟨t, hsend, by rw [i2cTrace_append hs hw.cfg hw.trace, i2cBytes_unit hs]⟩

end

/-- Settles O45: both sequences follow the trace event by event (`pinTrace_append`, `i2cTrace_append`), and a unit's events
are those of `sendUnit_ok`. -/
theorem bitBangedByte : Obligations.BitBangedByte := by
  refine ⟨fun b => rfl, fun s hs => ?_, fun s hs => ?_⟩
  · refine ⟨by simp [State.i2cTrace, hs], pinSteps 0 s.trace, by simp [State.pinTrace, hs], fun h => by rw [h]; rfl,
      fun t e hc ht => ?_, fun k payload hok => sendUnit_pinTrace hs hok⟩
    cases e
    case fail b => exact pinTrace_fail hs hc ht
    all_goals simpa [eventSteps] using pinTrace_event hs hc ht (by simp)
  · refine ⟨by simp [State.pinTrace, hs], i2cBytes s.cfg 0 s.trace, by simp [State.i2cTrace, hs], fun h => by rw [h]; rfl,
      fun t e hc ht => ?_, fun k payload hok => ?_⟩
    · rw [← i2cAddressByte_eq]
      cases e
      case fail b => exact i2cTrace_fail hs hc ht
      all_goals simpa [i2cBytes] using i2cTrace_append hs hc ht
    · obtain ⟨t, hsend, hwire⟩ := sendUnit_i2cTrace (k := k) hs hok
      refine ⟨t, hsend, ?_⟩
      rw [hwire, i2cAddressByte_eq]
      cases k <;> rfl

end Sys2Proof.Machine
end

section
/-! The panel after a flush (20_memory.md R109; 42_mono_buffer.md R404). -/

namespace Sys2Proof.Machine

/-- An accepted request on a bus that answers ok runs its whole script. -/
theorem exec_succeeds {i : Instr} {s : State} (hw : usesWire i = true) (ha : acceptance i s = .accept)
    (hok : s.busOk (scriptWrites s.cfg (scriptOf i s))) : ∃ t : State, exec i s = .next t ∧
      Ended s t (scriptEvents s.cfg (scriptOf i s)) (scriptWrites s.cfg (scriptOf i s)) .ok 0 := by
  have hexec := exec_wire hw s
  rw [request_accept ha] at hexec
  obtain ⟨t, ht, -, hended⟩ := tryScript_ok (h := handlerOf i) (next := .ready) (opened_sameWire i s) (opened_ctl i s)
    (opened_cfg i s) (finish_sameWire i) (finish_ctl i) (finish_registers i) hok
  exact ⟨t, hexec.trans (congrArg Host.Outcome.next ht), hended⟩

/-- MONO_FLUSH on a bus that answers ok sends the units of every page. -/
theorem monoFlush_trace {s : State} (hctl : s.ctl = .ready) (hv : s.cfg.variant = .mono) (hlock : s.lock = false)
    (hok : s.busOk (unitsWrites s.cfg (flushUnits s.cfg s.buf))) : ∃ t : State, exec .monoFlush s = .next t ∧
      t.trace = s.trace ++ unitsEvents s.cfg (flushUnits s.cfg s.buf) := by
  obtain ⟨hevents, hwrites, -⟩ := unitsScript (c := s.cfg) (flushUnits_single s.cfg s.buf)
  rw [← flushScript_units_eq] at hevents hwrites
  have haccept : acceptance .monoFlush s = .accept :=
    acceptance_of (by simp [hctl]) (by simp [legalIn, hv]) (by simp [hctl]) (by simp [needsArmed]) rfl fun _ => hlock
  obtain ⟨t, hexec, hended⟩ := exec_succeeds rfl haccept (by rw [← hwrites] at hok; exact hok)
  exact ⟨t, hexec, hevents ▸ hended.trace⟩

theorem pageBytes_getD {c : Cfg} {col : Nat} (h : col < c.width.toNat) (m : Memory) (p : Nat) :
    (pageBytes c m p).getD col 0 = Memory.read m (p * c.width.toNat + col) := by
  simp [pageBytes, h]

/-- The pages below `n` in turn: each data unit goes to its own page, the pages before it keep theirs, and no open case
occurs. -/
theorem MonoObserver.sees_pages {c : Cfg} {o : MonoObserver} (ho : o.panel.wf = true) (m : Memory) (n : Nat)
    (hpos : ∀ p, p < n → ∀ cmds : List Byte, positionedAt c (cmds ++ c.preamble p) = some p) :
    let after := (((List.range n).flatMap (pageUnits c m)).map wireUnit).foldl (MonoObserver.see c) o
    after.leftOpen = o.leftOpen ∧ ∀ p col : Nat, p < n → col < c.width.toNat →
      Memory.read after.panel (p * c.width.toNat + col) = Memory.read m (p * c.width.toNat + col) := by
  induction n with
  | zero => exact ⟨rfl, fun p col hp => absurd hp (Nat.not_lt_zero p)⟩
  | succ n ih =>
    obtain ⟨hopen, hread⟩ := ih fun p hp => hpos p (Nat.lt_succ_of_lt hp)
    have hwf := MonoObserver.sees_wf c ho (((List.range n).flatMap (pageUnits c m)).map wireUnit)
    rw [List.range_succ, List.flatMap_append, List.flatMap_singleton, List.map_append, List.foldl_append,
      MonoObserver.sees_page (hpos n (Nat.lt_succ_self n) _)]
    refine ⟨hopen, fun p col hp hcol => ?_⟩
    rw [storeFrom_read hwf, pageBytes_length]
    rcases Nat.lt_succ_iff_lt_or_eq.1 hp with hlt | rfl
    · have hbefore : (p + 1) * c.width.toNat ≤ n * c.width.toNat := Nat.mul_le_mul_right _ hlt
      rw [Nat.succ_mul] at hbefore
      rw [if_neg (by omega), hread p col hlt hcol]
    · rw [if_pos (by omega), Nat.add_sub_cancel_left, pageBytes_getD hcol]

/-- Settles O60: a flush sends its pages (`monoFlush_trace`), and the observer puts each where its preamble says
(`MonoObserver.sees_pages`). -/
theorem panelAfterFlush : Obligations.PanelAfterFlush := by
  intro s hctl hv hlock hok hpos
  obtain ⟨t, hexec, htrace⟩ := monoFlush_trace hctl hv hlock hok
  refine ⟨t, hexec, ?_⟩
  rw [htrace, observeMono_append]
  exact MonoObserver.sees_pages (observeMono_wf s.cfg s.trace) s.buf s.cfg.pageCount hpos

end Sys2Proof.Machine
end

section
/-! The encodings: requests, ROM records, table images and wire words, decoded and encoded (30_encoding.md R120 to R139). -/

namespace Sys2Proof

/-- A decoder followed by a function succeeds exactly when the decoder does. -/
theorem exceptMap_eq_ok_iff {ε α β : Type} {f : α → β} {x : Except ε α} {b : β} :
    x.map f = .ok b ↔ ∃ a, x = .ok a ∧ f a = b := by
  cases x <;> simp [Except.map]

/-! ### Bytes of a 16-bit value (30_encoding.md R139) -/

theorem hiByte_ofNat (n : Nat) : hiByte (BitVec.ofNat 16 n) = BitVec.ofNat 8 (n / 256) := by
  apply BitVec.eq_of_toNat_eq
  rw [hiByte_toNat, BitVec.toNat_ofNat, BitVec.toNat_ofNat]
  omega

theorem loByte_ofNat (n : Nat) : loByte (BitVec.ofNat 16 n) = BitVec.ofNat 8 (n % 256) := by
  apply BitVec.eq_of_toNat_eq
  rw [loByte_toNat, BitVec.toNat_ofNat, BitVec.toNat_ofNat]
  omega

theorem hiByte_eq_ofNat (v : Half) : hiByte v = BitVec.ofNat 8 (v.toNat / 256) := by
  rw [← hiByte_ofNat, BitVec.ofNat_toNat, BitVec.setWidth_eq]

theorem loByte_eq_ofNat (v : Half) : loByte v = BitVec.ofNat 8 (v.toNat % 256) := by
  rw [← loByte_ofNat, BitVec.ofNat_toNat, BitVec.setWidth_eq]

theorem eq_joinBytes_iff (v : Half) (a b : Byte) : v = joinBytes a b ↔ v.toNat = a.toNat * 256 + b.toNat := by
  rw [← joinBytes_toNat, BitVec.toNat_inj]

/-! ### Requests (30_encoding.md R120 to R125) -/

/-- The bytes that are a request are its own. -/
theorem requestOfBytes_iff (bs : List Byte) (r : Request) : requestOfBytes bs = .ok r ↔ bs = bytesOfRequest r := by
  constructor
  · intro h
    unfold requestOfBytes at h
    split at h
    · cases h
      simp [bytesOfRequest]
    · cases h
  · rintro rfl
    exact requestOfBytes_bytesOfRequest r

/-- Settles O8: the bytes of a request are `bytesOfRequest` (`requestOfBytes_iff`), each operand the bytes it joins. -/
theorem requestBytes : Obligations.RequestBytes := by
  intro bs r
  simp only [requestOfBytes_iff, ← eq_joinBytes_iff]
  constructor
  · intro h
    exact ⟨(hiByte r.op0, loByte r.op0), (hiByte r.op1, loByte r.op1), (hiByte r.op2, loByte r.op2),
      (hiByte r.op3, loByte r.op3), (hiByte r.op4, loByte r.op4), h, by simp⟩
  · rintro ⟨a, b, c, d, e, rfl, h0, h1, h2, h3, h4⟩
    simp [bytesOfRequest, h0, h1, h2, h3, h4]

/-- The opcodes without a request (30_encoding.md R123) are read as reserved, whatever the operands. -/
theorem decodeRequest_of_reserved {r : Request}
    (h : r.op = 0x00 ∨ (0x06 ≤ r.op ∧ r.op ≤ 0x0F) ∨ (0x14 ≤ r.op ∧ r.op ≤ 0x1F) ∨ 0x22 ≤ r.op) :
    decodeRequest r = .reserved r.op := by
  unfold decodeRequest
  split
  case h_12 => rfl
  all_goals bv_omega

theorem reservedOp_iff (op : Byte) : reservedOp op = true ↔
    op = 0x00 ∨ (0x06 ≤ op ∧ op ≤ 0x0F) ∨ (0x14 ≤ op ∧ op ≤ 0x1F) ∨ 0x22 ≤ op := by
  simp only [reservedOp, Bool.or_eq_true, Bool.and_eq_true, beq_iff_eq, decide_eq_true_eq, or_assoc]

/-- Settles O7: each opcode of R122 is its arm of `decodeRequest`, and R123's are `decodeRequest_of_reserved`. -/
theorem opcodeMap : Obligations.OpcodeMap := fun _ _ _ _ _ =>
  ⟨rfl, rfl, rfl, rfl, rfl, rfl, rfl, rfl, rfl, rfl, rfl, fun _ h => decodeRequest_of_reserved h⟩

/-- On the request surface a word is read as the record of its 11 bytes. -/
theorem decode_request_iff (c : Cfg) (bs : List Byte) (i : Instr) :
    decode c .request bs = .ok i ↔ ∃ r, requestOfBytes bs = .ok r ∧ decodeRequest r = i := exceptMap_eq_ok_iff

theorem decode_bytesOfRequest (c : Cfg) (r : Request) :
    decode c .request (bytesOfRequest r) = .ok (decodeRequest r) :=
  (decode_request_iff c _ _).2 ⟨r, requestOfBytes_bytesOfRequest r, rfl⟩

/-! ### ROM records and table images (30_encoding.md R127 to R129) -/

/-- Settles O9: `bytesOfEntry_length`, the bytes of the delays, and `decodeRecord_bytesOfEntry`. -/
theorem recordLayout : Obligations.RecordLayout := by
  intro e rest h
  refine ⟨bytesOfEntry_length e, ?_, decodeRecord_bytesOfEntry h rest⟩
  simp only [bytesOfEntry, hiByte_eq_ofNat, loByte_eq_ofNat]

theorem decodeEntry_bytesOfEntry {e : CommandEntry} (h : e.params.length ≤ 255) :
    decodeEntry (bytesOfEntry e) = .ok e := by
  have hrecord := decodeRecord_bytesOfEntry h []
  rw [List.append_nil] at hrecord
  rw [decodeEntry, hrecord]

/-- An image is read when its records use up its bytes. -/
theorem decodeImage_cons_iff (l1 l0 : Byte) (bs : List Byte) (es : List CommandEntry) :
    decodeImage (l1 :: l0 :: bs) = .ok es ↔ decodeRecords (joinBytes l1 l0).toNat bs = .ok (es, []) := by
  rw [decodeImage]
  split <;> simp_all

/-- The bytes that are a table's image are its own: the two count bytes join to the length, and the records are
`decodeRecords_iff`. -/
theorem decodeImage_iff (bs : List Byte) (es : List CommandEntry) : decodeImage bs = .ok es ↔
    es.length ≤ 65535 ∧ (∀ e ∈ es, e.params.length ≤ 255) ∧ bs = bytesOfImage es := by
  constructor
  · intro h
    match bs, h with
    | l1 :: l0 :: records, h =>
      rw [decodeImage_cons_iff, decodeRecords_iff, List.append_nil] at h
      obtain ⟨hlength, hparams, rfl⟩ := h
      have hlt := (joinBytes l1 l0).isLt
      refine ⟨by omega, hparams, ?_⟩
      rw [bytesOfImage, hlength, BitVec.ofNat_toNat, BitVec.setWidth_eq, hiByte_joinBytes, loByte_joinBytes]
  · rintro ⟨hlength, hparams, rfl⟩
    have hcount : (BitVec.ofNat 16 es.length).toNat = es.length := by
      rw [BitVec.toNat_ofNat]
      omega
    rw [bytesOfImage, decodeImage_cons_iff, joinBytes_hiByte_loByte, hcount, decodeRecords_iff]
    exact ⟨rfl, hparams, (List.append_nil _).symm⟩

/-- Settles O11: `decodeImage_iff`, which rests on the induction over the records in `decodeRecords_iff`. -/
theorem imageExact : Obligations.ImageExact := decodeImage_iff

/-- Settles O2: an image that decodes is the image of its table (`decodeImage_iff`), and any other is refused. -/
theorem imageConstruction : Obligations.ImageConstruction := by
  refine ⟨fun es => ?_, fun raw es u hlength hparams => ?_, fun raw bs u hno => ?_⟩
  · rw [bytesOfImage, hiByte_ofNat, loByte_ofNat]
  · rw [Machine.constructFromImage, (decodeImage_iff _ es).2 ⟨hlength, hparams, rfl⟩]
  · cases himage : decodeImage bs with
    | ok es =>
      obtain ⟨hlength, hparams, rfl⟩ := (decodeImage_iff bs es).1 himage
      exact absurd rfl (hno es hlength hparams)
    | error e => exact ⟨e, by rw [Machine.constructFromImage, himage]⟩

/-- Settles O12: `entryDelay_toNat`, and its two operands are 16 bits wide. -/
theorem entryDelayExact : Obligations.EntryDelayExact := by
  intro e
  have hexact := Machine.entryDelay_toNat e
  have hms := e.delayMs.isLt
  have hus := e.delayUs.isLt
  exact ⟨hexact, by omega⟩

/-! ### Wire words (30_encoding.md R131, R132, R135, R136) -/

theorem rangeOfBytes_iff (bs : List Byte) (a b : Half) : rangeOfBytes bs = .ok (a, b) ↔ bs = bytesOfRange a b := by
  constructor
  · intro h
    unfold rangeOfBytes at h
    split at h
    · cases h
      simp [bytesOfRange]
    · cases h
  · rintro rfl
    exact rangeOfBytes_bytesOfRange a b

/-- A page's preamble is looked up first (log 9). -/
theorem decodeWire_of_page {c : Cfg} {bs : List Byte} {p : Nat} (h : c.findPage bs c.pageCount 0 = some p) :
    decodeWire c bs = .ok (.pagePreamble p) := by
  simp only [decodeWire, h]

/-- Bytes that are no page's preamble are read by their command byte. -/
theorem decodeWire_of_no_page {c : Cfg} {b : Byte} {ps : List Byte} (h : c.findPage (b :: ps) c.pageCount 0 = none) :
    decodeWire c (b :: ps) =
      if b = cmdCaset then (rangeOfBytes ps).map fun r => .caset r.1 r.2
      else if b = c.cmdRaset then (rangeOfBytes ps).map fun r => .raset r.1 r.2
      else if b = c.cmdRamwr then if ps = [] then .ok .ramwr else .error .wrongParameterCount
      else if b = c.cmdDispon then if ps = [] then .ok .dispon else .error .wrongParameterCount
      else .error .noSuchCommand := by
  simp only [decodeWire, h]

/-- What a wire word can be read as, and from which bytes. -/
theorem decodeWire_cases {c : Cfg} {bs : List Byte} {i : Instr} (h : decodeWire c bs = .ok i) :
    (∃ p, i = .pagePreamble p ∧ c.findPage bs c.pageCount 0 = some p) ∨
    (∃ x0 x1, i = .caset x0 x1 ∧ bs = cmdCaset :: bytesOfRange x0 x1) ∨
    (∃ y0 y1, i = .raset y0 y1 ∧ bs = c.cmdRaset :: bytesOfRange y0 y1) ∨
    (i = .ramwr ∧ bs = [c.cmdRamwr]) ∨ (i = .dispon ∧ bs = [c.cmdDispon]) := by
  cases hpage : c.findPage bs c.pageCount 0 with
  | some p =>
    cases (decodeWire_of_page hpage).symm.trans h
    exact .inl ⟨p, rfl, rfl⟩
  | none =>
    match bs, h with
    | [], h => simp [decodeWire, hpage] at h
    | b :: ps, h =>
      rw [decodeWire_of_no_page hpage] at h
      split_ifs at h with hcaset hraset hramwr hps hdispon hps
      · obtain ⟨⟨x0, x1⟩, hrange, rfl⟩ := exceptMap_eq_ok_iff.1 h
        exact .inr (.inl ⟨x0, x1, rfl, by rw [hcaset, (rangeOfBytes_iff ps x0 x1).1 hrange]⟩)
      · obtain ⟨⟨y0, y1⟩, hrange, rfl⟩ := exceptMap_eq_ok_iff.1 h
        exact .inr (.inr (.inl ⟨y0, y1, rfl, by rw [hraset, (rangeOfBytes_iff ps y0 y1).1 hrange]⟩))
      · cases h
        exact .inr (.inr (.inr (.inl ⟨rfl, by rw [hramwr, hps]⟩)))
      · cases h
        exact .inr (.inr (.inr (.inr ⟨rfl, by rw [hdispon, hps]⟩)))

theorem decodeWire_surface {c : Cfg} {bs : List Byte} {i : Instr} (h : decodeWire c bs = .ok i) : i.surface = .wire := by
  rcases decodeWire_cases h with ⟨p, rfl, -⟩ | ⟨x0, x1, rfl, -⟩ | ⟨y0, y1, rfl, -⟩ | ⟨rfl, -⟩ | ⟨rfl, -⟩ <;> rfl

/-- `CMD_CASET` is looked at before every other command byte. -/
theorem decodeWire_caset {c : Cfg} {x0 x1 : Half}
    (h : c.findPage (cmdCaset :: bytesOfRange x0 x1) c.pageCount 0 = none) :
    decodeWire c (cmdCaset :: bytesOfRange x0 x1) = .ok (.caset x0 x1) := by
  rw [decodeWire_of_no_page h, if_pos rfl, rangeOfBytes_bytesOfRange]
  rfl

/-- Color blocks with the same command bytes read the same wire words: they have no page. -/
theorem decodeWire_color_congr {c d : Cfg} (hc : c.variant = .color) (hd : d.variant = .color)
    (hraset : c.cmdRaset = d.cmdRaset) (hramwr : c.cmdRamwr = d.cmdRamwr) (hdispon : c.cmdDispon = d.cmdDispon)
    (bs : List Byte) : decodeWire c bs = decodeWire d bs := by
  simp only [decodeWire, findPage_color hc, findPage_color hd, hraset, hramwr, hdispon]

/-- The single command bytes of the wire words (30_encoding.md R131, R136). -/
def Cfg.commandBytes (c : Cfg) : List Byte := [cmdCaset, c.cmdRaset, c.cmdRamwr, c.cmdDispon]

/-- Wire words can be told apart when the command bytes differ, the preambles differ, and each preamble begins with a byte
that is no command byte. -/
theorem Cfg.wireWordsDistinct_iff (c : Cfg) : c.wireWordsDistinct = true ↔ c.commandBytes.Nodup ∧
    ((List.range c.pageCount).map c.preamble).Nodup ∧
    ∀ p, p < c.pageCount → ∃ b bs, c.preamble p = b :: bs ∧ b ∉ c.commandBytes := by
  simp only [wireWordsDistinct, Bool.and_eq_true, decide_eq_true_eq, List.all_eq_true, List.mem_range, and_assoc]
  refine and_congr Iff.rfl (and_congr Iff.rfl (forall_congr' fun p => imp_congr_right fun _ => ?_))
  cases c.preamble p with
  | nil => simp
  | cons b bs => simp [commandBytes]

/-- No preamble begins with a command byte. -/
theorem findPage_command {c : Cfg} (h : c.wireWordsDistinct = true) {b : Byte} (hb : b ∈ c.commandBytes)
    (ps : List Byte) : c.findPage (b :: ps) c.pageCount 0 = none := by
  obtain ⟨-, -, hfirst⟩ := c.wireWordsDistinct_iff.1 h
  refine findPage_none fun q _ hq heq => ?_
  obtain ⟨b', bs, hpre, hb'⟩ := hfirst q (by omega)
  rw [heq] at hpre
  cases hpre
  exact hb' hb

/-- A page is found by its preamble, which is no other page's. -/
theorem findPage_preamble {c : Cfg} (h : c.wireWordsDistinct = true) {p : Nat} (hp : p < c.pageCount) :
    c.findPage (c.preamble p) c.pageCount 0 = some p := by
  obtain ⟨-, hnodup, -⟩ := c.wireWordsDistinct_iff.1 h
  refine findPage_some (Nat.zero_le p) (by omega) rfl fun q _ hq heq => ?_
  have hqp : q = p := List.inj_on_of_nodup_map hnodup (List.mem_range.2 (by omega)) (List.mem_range.2 hp) heq
  omega

/-- The wire words are read back where they can be told apart (log 9). -/
theorem decodeWire_encode {c : Cfg} {i : Instr} (h : c.wireWordsDistinct = true) (hi : i.surface = .wire)
    (hw : i.wellFormed c = true) : decodeWire c (encode c i) = .ok i := by
  obtain ⟨hdistinct, -, -⟩ := c.wireWordsDistinct_iff.1 h
  simp only [Cfg.commandBytes, List.nodup_cons, List.mem_cons, List.not_mem_nil, or_false, not_or] at hdistinct
  obtain ⟨⟨hraset, hramwr, hdispon⟩, ⟨hramwr', hdispon'⟩, hdispon'', -⟩ := hdistinct
  cases i <;> cases hi
  case caset x0 x1 => exact decodeWire_caset (findPage_command h (by simp [Cfg.commandBytes]) _)
  case raset y0 y1 =>
    rw [encode, decodeWire_of_no_page (findPage_command h (by simp [Cfg.commandBytes]) _), if_neg (Ne.symm hraset),
      if_pos rfl, rangeOfBytes_bytesOfRange]
    rfl
  case ramwr =>
    rw [encode, decodeWire_of_no_page (findPage_command h (by simp [Cfg.commandBytes]) _), if_neg (Ne.symm hramwr),
      if_neg (Ne.symm hramwr'), if_pos rfl, if_pos rfl]
  case dispon =>
    rw [encode, decodeWire_of_no_page (findPage_command h (by simp [Cfg.commandBytes]) _), if_neg (Ne.symm hdispon),
      if_neg (Ne.symm hdispon'), if_neg (Ne.symm hdispon''), if_pos rfl, if_pos rfl]
  case pagePreamble p =>
    exact decodeWire_of_page (findPage_preamble h (of_decide_eq_true hw))

/-- Settles O10: a request is read back from its record (`decode_bytesOfRequest`), a wire word where the wire words can be
told apart (`decodeWire_encode`), a ROM record from its layout (`decodeEntry_bytesOfEntry`, `decodeImage_iff`). -/
theorem decodeEncode : Obligations.DecodeEncode := by
  intro c i h hw
  cases i
  case monoSetPixel x y v =>
    have hbit : ∀ v : BitVec 1, (v.setWidth 16).extractLsb' 0 1 = v := by decide
    rw [encode, Instr.surface, decode_bytesOfRequest]
    exact congrArg (fun v => Except.ok (Instr.monoSetPixel x y v)) (hbit v)
  case reserved op =>
    rw [encode, Instr.surface, decode_bytesOfRequest, decodeRequest_of_reserved ((reservedOp_iff op).1 hw)]
  case caset | raset | ramwr | dispon | pagePreamble => exact decodeWire_encode h rfl hw
  case tableEntry e =>
    rw [encode, Instr.surface, decode, decodeEntry_bytesOfEntry (of_decide_eq_true hw)]
    rfl
  case tableImage es =>
    simp only [Instr.wellFormed, CommandEntry.check, Bool.and_eq_true, decide_eq_true_eq, List.all_eq_true] at hw
    rw [encode, Instr.surface, decode, (decodeImage_iff _ es).2 ⟨hw.1, hw.2, rfl⟩]
    rfl
  all_goals exact decode_bytesOfRequest c _

/-- Settles O6: the decoders evaluate on the words written out. -/
theorem decodesSpecWords : Obligations.DecodesSpecWords := by
  unfold Obligations.DecodesSpecWords
  decide

end Sys2Proof
end

section
/-! Words given as bytes, words of the opcode table, and words run by themselves (30_encoding.md R120 to R135; logs 6, 8
and 10). -/

namespace Sys2Proof.Machine

/-! ### The reserved opcodes (30_encoding.md R123) -/

theorem acceptance_reserved {s : State} (h : s.ctl ≠ .busy) (op : Byte) :
    acceptance (.reserved op) s = .refuse .illegalRequest := by
  simp [acceptance, h, legalIn]

/-- Settles O20: `decodeRequest_of_reserved`, and acceptance refuses what is legal in no variant. -/
theorem reservedOpcode : Obligations.ReservedOpcode := fun op _ _ _ _ _ hop =>
  ⟨decodeRequest_of_reserved hop, fun _ hs =>
    congrArg Host.Outcome.next (request_refuse (acceptance_reserved hs op) id)⟩

/-! ### A step on a word given as bytes (log 8) -/

theorem step_sequence {s : State} {surface : Surface} {bytes : List Byte} {later : List HostAct} {i : Instr}
    (h : s.inbox = .sequence surface bytes :: later) (hi : decode s.cfg surface bytes = .ok i) :
    step s = exec i ((s.took later).issueBytes surface bytes) := by
  rw [step, h]
  simp only [hi]

theorem step_undecodable {s : State} {surface : Surface} {bytes : List Byte} {later : List HostAct} {e : DecodeError}
    (h : s.inbox = .sequence surface bytes :: later) (he : decode s.cfg surface bytes = .error e) :
    step s = .refused (.undecodable e) := by
  rw [step, h]
  simp only [he]

/-- Only a request's bytes write the latch. -/
theorem State.issueBytes_of_ne_request {surface : Surface} (h : surface ≠ .request) (bytes : List Byte) (s : State) :
    s.issueBytes surface bytes = s := by
  cases surface
  case request => exact absurd rfl h
  all_goals rfl

theorem State.issueBytes_request {bytes : List Byte} {r : Request} (h : requestOfBytes bytes = .ok r) (s : State) :
    s.issueBytes .request bytes = s.issue r := by
  simp only [State.issueBytes, h]

/-- A word of the wire or of the ROM runs as what it decodes to, the latch untouched. -/
theorem step_word {s : State} {surface : Surface} {bytes : List Byte} {later : List HostAct} {i : Instr}
    (h : s.inbox = .sequence surface bytes :: later) (hs : surface ≠ .request)
    (hi : decode s.cfg surface bytes = .ok i) : step s = exec i { s with inbox := later } := by
  rw [step_sequence h hi, State.issueBytes_of_ne_request hs]
  rfl

/-- A request's 11 bytes run as its record does. -/
theorem step_requestBytes {s : State} {bytes : List Byte} {later : List HostAct} {r : Request}
    (h : s.inbox = .sequence .request bytes :: later) (hr : requestOfBytes bytes = .ok r) :
    step s = step { s with inbox := .request r :: later } := by
  rw [step_sequence h ((decode_request_iff s.cfg _ _).2 ⟨r, hr, rfl⟩), State.issueBytes_request hr]
  rfl

/-- Settles O15: `step_word`, `step_requestBytes` with the step of a record (`stepRunsRequest`), `step_undecodable`. -/
theorem stepRunsSequencerWord : Obligations.StepRunsSequencerWord := by
  intro s surface bytes later h
  refine ⟨fun i hs hi => step_word h hs hi, ?_, fun e he => step_undecodable h he⟩
  rintro r rfl hr
  have hbytes := step_requestBytes h hr
  exact ⟨(decode_request_iff s.cfg _ _).2 ⟨r, hr, rfl⟩, hbytes.trans (stepRunsRequest _ r later rfl), hbytes⟩

/-! ### Words of the opcode table (logs 6 and 10) -/

theorem surfaceOfWord_cases (nbits w : Nat) : surfaceOfWord nbits w = .request ∨ surfaceOfWord nbits w = .wire := by
  unfold surfaceOfWord
  split
  · exact .inr rfl
  · split
    · exact .inr rfl
    · exact .inl rfl

theorem decodeTableWord_iff (nbits w : Nat) (i : Instr) : decodeTableWord nbits w = some i ↔
    decode Cfg.referenceColor (surfaceOfWord nbits w) (bytesOfTableWord nbits w) = .ok i := by
  unfold decodeTableWord
  split <;> simp_all

theorem tableAct_request {nbits w : Nat} {r : Request} (hs : surfaceOfWord nbits w = .request)
    (hr : requestOfBytes (bytesOfTableWord nbits w) = .ok r) : tableAct nbits w = .request r := by
  simp only [tableAct, hs, hr]

theorem tableAct_wire {nbits w : Nat} (hs : surfaceOfWord nbits w = .wire) :
    tableAct nbits w = .sequence .wire (bytesOfTableWord nbits w) := by
  simp only [tableAct, hs]

/-- A wire word of the table is read alike by every Color block where it is CASET's, and where the open command bytes are
the table's (log 10). -/
theorem decodeWire_of_table {c : Cfg} {bs : List Byte} {i : Instr} (hi : decodeWire Cfg.referenceColor bs = .ok i)
    (hc : c.variant = .color)
    (hbytes : (∃ x0 x1, i = .caset x0 x1) ∨ c.cmdRaset = 0x2B ∧ c.cmdRamwr = 0x2C ∧ c.cmdDispon = 0x29) :
    decodeWire c bs = .ok i := by
  rcases hbytes with ⟨x0, x1, rfl⟩ | ⟨hraset, hramwr, hdispon⟩
  · rcases decodeWire_cases hi with ⟨_, hne, -⟩ | ⟨_, _, heq, rfl⟩ | ⟨_, _, hne, -⟩ | ⟨hne, -⟩ | ⟨hne, -⟩
    case inr.inl =>
      cases heq
      exact decodeWire_caset (findPage_color hc _)
    all_goals cases hne
  · rw [decodeWire_color_congr (d := Cfg.referenceColor) hc rfl hraset hramwr hdispon, hi]

/-- Settles O16: a request's word is put at the head as its record (`stepRunsRequest`), a wire word as its bytes, which
every configuration of the statement reads alike (`decodeWire_of_table`). -/
theorem fetchedWordRuns : Obligations.FetchedWordRuns := by
  intro s nbits w i hi hcfg
  rw [decodeTableWord_iff] at hi
  rcases surfaceOfWord_cases nbits w with hs | hs
  · rw [hs] at hi
    obtain ⟨r, hr, rfl⟩ := (decode_request_iff _ _ _).1 hi
    refine ⟨if s.ctl = .busy then s.latch else some r, ?_, ?_⟩
    · split
      · exact .inl rfl
      · exact .inr ⟨r, rfl, rfl⟩
    · have hinbox : (s.withFetchWord nbits w).inbox = .request r :: s.inbox :=
        congrArg (· :: s.inbox) (tableAct_request hs hr)
      exact stepRunsRequest _ r s.inbox hinbox
  · rw [hs] at hi
    change decodeWire Cfg.referenceColor _ = .ok i at hi
    obtain hrequest | ⟨hc, hbytes⟩ := hcfg
    · cases (decodeWire_surface hi).symm.trans hrequest
    · have hread : decode s.cfg .wire (bytesOfTableWord nbits w) = .ok i := decodeWire_of_table hi hc hbytes
      have hinbox : (s.withFetchWord nbits w).inbox = .sequence .wire (bytesOfTableWord nbits w) :: s.inbox :=
        congrArg (· :: s.inbox) (tableAct_wire hs)
      exact ⟨s.latch, .inl rfl, step_word hinbox nofun hread⟩

/-! ### A wire command run by itself (log 8) -/

/-- What a wire command does after its units: DISPON waits (40_init_sequencer.md R206). -/
def waitAfter (c : Cfg) (i : Instr) : List Act := if i = .dispon then [.wait c.disponDelayUs] else []

theorem waitAfter_events (c : Cfg) (i : Instr) :
    scriptEvents c (waitAfter c i) = if i = .dispon then waitEvents c.disponDelayUs else [] := by
  unfold waitAfter
  split <;> simp [scriptEvents, actEvents]

theorem waitAfter_writes (c : Cfg) (i : Instr) : scriptWrites c (waitAfter c i) = 0 := by
  unfold waitAfter
  split <;> rfl

/-- `i` runs by itself in `s` as the units `us`, and waits after them if it is DISPON. -/
structure RunsUnits (i : Instr) (s : State) (us : List (Kind × List Byte)) : Prop where
  alone   : exec i s = .next (performAlone (scriptOf i s) s)
  script  : scriptOf i s = us.map unitAct ++ waitAfter s.cfg i
  single  : cmdsSingle us
  notInit : i ≠ .init

section
variable {i : Instr} {s : State} {us : List (Kind × List Byte)}

theorem RunsUnits.writes (h : RunsUnits i s us) : scriptWrites s.cfg (scriptOf i s) = unitsWrites s.cfg us := by
  rw [h.script, scriptWrites_append, (unitsScript h.single).2.1, waitAfter_writes, Nat.add_zero]

/-- On a bus that answers ok the units are sent and no register is written. -/
theorem RunsUnits.sends (h : RunsUnits i s us) (hok : s.busOk (unitsWrites s.cfg us)) :
    ∃ t : State, exec i s = .next t ∧ t.registers = s.registers ∧
      Emitted s t (unitsEvents s.cfg us ++ if i = .dispon then waitEvents s.cfg.disponDelayUs else [])
        (unitsWrites s.cfg us) := by
  obtain ⟨hregs, hemitted⟩ := performAlone_ok (h.writes ▸ hok)
  rw [scriptRegisters_units (scriptOf_units h.notInit)] at hregs
  rw [h.writes, h.script, scriptEvents_append, (unitsScript h.single).1, waitAfter_events, ← h.script] at hemitted
  exact ⟨_, h.alone, hregs, hemitted⟩

/-- A failed byte closes its unit, ends the word and disarms the window (10_state.md R42). -/
theorem RunsUnits.stops (h : RunsUnits i s us) {k : Nat} (hk : k < unitsWrites s.cfg us) (hfails : s.busFailsAt k) :
    ∃ t : State, exec i s = .next t ∧ t.registers = s.disarm.registers ∧
      Emitted s t (unitsFailEvents s.cfg k us) (k + 1) := by
  obtain ⟨-, hwrites, hfail⟩ := unitsScript (c := s.cfg) h.single
  obtain ⟨hregs, hemitted⟩ := performAlone_fails (h.writes ▸ hk) hfails
  rw [scriptFailRegisters_units (scriptOf_units h.notInit)] at hregs
  have hevents : scriptFailEvents s.cfg k (scriptOf i s) = unitsFailEvents s.cfg k us := by
    rw [h.script, scriptFailEvents_append, hwrites, if_pos hk, hfail]
  rw [hevents] at hemitted
  exact ⟨_, h.alone, hregs, hemitted⟩

end

theorem cmdsSingle_one (b : Byte) : cmdsSingle [(.cmd, [b])] := by
  intro u hu
  obtain rfl := List.mem_singleton.1 hu
  exact fun _ => ⟨b, rfl⟩

theorem cmdsSingle_command (b : Byte) (bs : List Byte) : cmdsSingle [(.cmd, [b]), (.data, bs)] :=
  cmdsSingle_append (cmdsSingle_one b) fun u hu => by
    obtain rfl := List.mem_singleton.1 hu
    exact nofun

/-- On a page the block has, once it is initialised, the page is sent. -/
theorem exec_pagePreamble {s : State} {p : Nat} (hp : p < s.cfg.pageCount) (hctl : s.ctl ≠ .uninitialized) :
    exec (.pagePreamble p) s = .next (performAlone (scriptOf (.pagePreamble p) s) s) := by
  rw [exec, execPagePreamble, if_neg (by omega), if_neg hctl]
  rfl

theorem pageCount_le_iff (c : Cfg) (p : Nat) : c.pageCount ≤ p ↔ c.variant = .color ∨ c.height.toNat / 8 ≤ p := by
  unfold Cfg.pageCount
  cases c.variant <;> simp

theorem pagePreamble_noSuchPage_iff (s : State) (p : Nat) :
    exec (.pagePreamble p) s = .fault .noSuchPage ↔ s.cfg.pageCount ≤ p := by
  rw [exec, execPagePreamble]
  split_ifs <;> simp_all

theorem pagePreamble_unreadable_iff (s : State) (p : Nat) :
    exec (.pagePreamble p) s = .fault .bufferUnreadable ↔ p < s.cfg.pageCount ∧ s.ctl = .uninitialized := by
  rw [exec, execPagePreamble]
  split_ifs <;> simp_all

/-- Settles O41: each wire command runs as its units (`RunsUnits`), and a page word stops before them in two cases. -/
theorem wireWordsSend : Obligations.WireWordsSend := by
  intro s i us hword
  have hruns : RunsUnits i s us := by
    rcases hword with ⟨x0, x1, rfl, rfl⟩ | ⟨y0, y1, rfl, rfl⟩ | ⟨rfl, rfl⟩ | ⟨rfl, rfl⟩ | ⟨p, hp, hctl, rfl, rfl⟩
    · exact ⟨rfl, rfl, cmdsSingle_command _ _, nofun⟩
    · exact ⟨rfl, rfl, cmdsSingle_command _ _, nofun⟩
    · exact ⟨rfl, rfl, cmdsSingle_one _, nofun⟩
    · exact ⟨rfl, rfl, cmdsSingle_one _, nofun⟩
    · refine ⟨exec_pagePreamble hp hctl, ?_, pageUnits_single _ _ _, nofun⟩
      rw [scriptOf, pageScript_units_eq]
      exact (List.append_nil _).symm
  refine ⟨hruns.sends, fun k hk hfails => hruns.stops hk hfails, fun p => ⟨?_, ?_⟩⟩
  · rw [pagePreamble_noSuchPage_iff, pageCount_le_iff]
  · rw [pagePreamble_unreadable_iff, ← Nat.not_le, pageCount_le_iff]
    cases s.cfg.variant <;> simp

end Sys2Proof.Machine
end

section
/-! INIT (40_init_sequencer.md R200 to R215) and the ROM records run by themselves (log 8). -/

namespace Sys2Proof.Machine

/-! ### How an accepted request that uses the wire ends, its registers included -/

theorem Alike.refl (s : State) : Alike s s := ⟨rfl, ⟨rfl, rfl⟩, rfl, rfl⟩

/-- An accepted request that uses the wire runs whole on a bus that answers ok, and leaves `succeededState`. -/
theorem exec_accepted_succeeds {i : Instr} {s : State} (hw : usesWire i = true) (ha : acceptance i s = .accept)
    (hok : s.busOk (scriptWrites s.cfg (scriptOf i s))) : ∃ t : State, exec i s = .next t ∧
      t.registers = (succeededState i s).registers ∧
      Ended s t (scriptEvents s.cfg (scriptOf i s)) (scriptWrites s.cfg (scriptOf i s)) .ok 0 := by
  obtain ⟨t, hexec, hended⟩ := exec_succeeds hw ha hok
  exact ⟨t, hexec, (exec_ok_ends hw ha hok s t (.refl s) hexec).registers, hended⟩

/-- An accepted request that uses the wire aborts at its first failed byte, write number `k`, and leaves `abortedState`
(60_exceptions.md R612). -/
theorem exec_accepted_fails {i : Instr} {s : State} {k : Nat} (hw : usesWire i = true) (ha : acceptance i s = .accept)
    (hk : k < scriptWrites s.cfg (scriptOf i s)) (hfails : s.busFailsAt k) : ∃ t : State, exec i s = .next t ∧
      t.registers = (abortedState i s k).registers ∧
      Ended s t (scriptFailEvents s.cfg k (scriptOf i s)) (k + 1) (abortCode (handlerOf i)) 0 := by
  have hexec := exec_wire hw s
  rw [request_accept ha] at hexec
  obtain ⟨t, ht, hregs, hended⟩ := tryScript_fails (opened_sameWire i s) (opened_ctl i s) (opened_cfg i s) hk hfails
  exact ⟨t, hexec.trans (congrArg Host.Outcome.next ht), hregs, hended⟩

/-! ### INIT -/

/-- INIT is accepted in both variants, whether `Uninitialized` or `Ready` (60_exceptions.md R606). -/
theorem acceptance_init {s : State} (hctl : s.ctl ≠ .busy) : acceptance .init s = .accept :=
  acceptance_of hctl rfl (fun _ => rfl) nofun rfl nofun

/-- What a successful INIT writes (40_init_sequencer.md R201, R202, R207). -/
theorem succeededState_init (s : State) : succeededState .init s = { s with
    ctl := .ready, initFailed := false, failStep := 0xFFFFFFFF, lastResult := .ok, armed := false, remaining := 0,
    seqIdx := BitVec.ofNat 32 s.cfg.initTable.length, buf := bufAfterInit s, pinRst := pinRstAfterInit s } := by
  have hscript : scriptRegisters (opened .init s) (scriptOf .init s) = _ := initScript_registers (opened .init s)
  rw [succeededState, hscript]
  rfl

/-- What an INIT writes whose byte write number `k` fails (40_init_sequencer.md R208). -/
theorem abortedState_init {s : State} {k : Nat} (hk : k < initWrites s.cfg) : abortedState .init s k = { s with
    ctl := .uninitialized, initFailed := true, failStep := BitVec.ofNat 32 (entryOfWrite s.cfg k s.cfg.initTable),
    lastResult := .initFailed, armed := false, remaining := 0,
    seqIdx := BitVec.ofNat 32 (entryOfWrite s.cfg k s.cfg.initTable), pinRst := pinRstAfterInit s } := by
  have hscript : scriptFailRegisters (opened .init s) k (scriptOf .init s) = _ :=
    initScript_failRegisters (s := opened .init s) hk
  rw [abortedState, hscript]
  rfl

/-- Settles O24: INIT's script runs whole (`exec_accepted_succeeds`) and leaves `succeededState_init`. -/
theorem initSucceeds : Obligations.InitSucceeds := by
  intro s hctl hok
  rw [← initScript_writes] at hok
  obtain ⟨t, hexec, hregs, hended⟩ := exec_accepted_succeeds (i := .init) rfl (acceptance_init hctl) hok
  rw [succeededState_init] at hregs
  rw [scriptOf, initScript_events, initScript_writes] at hended
  exact ⟨t, hexec, hregs, hended⟩

/-- Settles O25: INIT's script stops at byte write number `k` (`exec_accepted_fails`) and INIT_FAIL leaves
`abortedState_init`. -/
theorem initFails : Obligations.InitFails := by
  intro s k hctl hk hfails
  have hwrites : k < scriptWrites s.cfg (scriptOf .init s) := (initScript_writes s.cfg).symm ▸ hk
  obtain ⟨t, hexec, hregs, hended⟩ := exec_accepted_fails (i := .init) rfl (acceptance_init hctl) hwrites hfails
  rw [abortedState_init hk] at hregs
  rw [scriptOf, initScript_failEvents hk] at hended
  exact ⟨t, hexec, hregs, entryOfWrite_le _ _ _, hended⟩

/-! ### The ROM records run by themselves (log 8) -/

/-- An entry runs as the image of that entry alone. -/
theorem exec_tableEntry (e : CommandEntry) (s : State) : exec (.tableEntry e) s = exec (.tableImage [e]) s := by
  simp [exec, execTableEntry, execTableImage]

/-- On a bus that answers ok every entry is sent and no register is written (40_init_sequencer.md R203, 10_state.md R33). -/
theorem tableImage_sends {s : State} {es : List CommandEntry} (hok : s.busOk (es.map (entryWrites s.cfg)).sum) :
    ∃ t : State, exec (.tableImage es) s = .next t ∧ t.registers = s.registers ∧
      Emitted s t (es.flatMap (entryEvents s.cfg)) (es.map (entryWrites s.cfg)).sum := by
  rw [← entriesUnits_writes] at hok
  obtain ⟨hregs, hemitted⟩ := performAlone_ok hok
  rw [scriptRegisters_units (entriesUnits_isUnit es)] at hregs
  rw [entriesUnits_events, entriesUnits_writes] at hemitted
  exact ⟨_, rfl, hregs, hemitted⟩

/-- A failed byte closes its unit, ends the image and disarms the window (10_state.md R42). -/
theorem tableImage_stops {s : State} {es : List CommandEntry} {k : Nat} (hk : k < (es.map (entryWrites s.cfg)).sum)
    (hfails : s.busFailsAt k) : ∃ t : State, exec (.tableImage es) s = .next t ∧
      t.registers = s.disarm.registers ∧ Emitted s t (tableFailEvents s.cfg k es) (k + 1) := by
  have hwrites : k < scriptWrites s.cfg (es.flatMap entryUnits) := (entriesUnits_writes s.cfg es).symm ▸ hk
  obtain ⟨hregs, hemitted⟩ := performAlone_fails hwrites hfails
  rw [scriptFailRegisters_units (entriesUnits_isUnit es)] at hregs
  rw [entriesUnits_failEvents hk] at hemitted
  exact ⟨_, rfl, hregs, hemitted⟩

/-- Settles O42: an image is sent or stops (`tableImage_sends`, `tableImage_stops`), and an entry is an image of one
(`exec_tableEntry`). -/
theorem romWordsReplay : Obligations.RomWordsReplay := by
  intro s e es
  have hone : ([e].map (entryWrites s.cfg)).sum = entryWrites s.cfg e := List.sum_singleton
  refine ⟨fun hok => ?_, tableImage_sends, fun k hk hfails => ?_, fun k hk hfails => tableImage_stops hk hfails⟩
  · rw [exec_tableEntry]
    rw [← hone] at hok ⊢
    rw [← List.flatMap_singleton (entryEvents s.cfg) e]
    exact tableImage_sends hok
  · rw [exec_tableEntry]
    exact tableImage_stops (hone.symm ▸ hk) hfails

end Sys2Proof.Machine
end

section
/-! The window and colour pixel requests (41_window_write.md R300 to R310), and the panel after them (20_memory.md R107). -/

namespace Sys2Proof.Machine

/-! ### The cell count (41_window_write.md R308) -/

/-- Settles O13: the product does not wrap (`cellCount_toNat`), and each side is between 1 and 65535. -/
theorem cellCountExact : Obligations.CellCountExact := by
  intro c x0 y0 x1 y1 hx hxw hy hyh
  have hcols : x1.toNat - x0.toNat + 1 ≤ 65535 := by bv_omega
  have hrows : y1.toNat - y0.toNat + 1 ≤ 65535 := by bv_omega
  rw [cellCount_toNat hx hxw hy hyh]
  exact ⟨rfl, Nat.mul_pos (Nat.succ_pos _) (Nat.succ_pos _), Nat.mul_le_mul hcols hrows⟩

/-! ### A colour request as the units it sends -/

/-- A ready block accepts the colour request `i` and sends the units `us` for it. -/
structure ColourRequest (i : Instr) (s : State) (us : List (Kind × List Byte)) : Prop where
  ready    : s.ctl = .ready
  accepted : acceptance i s = .accept
  wire     : usesWire i = true
  handler  : handlerOf i = .winFail
  script   : scriptOf i s = us.map unitAct
  single   : cmdsSingle us

section
variable {i : Instr} {s : State} {us : List (Kind × List Byte)}

theorem ColourRequest.script_isUnit (h : ColourRequest i s us) : (scriptOf i s).all Act.isUnit = true := by
  refine scriptOf_units ?_
  rintro rfl
  exact nomatch h.handler

/-- On a bus that answers ok the units are sent, and the request writes its registers. -/
theorem ColourRequest.succeeds (h : ColourRequest i s us) (hok : s.busOk (unitsWrites s.cfg us)) :
    ∃ t : State, exec i s = .next t ∧
      t.registers = ({ finish i (opened i s) with ctl := s.ctl, lastResult := .ok } : State).registers ∧
      Ended s t (unitsEvents s.cfg us) (unitsWrites s.cfg us) .ok 0 := by
  obtain ⟨hevents, hwrites, -⟩ := unitsScript (c := s.cfg) h.single
  rw [← h.script] at hevents hwrites
  rw [← hwrites] at hok
  obtain ⟨t, hexec, hregs, hended⟩ := exec_accepted_succeeds h.wire h.accepted hok
  rw [succeededState, scriptRegisters_units h.script_isUnit, ← h.ready] at hregs
  rw [hevents, hwrites] at hended
  exact ⟨t, hexec, hregs, hended⟩

/-- A failed byte closes its unit, and WIN_FAIL disarms the window (41_window_write.md R306). -/
theorem ColourRequest.fails (h : ColourRequest i s us) {k : Nat} (hk : k < unitsWrites s.cfg us)
    (hfails : s.busFailsAt k) : ∃ t : State, exec i s = .next t ∧
      t.registers = ({ (opened i s).disarm with ctl := s.ctl, lastResult := .transportError } : State).registers ∧
      Ended s t (unitsFailEvents s.cfg k us) (k + 1) .transportError 0 := by
  obtain ⟨-, hwrites, hevents⟩ := unitsScript (c := s.cfg) h.single
  rw [← h.script] at hwrites hevents
  rw [← hwrites] at hk
  obtain ⟨t, hexec, hregs, hended⟩ := exec_accepted_fails h.wire h.accepted hk hfails
  rw [abortedState, scriptFailRegisters_units h.script_isUnit, h.handler] at hregs
  rw [hevents, h.handler] at hended
  refine ⟨t, hexec, ?_, hended⟩
  rw [hregs, h.ready]
  rfl

end

section
variable {s : State} (hctl : s.ctl = .ready) (hv : s.cfg.variant = .color)
include hctl hv

theorem colourRequest_setWindow {x0 y0 x1 y1 : Half} (hwin : validWindow s.cfg x0 y0 x1 y1 = true) :
    ColourRequest (.setWindow x0 y0 x1 y1) s (windowUnits s.cfg x0 y0 x1 y1) where
  ready := hctl
  accepted := acceptance_of (by simp [hctl]) (by simp [legalIn, hv]) (by simp [hctl]) nofun hwin nofun
  wire := rfl
  handler := rfl
  script := windowScript_units_eq _ _ _ _ _
  single := windowUnits_single _ _ _ _ _

theorem colourRequest_writeWord (harmed : s.armed = true) (color : Half) :
    ColourRequest (.writeWord color) s [wordsUnit [color]] where
  ready := hctl
  accepted := acceptance_of (by simp [hctl]) (by simp [legalIn, hv]) (by simp [hctl]) (fun _ => harmed) rfl nofun
  wire := rfl
  handler := rfl
  script := wordsScript_units_eq _
  single := wordsUnit_single _

theorem colourRequest_putPixel {x y : Half} (hx : x < s.cfg.width) (hy : y < s.cfg.height) (color : Half) :
    ColourRequest (.putPixel x y color) s (putPixelUnits s.cfg x y color) where
  ready := hctl
  accepted := acceptance_of (by simp [hctl]) (by simp [legalIn, hv]) (by simp [hctl]) nofun
    ((validPoint_iff _ _ _).2 ⟨hx, hy⟩) nofun
  wire := rfl
  handler := rfl
  script := by rw [putPixelUnits, List.map_append, ← windowScript_units_eq, ← wordsScript_units_eq, scriptOf]
  single := cmdsSingle_append (windowUnits_single _ _ _ _ _) (wordsUnit_single _)

/-- FILL_RECT has as many words as the window has cells (41_window_write.md R308). -/
theorem colourRequest_fillRect {x0 y0 x1 y1 : Half} (hx : x0 ≤ x1) (hxw : x1 < s.cfg.width) (hy : y0 ≤ y1)
    (hyh : y1 < s.cfg.height) (color : Half) : ColourRequest (.fillRect x0 y0 x1 y1 color) s
      (fillRectUnits s.cfg x0 y0 x1 y1 color ((x1.toNat - x0.toNat + 1) * (y1.toNat - y0.toNat + 1))) where
  ready := hctl
  accepted := acceptance_of (by simp [hctl]) (by simp [legalIn, hv]) (by simp [hctl]) nofun
    ((validWindow_iff _ _ _ _ _).2 ⟨hx, hxw, hy, hyh⟩) nofun
  wire := rfl
  handler := rfl
  script := by
    rw [fillRectUnits, List.map_append, ← windowScript_units_eq, ← wordsScript_units_eq, scriptOf,
      cellCount_toNat hx hxw hy hyh]
  single := cmdsSingle_append (windowUnits_single _ _ _ _ _) (wordsUnit_single _)

end

/-! ### The units on SPI, which a Color block is on -/

theorem windowUnits_writes {c : Cfg} (hs : c.transport.isSpi = true) (x0 y0 x1 y1 : Half) :
    unitsWrites c (windowUnits c x0 y0 x1 y1) = 11 := by
  rw [← (windowScript_inUnits c x0 y0 x1 y1).2.1, windowScript_writes hs]

theorem wordUnit_writes {c : Cfg} (hs : c.transport.isSpi = true) (color : Half) :
    unitsWrites c [wordsUnit [color]] = 2 := by
  simp [unitsWrites, wordsUnit, unitBytes_spi hs]

theorem unitsEvents_append (c : Cfg) (us vs : List (Kind × List Byte)) :
    unitsEvents c (us ++ vs) = unitsEvents c us ++ unitsEvents c vs := List.flatMap_append

theorem wordsUnit_events (c : Cfg) (ws : List Half) :
    unitsEvents c [wordsUnit ws] = unitEvents c .data (bytesOfWords ws) := List.flatMap_singleton _ _

/-! ### The cursor in an armed window (41_window_write.md R307) -/

section
variable {s : State} (h : s.WindowOk)
include h

/-- The row below an armed window is still a 16-bit row number: the window ends inside the panel. -/
theorem State.WindowOk.nextRow_toNat : (s.curY + 1).toNat = s.curY.toNat + 1 := by
  obtain ⟨-, hle, hlt⟩ := h.rows
  bv_omega

/-- When one cell is left, the cursor stands on the window's last cell. -/
theorem State.WindowOk.last_cell (hr : s.remaining = 1) : s.curX = s.wx1 ∧ s.curY = s.wy1 := by
  obtain ⟨-, hx, -⟩ := h.columns
  obtain ⟨-, hy, -⟩ := h.rows
  have hcells : 1 = s.cellsLeft := by rw [← h.cells, hr]; rfl
  rw [State.cellsLeft] at hcells
  have hrow : (s.wy1.toNat - s.curY.toNat) * (s.wx1.toNat - s.wx0.toNat + 1) = 0 := by omega
  have hlast : s.wy1.toNat - s.curY.toNat = 0 := (Nat.mul_eq_zero.1 hrow).resolve_right (Nat.succ_ne_zero _)
  constructor <;> bv_omega

/-- The cursor advances as the panel's write pointer does (20_memory.md R107). -/
theorem State.WindowOk.advance_cursor :
    (s.advance.curX.toNat, s.advance.curY.toNat) = nextCell (s.wx0, s.wx1) (s.curX.toNat, s.curY.toNat) := by
  rw [State.advance_eq, nextCell]
  by_cases hx : s.curX = s.wx1
  · simp only [hx, reduceIte, h.nextRow_toNat, if_pos (Nat.lt_succ_self s.wx1.toNat)]
  · obtain ⟨hnext, hle⟩ := State.cellsLeft_same_row h hx
    simp only [hx, reduceIte, hnext, if_neg (Nat.not_lt.2 hle)]

end

/-! ### The requests on the wire -/

/-- Settles O26: SET_WINDOW sends the window group and writes cursor, cell count and `armed`. -/
theorem setWindowArms : Obligations.SetWindowArms := by
  intro x0 y0 x1 y1 s hctl hv hx hxw hy hyh hok
  have hwin := (validWindow_iff s.cfg x0 y0 x1 y1).2 ⟨hx, hxw, hy, hyh⟩
  rw [← cellCount_toNat hx hxw hy hyh, BitVec.ofNat_toNat, BitVec.setWidth_eq]
  exact (colourRequest_setWindow hctl hv hwin).succeeds hok

/-- Settles O27: the window group of `setWindowArms`, its units written out. -/
theorem setWindowSegment : Obligations.SetWindowSegment := by
  intro x0 y0 x1 y1 s hctl hv hx hxw hy hyh hok
  have hs := color_isSpi hv
  rw [← windowUnits_writes hs x0 y0 x1 y1] at hok
  obtain ⟨t, hexec, -, hended⟩ := setWindowArms x0 y0 x1 y1 s hctl hv hx hxw hy hyh hok
  refine ⟨t, hexec, ?_⟩
  rw [hended.trace]
  simp [unitsEvents, windowUnits, unitEvents_spi hs, hiByte, loByte]

/-- WRITE_WORD sends its word and advances the cursor. -/
theorem writeWord_succeeds {s : State} (hctl : s.ctl = .ready) (hv : s.cfg.variant = .color) (harmed : s.armed = true)
    (color : Half) (hok : s.busOk 2) : ∃ t : State, exec (.writeWord color) s = .next t ∧
      t.registers = ({ s.advance with lastResult := .ok } : State).registers ∧
      Ended s t (unitsEvents s.cfg [wordsUnit [color]]) 2 .ok 0 := by
  rw [← wordUnit_writes (color_isSpi hv) color] at hok ⊢
  obtain ⟨t, hexec, hregs, hended⟩ := (colourRequest_writeWord hctl hv harmed color).succeeds hok
  refine ⟨t, hexec, ?_, hended⟩
  rw [hregs, finish, State.advance_eq, State.advance_eq]
  rfl

/-- Settles O28: WRITE_WORD advances the cursor (`writeWord_succeeds`, `State.advance_eq`); the window's last cell and the row
below it are facts of an armed window. -/
theorem writeWordAdvances : Obligations.WriteWordAdvances := by
  intro color s hctl hv harmed hok
  refine ⟨?_, State.WindowOk.last_cell, State.WindowOk.nextRow_toNat⟩
  obtain ⟨t, hexec, hregs, hended⟩ := writeWord_succeeds hctl hv harmed color hok
  refine ⟨t, hexec, ?_, ?_⟩
  · rw [hregs, State.advance_eq]
    simp only [sub_eq_zero, harmed]
  · rw [wordsUnit_events, unitEvents_spi (color_isSpi hv)] at hended
    exact hended

/-- Settles O29: PUT_PIXEL sends its units; a point of the panel is below 65535, so `x + 1` and `y + 1` do not wrap. -/
theorem putPixelWrites : Obligations.PutPixelWrites := by
  intro x y color s hctl hv hx hy hok
  obtain ⟨t, hexec, hregs, hended⟩ := (colourRequest_putPixel hctl hv hx hy color).succeeds hok
  exact ⟨t, hexec, hregs, by bv_omega, by bv_omega, hended⟩

/-- Settles O30: FILL_RECT sends its units, 11 byte writes for the window and two for each cell. -/
theorem fillRectWrites : Obligations.FillRectWrites := by
  intro x0 y0 x1 y1 color s hctl hv hx hxw hy hyh hok
  rw [← fillRect_writes hv x0 y0 x1 y1 color] at hok ⊢
  exact (colourRequest_fillRect hctl hv hx hxw hy hyh color).succeeds hok

/-- Settles O31: each of the four requests stops at the failed byte (`ColourRequest.fails`). -/
theorem windowRequestFails : Obligations.WindowRequestFails := by
  intro s k hctl hv hfails
  refine ⟨fun x0 y0 x1 y1 hx hxw hy hyh => ⟨fun hk => ?_, fun color hk => ?_⟩, fun x y color hx hy hk => ?_,
    fun color harmed hk => ?_⟩
  · have hwin := (validWindow_iff s.cfg x0 y0 x1 y1).2 ⟨hx, hxw, hy, hyh⟩
    exact (colourRequest_setWindow hctl hv hwin).fails hk hfails
  · rw [← fillRect_writes hv x0 y0 x1 y1 color] at hk
    exact (colourRequest_fillRect hctl hv hx hxw hy hyh color).fails hk hfails
  · exact (colourRequest_putPixel hctl hv hx hy color).fails hk hfails
  · rw [← wordUnit_writes (color_isSpi hv) color] at hk
    exact (colourRequest_writeWord hctl hv harmed color).fails hk hfails

/-! ### The attached panel (20_memory.md R107) -/

/-- The observer stands between two words of a window's pixel stream, its write pointer on the cell `p`. -/
structure ColorObserver.OnCell (c : Cfg) (o : ColorObserver) (cols rows : Half × Half) (p : Nat × Nat) : Prop where
  command : o.oc = some c.cmdRamwr
  columns : o.cols = some cols
  rows    : o.rows = some rows
  pointer : o.pointer = some p
  pend    : o.pend = []

/-- The observer follows the block when it stands on the cursor's cell. -/
theorem State.follows_iff (s : State) (o : ColorObserver) : s.Follows o ↔
    o.OnCell s.cfg (s.wx0, s.wx1) (s.wy0, s.wy1) (s.curX.toNat, s.curY.toNat) :=
  ⟨fun ⟨hcommand, hcolumns, hrows, hpointer, hpend⟩ => ⟨hcommand, hcolumns, hrows, hpointer, hpend⟩,
    fun ⟨hcommand, hcolumns, hrows, hpointer, hpend⟩ => ⟨hcommand, hcolumns, hrows, hpointer, hpend⟩⟩

/-- Following is a matter of the block's registers. -/
theorem State.Follows.of_registers {s t : State} {o : ColorObserver} (hr : t.registers = s.registers)
    (h : s.Follows o) : t.Follows o := by
  rw [State.follows_iff] at h ⊢
  show o.OnCell t.registers.cfg (t.registers.wx0, t.registers.wx1) (t.registers.wy0, t.registers.wy1)
    (t.registers.curX.toNat, t.registers.curY.toNat)
  rw [hr]
  exact h

/-- The newest write of a cell is what it holds. -/
theorem cellValue_cons (p q : Nat × Nat) (w : Half) (cells : List ((Nat × Nat) × Half)) :
    cellValue ((p, w) :: cells) q = if q = p then some w else cellValue cells q := if_congr eq_comm rfl rfl

section
variable {c : Cfg} (hs : c.transport.isSpi = true) (hn : [cmdCaset, c.cmdRaset, c.cmdRamwr].Nodup)
include hs hn

/-- The window group puts the observer on the window's first cell. -/
theorem ColorObserver.onCell_window (o : ColorObserver) (x0 y0 x1 y1 : Half) :
    (o.sees c (unitsEvents c (windowUnits c x0 y0 x1 y1))).OnCell c (x0, x1) (y0, y1) (x0.toNat, y0.toNat) := by
  rw [ColorObserver.sees_window hs hn]
  exact ⟨rfl, rfl, rfl, rfl, rfl⟩

/-- A word for a cell of the window and of the panel is written there, and the write pointer moves on. -/
theorem ColorObserver.OnCell.sees_word {o : ColorObserver} {cols rows : Half × Half} {p : Nat × Nat}
    (h : o.OnCell c cols rows p) (hr : p.2 ≤ rows.2.toNat) (hx : p.1 < c.width.toNat) (hy : p.2 < c.height.toNat)
    (w : Half) : o.sees c (unitsEvents c [wordsUnit [w]]) =
      { o with kind := .data, cells := (p, w) :: o.cells, pend := [], pointer := some (nextCell cols p) } := by
  obtain ⟨hcommand, hcolumns, hrows, hpointer, hpend⟩ := h
  have hword := ColorObserver.dataBytes_word hn (o := { o with kind := .data }) hcommand hpend w []
  rw [ColorObserver.word_inside (o := { o with kind := .data }) hpointer hcolumns hrows hr hx hy] at hword
  rw [wordsUnit_events, ColorObserver.sees_data hs]
  exact hword

/-- A window's worth of words of one colour: the cells of the window take it, the others keep what they held. -/
theorem ColorObserver.OnCell.sees_fill {o : ColorObserver} {x0 y0 x1 y1 : Half} (hx : x0 ≤ x1) (hxw : x1 < c.width)
    (hy : y0 ≤ y1) (hyh : y1 < c.height) (h : o.OnCell c (x0, x1) (y0, y1) (x0.toNat, y0.toNat)) (w : Half) :
    let after := o.sees c (unitsEvents c
      [wordsUnit (List.replicate ((x1.toNat - x0.toNat + 1) * (y1.toNat - y0.toNat + 1)) w)])
    after.leftOpen = o.leftOpen ∧ ∀ i j : Nat, after.pixel i j =
      if (x0.toNat ≤ i ∧ i ≤ x1.toNat) ∧ y0.toNat ≤ j ∧ j ≤ y1.toNat then some w else o.pixel i j := by
  have hstart : ({ o with kind := .data } : ColorObserver).Streaming c x0 y0 x1 y1 0 :=
    ⟨h.command, h.columns, h.rows, by simp [h.pointer, cellAt], h.pend⟩
  obtain ⟨-, hopen, hpixel⟩ := ColorObserver.dataBytes_replicate hn hx hxw hy hyh w
    ((x1.toNat - x0.toNat + 1) * (y1.toNat - y0.toNat + 1)) hstart (Nat.zero_add _).le
  rw [wordsUnit_events, ColorObserver.sees_data hs]
  refine ⟨hopen, fun i j => ?_⟩
  obtain ⟨hinside, houtside⟩ := hpixel i j
  have hmem := cellAt_mem (x0 := x0.toNat) (y0 := y0.toNat) (h := y1.toNat - y0.toNat + 1)
    (Nat.succ_pos (x1.toNat - x0.toNat)) i j
  simp only [Nat.zero_le, Nat.zero_add, true_and] at hinside houtside
  split_ifs with hrect
  · exact hinside (hmem.2 (by bv_omega))
  · exact houtside fun hcell => hrect (by have := hmem.1 hcell; bv_omega)

end

/-- Settles O57: the window group puts the observer on the pixel (`ColorObserver.onCell_window`), and the word is written
there. -/
theorem panelAfterPutPixel : Obligations.PanelAfterPutPixel := by
  intro x y color s hctl hv hx hy hn hok
  have hs := color_isSpi hv
  obtain ⟨t, hexec, -, -, hyNext, hended⟩ := putPixelWrites x y color s hctl hv hx hy hok
  have hcell := ColorObserver.onCell_window hs hn (observe s.cfg s.trace) x y (x + 1) (y + 1)
  have hrow : y.toNat ≤ (y + 1).toNat := by omega
  refine ⟨t, hexec, ?_⟩
  rw [hended.trace, observe_append, putPixelUnits, unitsEvents_append, ColorObserver.sees_append,
    hcell.sees_word hs hn hrow hx hy, ColorObserver.sees_window hs hn]
  exact ⟨rfl, fun i j => cellValue_cons _ _ _ _⟩

/-- Settles O58: the window group puts the observer on the rectangle's first cell, and the words fill it
(`ColorObserver.OnCell.sees_fill`). -/
theorem panelAfterFillRect : Obligations.PanelAfterFillRect := by
  intro x0 y0 x1 y1 color s hctl hv hx hxw hy hyh hn hok
  have hs := color_isSpi hv
  obtain ⟨t, hexec, -, hended⟩ := fillRectWrites x0 y0 x1 y1 color s hctl hv hx hxw hy hyh hok
  have hcell := ColorObserver.onCell_window hs hn (observe s.cfg s.trace) x0 y0 x1 y1
  have hfill := hcell.sees_fill hs hn hx hxw hy hyh color
  refine ⟨t, hexec, ?_⟩
  rw [hended.trace, observe_append, fillRectUnits, unitsEvents_append, ColorObserver.sees_append]
  rw [ColorObserver.sees_window hs hn] at hfill ⊢
  exact hfill

section
variable {s : State} (hctl : s.ctl = .ready) (hv : s.cfg.variant = .color)
  (hn : [cmdCaset, s.cfg.cmdRaset, s.cfg.cmdRamwr].Nodup)
include hctl hv hn

/-- SET_WINDOW puts the observer on the window's first cell and writes no cell. -/
theorem setWindow_follows {x0 y0 x1 y1 : Half} (hx : x0 ≤ x1) (hxw : x1 < s.cfg.width) (hy : y0 ≤ y1)
    (hyh : y1 < s.cfg.height) (hok : s.busOk 11) : ∃ t : State, exec (.setWindow x0 y0 x1 y1) s = .next t ∧
      t.Follows (observe t.cfg t.trace) ∧ (observe t.cfg t.trace).cells = (observe s.cfg s.trace).cells := by
  have hs := color_isSpi hv
  rw [← windowUnits_writes hs x0 y0 x1 y1] at hok
  obtain ⟨t, hexec, hregs, hended⟩ := setWindowArms x0 y0 x1 y1 s hctl hv hx hxw hy hyh hok
  refine ⟨t, hexec, ?_⟩
  rw [exec_cfg hexec, hended.trace, observe_append]
  refine ⟨.of_registers hregs ?_, ?_⟩
  · exact (State.follows_iff _ _).2 (ColorObserver.onCell_window hs hn _ x0 y0 x1 y1)
  · rw [ColorObserver.sees_window hs hn]

/-- WRITE_WORD's word is written to the cursor's cell, and the write pointer moves on with the cursor. -/
theorem writeWord_follows (harmed : s.armed = true) (hwin : s.WindowOk) (hfollows : s.Follows (observe s.cfg s.trace))
    (hok : s.busOk 2) (color : Half) : ∃ t : State, exec (.writeWord color) s = .next t ∧
      t.Follows (observe t.cfg t.trace) ∧ (observe t.cfg t.trace).leftOpen = (observe s.cfg s.trace).leftOpen ∧
      ∀ i j : Nat, (observe t.cfg t.trace).pixel i j =
        if (i, j) = (s.curX.toNat, s.curY.toNat) then some color else (observe s.cfg s.trace).pixel i j := by
  have hs := color_isSpi hv
  obtain ⟨t, hexec, hregs, hended⟩ := writeWord_succeeds hctl hv harmed color hok
  obtain ⟨-, hcol, hwidth⟩ := hwin.columns
  obtain ⟨-, hrow, hheight⟩ := hwin.rows
  have hcell := (s.follows_iff _).1 hfollows
  have hcursor := hwin.advance_cursor
  rw [State.advance_eq] at hregs hcursor
  refine ⟨t, hexec, ?_⟩
  rw [exec_cfg hexec, hended.trace, observe_append,
    hcell.sees_word hs hn hrow (Nat.lt_of_le_of_lt hcol hwidth) (Nat.lt_of_le_of_lt hrow hheight), ← hcursor]
  exact ⟨.of_registers hregs ⟨hcell.command, hcell.columns, hcell.rows, rfl, rfl⟩, rfl,
    fun i j => cellValue_cons _ _ _ _⟩

end

/-- Settles O59: `setWindow_follows` and `writeWord_follows`. -/
theorem panelFollowsCursor : Obligations.PanelFollowsCursor := by
  intro s hctl hv hn
  refine ⟨fun x0 y0 x1 y1 hx hxw hy hyh hok => setWindow_follows hctl hv hn hx hxw hy hyh hok,
    fun color harmed hwin hfollows hok => ?_⟩
  obtain ⟨t, hexec, hfollowed, hpanel⟩ := writeWord_follows hctl hv hn harmed hwin hfollows hok color
  exact ⟨t, hexec, fun _ => hfollowed, hpanel⟩

end Sys2Proof.Machine
end

section
/-! The monochrome buffer requests (42_mono_buffer.md R400 to R407). -/

namespace Sys2Proof.Machine

/-! ### Acceptance by a ready Mono block, and the requests without wire events -/

theorem acceptance_ready_mono {i : Instr} {s : State} (hctl : s.ctl = .ready) (hv : s.cfg.variant = .mono)
    (hlegal : legalIn i .mono = true) (harmed : needsArmed i = false) (hrange : inRange i s.cfg = true)
    (hlock : needsUnlocked i = true → s.lock = false) : acceptance i s = .accept :=
  acceptance_of (by simp [hctl]) (hv ▸ hlegal) (by simp [hctl]) (by simp [harmed]) hrange hlock

/-- An accepted request that emits no event writes its effect and completes. -/
theorem exec_accepted_local {i : Instr} {s : State} (hw : usesWire i = false) (hs : i.surface = .request)
    (ha : acceptance i s = .accept) : exec i s = .next ((effectOf i s).complete .ok (valueOf i s)) := by
  have hr : ∀ op, i ≠ .reserved op := by
    rintro op rfl
    exact absurd (acceptance_accept ha).2.1 (by simp [legalIn])
  rw [exec_local hw hs hr, request_accept ha]

section
variable {s : State} (hctl : s.ctl = .ready) (hv : s.cfg.variant = .mono)
include hctl hv

theorem exec_monoSetPixel {x y : Half} (hx : x < s.cfg.width) (hy : y < s.cfg.height) (v : BitVec 1) :
    exec (.monoSetPixel x y v) s = .next ((effectOf (.monoSetPixel x y v) s).complete .ok 0) :=
  exec_accepted_local rfl rfl
    (acceptance_ready_mono hctl hv rfl rfl ((validPoint_iff s.cfg x y).2 ⟨hx, hy⟩) nofun)

theorem exec_monoGetPixel {x y : Half} (hx : x < s.cfg.width) (hy : y < s.cfg.height) : exec (.monoGetPixel x y) s =
    .next (({ s with rdata := s.pixel x y } : State).complete .ok ((s.pixel x y).setWidth 8)) :=
  exec_accepted_local rfl rfl
    (acceptance_ready_mono hctl hv rfl rfl ((validPoint_iff s.cfg x y).2 ⟨hx, hy⟩) nofun)

/-- What MONO_GET_PIXEL leaves in `rdata` and tells the host. -/
theorem monoGetPixel_next {x y : Half} {t : State} (h : exec (.monoGetPixel x y) s = .next t) (hx : x < s.cfg.width)
    (hy : y < s.cfg.height) : t.rdata = s.pixel x y ∧
      t.repliesRev.head? = some (.response .ok ((s.pixel x y).setWidth 8)) := by
  rw [exec_monoGetPixel hctl hv hx hy] at h
  cases h
  exact ⟨rfl, rfl⟩

theorem exec_monoClear : exec .monoClear s = .next (({ s with buf := [] } : State).complete .ok 0) :=
  exec_accepted_local rfl rfl (acceptance_ready_mono hctl hv rfl rfl rfl nofun)

end

/-! ### A pixel after a write (42_mono_buffer.md R406, R407) -/

theorem getBit_eq_ofBool (b : Byte) (k : Nat) : getBit b k = BitVec.ofBool (b.getLsbD k) := by
  ext j hj
  obtain rfl : j = 0 := by omega
  simp [getBit]

/-- The value of a pixel is its bit of the byte (42_mono_buffer.md R402). -/
theorem getBit_eq_one_iff (b : Byte) (k : Nat) : getBit b k = 1 ↔ b.getLsbD k = true := by
  rw [getBit_eq_ofBool]
  cases b.getLsbD k <;> decide

/-- A point in another byte is untouched, and another point in the same byte is another bit of it (20_memory.md R75, R77). -/
theorem pixel_monoSetPixel {s : State} {x y x' y' : Half} (hwf : s.buf.wf = true) (hx : x < s.cfg.width)
    (hx' : x' < s.cfg.width) (v : BitVec 1) : (effectOf (.monoSetPixel x y v) s).pixel x' y' =
      if (x', y') = (x, y) then v else s.pixel x' y' := by
  simp only [State.pixel, effectOf, Memory.read_write hwf, Prod.mk.injEq]
  by_cases hbyte : pixelIndex s.cfg x' y' = pixelIndex s.cfg x y
  · obtain ⟨rfl, hpage⟩ := pixelIndex_inj hx' hx hbyte
    have hbit : pixelBit y' = pixelBit y ↔ y' = y := by
      unfold pixelBit
      bv_omega
    rw [if_pos hbyte, getBit_setBit _ _ (pixelBit_lt y) (pixelBit_lt y'), hbyte]
    simp only [hbit, true_and]
  · have hpoint : ¬ (x' = x ∧ y' = y) := by
      rintro ⟨rfl, rfl⟩
      exact hbyte rfl
    rw [if_neg hbyte, if_neg hpoint]

/-- What MONO_GET_PIXEL reads and tells once MONO_SET_PIXEL has run. -/
theorem monoGetPixel_after_monoSetPixel {x y x' y' : Half} {v : BitVec 1} {s t u : State} (hwf : s.buf.wf = true)
    (hctl : s.ctl = .ready) (hv : s.cfg.variant = .mono) (hx : x < s.cfg.width) (hy : y < s.cfg.height)
    (hx' : x' < s.cfg.width) (hy' : y' < s.cfg.height) (hset : exec (.monoSetPixel x y v) s = .next t)
    (hget : exec (.monoGetPixel x' y') t = .next u) :
    u.rdata = (if (x', y') = (x, y) then v else s.pixel x' y') ∧
      u.repliesRev.head? = some (.response .ok (u.rdata.setWidth 8)) := by
  rw [exec_monoSetPixel hctl hv hx hy] at hset
  obtain rfl := Host.Outcome.next.inj hset
  obtain ⟨hrdata, htold⟩ := monoGetPixel_next (s := (effectOf (.monoSetPixel x y v) s).complete .ok 0) hctl hv hget hx' hy'
  exact ⟨hrdata.trans (pixel_monoSetPixel hwf hx hx' v), hrdata ▸ htold⟩

/-! ### The obligations on the buffer -/

/-- Settles O32: the byte of the pixel reads as it was written, every other byte as before (`Memory.read_write`). -/
theorem monoSetPixelWrites : Obligations.MonoSetPixelWrites := by
  intro x y v s hctl hv hx hy hwf
  refine ⟨_, exec_monoSetPixel hctl hv hx hy v, fun a => ?_⟩
  refine (Memory.read_write hwf).trans ?_
  by_cases ha : a = pixelIndex s.cfg x y
  · subst ha
    rfl
  · exact (if_neg ha).trans (if_neg ha).symm

/-- Settles O33: the value is the pixel's bit, in `rdata` and in the response. -/
theorem monoGetPixelReads : Obligations.MonoGetPixelReads := by
  intro x y s hctl hv hx hy
  refine ⟨s.pixel x y, getBit_eq_one_iff _ _, ?_⟩
  rw [exec_monoGetPixel hctl hv hx hy, BitVec.ofNat_toNat]
  rfl

/-- Settles O34: the cleared buffer is the empty memory, which reads 0. -/
theorem monoClearZeroes : Obligations.MonoClearZeroes :=
  fun _ hctl hv => ⟨[], exec_monoClear hctl hv, Memory.read_nil⟩

/-- Settles O38: the point read is the point written. -/
theorem pixelRoundTrip : Obligations.PixelRoundTrip := by
  intro x y v s t u hwf hctl hv hx hy hset hget
  obtain ⟨hrdata, htold⟩ := monoGetPixel_after_monoSetPixel hwf hctl hv hx hy hx hy hset hget
  rw [if_pos rfl] at hrdata
  rw [BitVec.ofNat_toNat, ← hrdata]
  exact ⟨rfl, htold⟩

/-- Settles O39: the point read is another than the point written, so it reads as it does without the write. -/
theorem pixelIndependence : Obligations.PixelIndependence := by
  intro x y x' y' v s t u w hwf hctl hv hx hy hx' hy' hne hset hget hbefore
  obtain ⟨hrdata, -⟩ := monoGetPixel_after_monoSetPixel hwf hctl hv hx hy hx' hy' hset hget
  rw [if_neg hne] at hrdata
  exact hrdata.trans (monoGetPixel_next hctl hv hbefore hx' hy').1.symm

/-! ### MONO_FLUSH (42_mono_buffer.md R404, R405) -/

theorem acceptance_monoFlush {s : State} (hctl : s.ctl = .ready) (hv : s.cfg.variant = .mono) (hlock : s.lock = false) :
    acceptance .monoFlush s = .accept := acceptance_ready_mono hctl hv rfl rfl rfl fun _ => hlock

/-- The script of a flush sends the units of its pages. -/
theorem scriptOf_monoFlush (s : State) :
    scriptEvents s.cfg (scriptOf .monoFlush s) = unitsEvents s.cfg (flushUnits s.cfg s.buf) ∧
      scriptWrites s.cfg (scriptOf .monoFlush s) = unitsWrites s.cfg (flushUnits s.cfg s.buf) ∧
      ∀ j, scriptFailEvents s.cfg j (scriptOf .monoFlush s) = unitsFailEvents s.cfg j (flushUnits s.cfg s.buf) := by
  rw [scriptOf, flushScript_units_eq]
  exact unitsScript (flushUnits_single s.cfg s.buf)

/-- A flush leaves every register but `last_result`, as no unit of its script moves one. -/
theorem succeededState_monoFlush {s : State} (hctl : s.ctl = .ready) :
    succeededState .monoFlush s = { s with lastResult := .ok } := by
  rw [succeededState, scriptRegisters_units (scriptOf_units (i := .monoFlush) nofun)]
  exact congrArg (fun ctl => ({ s with ctl := ctl, lastResult := .ok } : State)) hctl.symm

/-- FLUSH_FAIL writes no register of its own (42_mono_buffer.md R405). -/
theorem abortedState_monoFlush {s : State} (hctl : s.ctl = .ready) (k : Nat) :
    abortedState .monoFlush s k = { s with lastResult := .transportError } := by
  rw [abortedState, scriptFailRegisters_units (scriptOf_units (i := .monoFlush) nofun)]
  exact congrArg (fun ctl => ({ s with ctl := ctl, lastResult := .transportError } : State)) hctl.symm

/-- Settles O35: the script of a flush is its units (`scriptOf_monoFlush`), and it runs whole. -/
theorem monoFlushStreams : Obligations.MonoFlushStreams := by
  intro s hctl hv hlock hok
  obtain ⟨hevents, hwrites, -⟩ := scriptOf_monoFlush s
  rw [← hwrites] at hok
  obtain ⟨t, hexec, hregs, hended⟩ := exec_accepted_succeeds rfl (acceptance_monoFlush hctl hv hlock) hok
  rw [succeededState_monoFlush hctl] at hregs
  rw [hevents, hwrites] at hended
  exact ⟨t, hexec, hregs, hended⟩

/-- Settles O36: the script of a flush stops at byte write number `k`, and FLUSH_FAIL leaves `abortedState_monoFlush`. -/
theorem monoFlushFails : Obligations.MonoFlushFails := by
  intro s k hctl hv hlock hk hfails
  obtain ⟨-, hwrites, hevents⟩ := scriptOf_monoFlush s
  rw [← hwrites] at hk
  obtain ⟨t, hexec, hregs, hended⟩ := exec_accepted_fails rfl (acceptance_monoFlush hctl hv hlock) hk hfails
  rw [abortedState_monoFlush hctl] at hregs
  rw [hevents] at hended
  exact ⟨t, hexec, hregs, hended⟩

/-- Settles O40: the first flush leaves the buffer, the lock and the controller state as they were, and the answers of the
second are those after the first's. -/
theorem flushIdempotent : Obligations.FlushIdempotent := by
  intro s hctl hv hlock hok
  obtain ⟨t, hexec, hregs, hended⟩ := monoFlushStreams s hctl hv hlock (State.busOk_mono hok (by omega))
  have hcfg : t.cfg = s.cfg := (registers_cfg hregs :)
  have hbuf : t.buf = s.buf := (congrArg State.buf hregs :)
  have hlock' : t.lock = s.lock := (congrArg State.lock hregs :)
  have hrest : t.busOk (unitsWrites t.cfg (flushUnits t.cfg t.buf)) := fun k hk => by
    rw [hcfg, hbuf] at hk
    rw [hended.oracle]
    exact hok _ (by omega)
  obtain ⟨u, hexec', hregs', hended'⟩ := monoFlushStreams t ((registers_ctl hregs).trans hctl)
    (hcfg ▸ hv) (hlock'.trans hlock) hrest
  rw [hcfg, hbuf] at hended'
  exact ⟨t, u, _, hexec, hexec', hended.trace, hended'.trace, (congrArg State.lastResult hregs :),
    (congrArg State.lastResult hregs' :)⟩

end Sys2Proof.Machine
end

section
/-! Control (43_control.md R450 to R455): exclusive access ends with every step, a register is read in every state, and the
buffer lock is written whether or not the block is initialised. -/

namespace Sys2Proof.Machine

/-! ### Exclusive access is released on every path (43_control.md R455) -/

/-- INIT ends `Ready` or `Uninitialized`, and no other instruction moves the controller state (`stateTransitions`). -/
theorem exec_ctl_ne_busy {i : Instr} {s t : State} (hctl : s.ctl ≠ .busy) (h : exec i s = .next t) : t.ctl ≠ .busy := by
  rcases stateTransitions i s t h with hkept | ⟨-, -, ⟨hready, -⟩ | ⟨huninit, -⟩⟩
  · rwa [hkept]
  · simp [hready]
  · simp [huninit]

/-- An instruction that runs a script ends with no context left; every other one leaves the context as it is. -/
theorem exec_context {i : Instr} {s t : State} (h : exec i s = .next t) :
    (t.script = [] ∧ t.unitLeft = []) ∨ (t.script = s.script ∧ t.unitLeft = s.unitLeft) := by
  cases exec_ran h with
  | rejected _ _ ht => exact .inr (by rw [ht]; exact ⟨rfl, rfl⟩)
  | refused _ _ code _ _ ht => exact .inr (by rw [ht]; exact ⟨rfl, rfl⟩)
  | completed _ _ _ ht => exact .inr (by rw [ht]; exact effectOf_context i s)
  | succeeded _ _ _ _ he => exact .inl he.quiet
  | aborted _ _ _ _ _ _ he => exact .inl he.quiet
  | sent _ _ _ he => exact .inl he.quiet
  | stopped _ _ _ _ _ he => exact .inl he.quiet

/-- Every instruction leaves a quiet block quiet. -/
theorem exec_quiet {i : Instr} {s t : State} (hs : s.Quiet) (h : exec i s = .next t) : t.Quiet := by
  obtain ⟨hctl, hscript, hunit⟩ := hs
  refine ⟨exec_ctl_ne_busy hctl h, ?_⟩
  rcases exec_context h with hnone | ⟨hscript', hunit'⟩
  · exact hnone
  · exact ⟨hscript'.trans hscript, hunit'.trans hunit⟩

/-- Settles O50: a step runs an instruction (`exec_quiet`) on a state that differs in the host's actions and the latch only,
or it answers the host. -/
theorem stepKeepsQuiet : Obligations.StepKeepsQuiet := by
  intro s t hs h
  rcases step_cases h with ⟨i, later, l, hexec⟩ | ⟨later, rs, rfl⟩
  · have hq : ({ s with inbox := later, latch := l } : State).Quiet := hs
    exact exec_quiet hq hexec
  · exact hs

/-! ### READ (43_control.md R454) -/

theorem step_read {s : State} {reg : Byte} {later : List HostAct} (h : s.inbox = .read reg :: later) :
    step s = .next ((s.took later).hostRead reg) := by
  rw [step, h]

/-- A register's value does not depend on the host's actions to come. -/
theorem State.readReg_took (later : List HostAct) (s : State) (reg : Byte) : (s.took later).readReg reg = s.readReg reg := rfl

/-- Settles O5: a read only tells the host the value (`step_read`, `State.readReg_took`); inside a request it is the arrival
of a read, whatever the controller state. -/
theorem readChangesNothing : Obligations.ReadChangesNothing := by
  refine fun s reg => ⟨fun later h => ?_, rfl, s.readReg_reserved⟩
  rw [step_read h, State.hostRead, State.readReg_took]
  rfl

/-! ### Requests that acceptance ends (43_control.md R450, R451; 60_exceptions.md R605) -/

theorem exec_of_busy {i : Instr} {s : State} (hi : i.surface = .request) (hctl : s.ctl = .busy) :
    exec i s = .next (rejectedBusy s) := by
  obtain ⟨body, hbody⟩ := exec_request hi
  rw [hbody, request_busy hctl]
  rfl

theorem acceptance_illegal {i : Instr} {s : State} (hctl : s.ctl ≠ .busy) (hlegal : legalIn i s.cfg.variant = false) :
    acceptance i s = .refuse .illegalRequest := by
  simp [acceptance, hctl, hlegal]

theorem exec_of_illegal {i : Instr} {s : State} (hi : i.surface = .request) (hctl : s.ctl ≠ .busy)
    (hlegal : legalIn i s.cfg.variant = false) : exec i s = .next (refusedWith .illegalRequest s) := by
  obtain ⟨body, hbody⟩ := exec_request hi
  rw [hbody, request_refuse (acceptance_illegal hctl hlegal)]
  rfl

/-! ### LOCK_BUFFER and UNLOCK_BUFFER (43_control.md R452, R453) -/

/-- A Mono block accepts both, initialised or not and whatever the flag holds (60_exceptions.md R606). -/
theorem acceptance_lock {i : Instr} {s : State} (hi : i = .lockBuffer ∨ i = .unlockBuffer) (hctl : s.ctl ≠ .busy)
    (hv : s.cfg.variant = .mono) : acceptance i s = .accept := by
  rcases hi with rfl | rfl
  · exact acceptance_of hctl (hv ▸ rfl) (fun _ => rfl) nofun rfl nofun
  · exact acceptance_of hctl (hv ▸ rfl) (fun _ => rfl) nofun rfl nofun

/-- Settles O37: a Mono block that is not busy accepts both and writes the flag (`exec_accepted_local`); a busy block rejects
every request, and both are legal in the Mono variant only. -/
theorem lockAndUnlock : Obligations.LockAndUnlock := by
  refine fun s => ⟨fun hctl hv => ⟨?_, ?_⟩, fun hctl => ⟨?_, ?_⟩, fun hctl hv => ⟨?_, ?_⟩⟩
  · exact exec_accepted_local rfl rfl (acceptance_lock (.inl rfl) hctl hv)
  · exact exec_accepted_local rfl rfl (acceptance_lock (.inr rfl) hctl hv)
  · exact exec_of_busy rfl hctl
  · exact exec_of_busy rfl hctl
  · exact exec_of_illegal rfl hctl (hv ▸ rfl)
  · exact exec_of_illegal rfl hctl (hv ▸ rfl)

end Sys2Proof.Machine
end

section
/-! The completion codes (60_exceptions.md R600 to R612): which check of acceptance gives which code, what the host is told
last, and how a segment's failed byte and the code agree. -/

namespace Sys2Proof.Machine

/-! ### The checks in their order (60_exceptions.md R611) -/

theorem exec_of_refuse {i : Instr} {s : State} {code : Code} (hi : i.surface = .request)
    (ha : acceptance i s = .refuse code) : exec i s = .next (refusedWith code s) := by
  obtain ⟨body, hbody⟩ := exec_request hi
  rw [hbody, request_refuse ha]
  rfl

/-- The cause of `NotReady` (60_exceptions.md R606), as `Obligations.AcceptanceOrder` states it. -/
def NotReadyFor (i : Instr) (s : State) : Prop :=
  (s.ctl = .uninitialized ∧ needsInit i) ∨ (s.armed = false ∧ ∃ color, i = .writeWord color)

section
variable {i : Instr} {s : State} (hi : i.surface = .request) (hctl : s.ctl ≠ .busy)
include hi

/-- `NotReadyFor` is acceptance's third and fourth check. -/
theorem notReadyFor_iff : NotReadyFor i s ↔
    (s.ctl = .uninitialized ∧ acceptedUninitialized i = false) ∨ (needsArmed i = true ∧ s.armed = false) := by
  rw [NotReadyFor, needsInit_iff hi, ← needsArmed_iff, and_comm (a := s.armed = false)]

include hctl

theorem exec_illegalRequest (hillegal : illegalFor s.cfg i) : exec i s = .next (refusedWith .illegalRequest s) :=
  exec_of_illegal hi hctl ((illegalFor_iff hi).1 hillegal)

variable (hlegal : ¬ illegalFor s.cfg i)
include hlegal

theorem exec_notReady (hnot : NotReadyFor i s) : exec i s = .next (refusedWith .notReady s) := by
  rw [illegalFor_iff hi] at hlegal
  refine exec_of_refuse hi ?_
  rw [acceptance, if_neg hctl, if_neg hlegal]
  rcases (notReadyFor_iff hi).1 hnot with huninit | hunarmed
  · rw [if_pos huninit]
  · rw [if_pos hunarmed, ite_self]

variable (hready : ¬ NotReadyFor i s)
include hready

/-- Past the first four checks, the range and the lock decide. -/
theorem acceptance_past_notReady : acceptance i s =
    if inRange i s.cfg = false then .refuse .rangeError
    else if needsUnlocked i = true ∧ s.lock = true then .refuse .busyError else .accept := by
  rw [illegalFor_iff hi] at hlegal
  rw [notReadyFor_iff hi, not_or] at hready
  obtain ⟨hinit, harmed⟩ := hready
  rw [acceptance, if_neg hctl, if_neg hlegal, if_neg hinit, if_neg harmed]

theorem exec_rangeError (hrange : outOfRange s.cfg i) : exec i s = .next (refusedWith .rangeError s) :=
  exec_of_refuse hi (by rw [acceptance_past_notReady hi hctl hlegal hready, if_pos ((outOfRange_iff hi).1 hrange)])

/-- Only a flush is refused under lock, and a flush has no range. -/
theorem exec_busyError (hlock : s.lock = true) (hflush : i = .monoFlush) :
    exec i s = .next (refusedWith .busyError s) := by
  refine exec_of_refuse hi ?_
  rw [acceptance_past_notReady hi hctl hlegal hready, hflush, if_neg (by simp [inRange]),
    if_pos ⟨needsUnlocked_iff.2 rfl, hlock⟩]

theorem acceptance_of_checks (hrange : ¬ outOfRange s.cfg i) (hlock : ¬ (s.lock = true ∧ i = .monoFlush)) :
    acceptance i s = .accept := by
  rw [outOfRange_iff hi] at hrange
  rw [← needsUnlocked_iff, and_comm] at hlock
  rw [acceptance_past_notReady hi hctl hlegal hready, if_neg hrange, if_neg hlock]

end

/-- A ready block has passed the init check, and the arming check is WRITE_WORD's. -/
theorem not_notReadyFor_of_ready {i : Instr} {s : State} (hctl : s.ctl = .ready) (hword : ∀ color, i ≠ .writeWord color) :
    ¬ NotReadyFor i s := by
  rintro (⟨huninit, -⟩ | ⟨-, color, h⟩)
  · simp [hctl] at huninit
  · exact hword color h

/-! ### The segment and the code (60_exceptions.md R601, R607, R612) -/

/-- Acceptance is for requests: a word is legal in no variant. -/
theorem legalIn_surface {i : Instr} {v : Variant} (h : legalIn i v = true) : i.surface = .request := by
  cases i <;> first | rfl | exact absurd h Bool.false_ne_true

/-- INIT's handler gives `InitFailed`, every other one `TransportError`. -/
theorem abortCode_handlerOf (i : Instr) :
    abortCode (handlerOf i) = if i = .init then .initFailed else .transportError := by
  cases i <;> rfl

theorem NoFail.nil : NoFail [] := fun _ => List.not_mem_nil

theorem FailsLast.mem {c : Cfg} {evs : List Event} (h : FailsLast c evs) : ∃ b, Event.fail b ∈ evs := by
  obtain ⟨before, b, rfl, -⟩ := h
  exact ⟨b, by simp⟩

/-- An accepted request ends with `Ok` when no byte of its segment failed, else with its handler's code. -/
theorem exec_accepted_segment {i : Instr} {s t : State} (ha : acceptance i s = .accept) (h : exec i s = .next t) :
    ∃ evs : List Event, t.trace = s.trace ++ evs ∧ ((NoFail evs ∧ t.lastResult = .ok) ∨
      (FailsLast s.cfg evs ∧ t.lastResult = if i = .init then .initFailed else .transportError)) := by
  obtain ⟨hctl, hlegal, -⟩ := acceptance_accept ha
  cases exec_ran h with
  | rejected _ hb _ => exact absurd hb hctl
  | refused _ _ code hcode _ _ => simp [ha] at hcode
  | completed _ _ _ ht =>
    refine ⟨[], ?_, .inl ⟨NoFail.nil, by rw [ht]; rfl⟩⟩
    rw [ht, State.complete_trace, List.append_nil, State.trace, (effectOf_sameWire i s).trace, State.trace]
  | succeeded _ _ _ hr he => exact ⟨_, he.trace, .inl ⟨NoFail.script _ _, (congrArg State.lastResult hr :)⟩⟩
  | aborted _ _ k hk _ hr he =>
    exact ⟨_, he.trace, .inr ⟨FailsLast.script hk, (congrArg State.lastResult hr :).trans (abortCode_handlerOf i)⟩⟩
  | sent hi => exact absurd (legalIn_surface hlegal) hi
  | stopped hi => exact absurd (legalIn_surface hlegal) hi

/-- Settles O54: an accepted request by `exec_accepted_segment`; what acceptance ends emits nothing and has another code; a
word sends its script up to the failed byte. -/
theorem oneFailAtMost : Obligations.OneFailAtMost := by
  intro i s t h
  cases exec_ran h with
  | rejected _ hb ht => exact ⟨[], by simp [ht, rejectedBusy, State.trace], .inl ⟨NoFail.nil, fun _ hctl => absurd hb hctl⟩⟩
  | refused _ _ code _ hcode ht =>
    subst ht
    exact ⟨[], by simp [refusedWith, State.trace], .inl ⟨NoFail.nil, fun _ _ => hcode.2⟩⟩
  | completed _ _ ha _ | succeeded _ ha _ _ _ | aborted _ ha _ _ _ _ _ =>
    obtain ⟨evs, htrace, ⟨hnone, hok⟩ | ⟨⟨before, b, hevs, hbefore⟩, hcode⟩⟩ := exec_accepted_segment ha h
    · exact ⟨evs, htrace, .inl ⟨hnone, fun _ _ => by simp [hok]⟩⟩
    · exact ⟨evs, htrace, .inr ⟨before, b, hevs, hbefore, fun _ => hcode⟩⟩
  | sent hi _ _ he => exact ⟨_, he.trace, .inl ⟨NoFail.script _ _, fun hrequest => absurd hrequest hi⟩⟩
  | stopped hi k hk _ _ he =>
    obtain ⟨before, b, hevs, hbefore⟩ := FailsLast.script hk
    exact ⟨_, he.trace, .inr ⟨before, b, hevs, hbefore, fun hrequest => absurd hrequest hi⟩⟩

/-! ### The response (60_exceptions.md R610, 10_state.md R39) -/

/-- From `s` to `t` the host was told `code` and `v` last, and before it only what the gaps told it. -/
def Responded (s t : State) (code : Code) (v : Byte) : Prop :=
  ∃ l : List Reply, t.repliesRev = .response code v :: (l ++ s.repliesRev) ∧ (∀ reply ∈ l, reply.inGap) ∧
    (s.arrivals = [] → l = [])

theorem Responded.of_sameWire {s u t : State} {code : Code} {v : Byte} (hu : SameWire s u)
    (ht : t.repliesRev = .response code v :: u.repliesRev) : Responded s t code v :=
  ⟨[], by rw [ht, hu.replies]; rfl, by simp, fun _ => rfl⟩

theorem Responded.of_ended {s t : State} {evs : List Event} {n : Nat} {code : Code} {v : Byte}
    (he : Ended s t evs n code v) : Responded s t code v := by
  obtain ⟨l, hgap, hreplies, hnone⟩ := he.told
  exact ⟨l, hreplies, hgap, fun h => (hnone h).1⟩

/-- A request of a block that is not busy leaves the code of its response in `last_result`. -/
theorem exec_responds {i : Instr} {s t : State} (hi : i.surface = .request) (hctl : s.ctl ≠ .busy)
    (h : exec i s = .next t) : ∃ v, Responded s t t.lastResult v := by
  cases exec_ran h with
  | rejected _ hb _ => exact absurd hb hctl
  | refused _ _ code _ _ ht =>
    subst ht
    exact ⟨0, .of_sameWire (SameWire.refl s) rfl⟩
  | completed _ _ _ ht =>
    subst ht
    exact ⟨_, .of_sameWire (effectOf_sameWire i s) rfl⟩
  | succeeded _ _ _ hr he =>
    rw [show t.lastResult = .ok from (congrArg State.lastResult hr :)]
    exact ⟨0, .of_ended he⟩
  | aborted _ _ k _ _ hr he =>
    rw [show t.lastResult = abortCode (handlerOf i) from (congrArg State.lastResult hr :)]
    exact ⟨0, .of_ended he⟩
  | sent hs => exact absurd hi hs
  | stopped hs => exact absurd hi hs

/-- Settles O53: a busy block rejects (`exec_of_busy`), any other responds with its result (`exec_responds`). -/
theorem oneCompletion : Obligations.OneCompletion := by
  intro r s
  by_cases hctl : s.ctl = .busy
  · exact ⟨rejectedBusy s, .busyError, 0, [], exec_of_busy (decodeRequest_surface r) hctl, rfl, by simp, fun _ => rfl,
      absurd hctl, fun _ => ⟨rfl, rfl⟩⟩
  · obtain ⟨body, hbody⟩ := exec_request (decodeRequest_surface r)
    obtain ⟨v, l, hreplies, hgap, hnone⟩ := exec_responds (decodeRequest_surface r) hctl (hbody s)
    exact ⟨_, _, v, l, hbody s, hreplies, hgap, hnone, fun _ => rfl, fun hb => absurd hb hctl⟩

/-! ### The codes of acceptance, one by one -/

/-- Settles O18: a busy block rejects (`exec_of_busy`), an arrival likewise, and a ready Mono block comes to the lock check
of a flush (`exec_busyError`). -/
theorem busyErrorRule : Obligations.BusyErrorRule := by
  refine ⟨fun r s hctl => ⟨exec_of_busy (decodeRequest_surface r) hctl, if_pos hctl⟩, fun s hctl hv hlock => ?_⟩
  exact exec_busyError rfl (by simp [hctl]) (by simp [illegalFor, colorOnly, monoOnly, hv])
    (not_notReadyFor_of_ready hctl nofun) hlock rfl

/-- Settles O19: `exec_illegalRequest`; INIT is accepted, so it ends with `Ok` or `InitFailed`. -/
theorem illegalRequestRule : Obligations.IllegalRequestRule := by
  refine ⟨fun r _ => exec_illegalRequest (decodeRequest_surface r), fun s hctl => ⟨_, rfl, ?_⟩⟩
  obtain ⟨-, -, ⟨-, hcode⟩ | ⟨-, hcode⟩⟩ := exec_accepted_segment (acceptance_init hctl) rfl <;> simp [hcode]

/-- Settles O21: both are `NotReadyFor` (`exec_notReady`). -/
theorem notReadyRule : Obligations.NotReadyRule := by
  refine ⟨fun r s hctl hlegal hneeds => ?_, fun color s hctl hv harmed => ?_⟩
  · exact exec_notReady (decodeRequest_surface r) (by simp [hctl]) hlegal (.inl ⟨hctl, hneeds⟩)
  · exact exec_notReady rfl hctl (by simp [illegalFor, colorOnly, monoOnly, hv]) (.inr ⟨harmed, color, rfl⟩)

/-- Settles O22: a ready block refuses only an unarmed WRITE_WORD before the range check, and that has no range. -/
theorem rangeErrorRule : Obligations.RangeErrorRule := by
  intro r s hctl hlegal hrange
  refine exec_rangeError (decodeRequest_surface r) (by simp [hctl]) hlegal (not_notReadyFor_of_ready hctl ?_) hrange
  intro color hword
  simp [hword, outOfRange] at hrange

/-- Settles O23: the checks one after another, and past them `exec_accepted_segment` and `exec_responds`. -/
theorem acceptanceOrder : Obligations.AcceptanceOrder := by
  intro r s
  have hi := decodeRequest_surface r
  refine ⟨exec_of_busy hi, exec_illegalRequest hi, exec_notReady hi, fun hctl hlegal hready =>
    ⟨exec_rangeError hi hctl hlegal hready, exec_busyError hi hctl hlegal hready, fun hrange hlock => ?_⟩⟩
  obtain ⟨body, hbody⟩ := exec_request hi
  obtain ⟨v, l, hreplies, -⟩ := exec_responds hi hctl (hbody s)
  obtain ⟨evs, htrace, hend⟩ := exec_accepted_segment (acceptance_of_checks hi hctl hlegal hready hrange hlock) (hbody s)
  exact ⟨_, _, v, l, evs, hbody s, hreplies, rfl, htrace,
    hend.imp (fun ⟨hnone, hok⟩ => ⟨hok, hnone⟩) fun ⟨hfails, hcode⟩ => ⟨hcode, hfails.mem⟩⟩

/-! ### Idle steps and polls (60_exceptions.md R620, 30_encoding.md R144) -/

/-- The STATE field of STATUS reads 2 exactly while the block is busy (10_state.md R34, R49). -/
theorem status_state_eq_two_iff (s : State) : (s.readReg 0).extractLsb' 0 2 = 2 ↔ s.ctl = .busy := by
  have hreg : (s.readReg 0).extractLsb' 0 2 = s.status.extractLsb' 0 2 := by
    change (s.status.setWidth 32).extractLsb' 0 2 = _
    exact BitVec.eq_of_toNat_eq (by simp)
  rw [hreg, ← BitVec.toNat_inj, s.status_fields.1]
  cases s.ctl <;> decide

/-- Settles O17: an empty inbox is the idle arm of `step`; a poll stays at the head while STATUS says busy. -/
theorem idleAndPoll : Obligations.IdleAndPoll := by
  refine fun s => ⟨fun h => by rw [step, h], fun later h => ?_⟩
  rw [step, h]
  simp only [State.hostPoll, status_state_eq_two_iff]
  split
  · rw [← h]; rfl
  · rfl

end Sys2Proof.Machine
end
